-- ==== Sys2Proof/Word.lean ====
section
/-! DEFINITION. The words of BTQ8: bytes, 32-bit registers, binary64 bit patterns, and 8×8 blocks. -/

namespace Sys2Proof

/-- A sample or one byte of the host window (00_scope R17). -/
abbrev Byte := BitVec 8

/-- A register, a command word or a quantized coefficient (00_scope R17). -/
abbrev Word := BitVec 32

/-- A binary64 bit pattern (00_scope R17, R20). -/
abbrev B64 := BitVec 64

/-- A byte offset into the host window (20_memory R100). -/
abbrev Offset := BitVec 24

/-- An 8×8 block in linear order k = 8·i + j (00_scope R22). -/
abbrev Block (α : Type) := Vector α 64

/-- The width of a host access, 1, 2, 4 or 8 bytes (20_memory R100). -/
inductive Width where
  | b1
  | b2
  | b4
  | b8
  deriving DecidableEq, Repr

/-- 2^e, written as a shift, which the kernel evaluates on numerals at once. -/
def pow2 (e : Nat) : Nat := 1 <<< e

end Sys2Proof
end

