-- ==== Sys2Proof/Syntax.lean ====
section
/-! DEFINITION. The fifteen commands of BTQ8 (30_encoding R149), one constructor per row of the opcode map. -/

namespace Sys2Proof

/-- A command with its operand fields (30_encoding R141, R143–R146): `rd` and `rs` are block register
indices whose register file the opcode fixes, `bsel` selects the coding block and `mbi` the macroblock. -/
inductive Instr where
  | nop
  | fdct (rd rs : Fin 4)
  | idct (rd rs : Fin 4)
  | quant (rd rs : Fin 4)
  | deq (rd rs : Fin 4)
  | c2q (rd rs : Fin 4)
  | q2c (rd rs : Fin 4)
  | ldblk (rd : Fin 4) (bsel : BitVec 3) (mbi : BitVec 16)
  | stblk (rs : Fin 4) (bsel : BitVec 3) (mbi : BitVec 16)
  | ldq (rd : Fin 4) (bsel : BitVec 3) (mbi : BitVec 16)
  | stq (rs : Fin 4) (bsel : BitVec 3) (mbi : BitVec 16)
  | codeMb (mbi : BitVec 16)
  | reconMb (mbi : BitVec 16)
  | codePic
  | reconPic
  deriving DecidableEq, Repr

end Sys2Proof
end

