-- ==== Sys2Proof/WellFormed.lean ====
section
/-! DEFINITION. Which commands have an encoding that decodes to them: BSEL is 0..5 (30_encoding R145).
Every other operand range is carried by the field's type (R143, R144, R146). -/

namespace Sys2Proof

/-- BSEL names a coding block (30_encoding R145). -/
def blockSelectorOk (bsel : BitVec 3) : Bool := bsel.toNat < 6

/-- The operand ranges of 30_encoding R145. -/
def Instr.wellFormed : Instr → Bool
  | .nop => true
  | .fdct _ _ => true
  | .idct _ _ => true
  | .quant _ _ => true
  | .deq _ _ => true
  | .c2q _ _ => true
  | .q2c _ _ => true
  | .ldblk _ bsel _ => blockSelectorOk bsel
  | .stblk _ bsel _ => blockSelectorOk bsel
  | .ldq _ bsel _ => blockSelectorOk bsel
  | .stq _ bsel _ => blockSelectorOk bsel
  | .codeMb _ => true
  | .reconMb _ => true
  | .codePic => true
  | .reconPic => true

/-- `wellFormed` as a proposition. -/
abbrev Instr.WellFormed (i : Instr) : Prop := i.wellFormed = true

end Sys2Proof
end

