-- ==== Sys2Proof/Decode.lean ====
section
/-! DEFINITION. The decoder of 30_encoding R153, total on all 2^32 words, the encoder written from R141 and
R149, and the word numbering the host asks for. -/

namespace Sys2Proof

/-- Why a word is Illegal (30_encoding R150, R151, R145; 60_exceptions R302 (a), (b), (c)). -/
inductive DecodeError where
  /-- OPC is 0x07, 0x0C–0x0F or 0x14–0xFF (R151). -/
  | reservedOpcode (opc : BitVec 8)
  /-- A reserved bit of the opcode's format is 1 (R150). -/
  | reservedBits (mnemonic : String)
  /-- BSEL is 6 or 7 (R145). -/
  | blockSelector (mnemonic : String) (bsel : BitVec 3)
  deriving DecidableEq, Repr

/-- The operand fields of a command word (30_encoding R141). -/
structure Fields where
  rd   : Fin 4
  rs   : Fin 4
  bsel : BitVec 3
  mbi  : BitVec 16

/-- A row of the opcode map (30_encoding R149). -/
structure OpRow where
  mnemonic : String
  mask     : Word
  pattern  : Word
  usesBsel : Bool
  build    : Fields → Instr

/-- OPC, bits 7:0 (30_encoding R142). -/
def opcOf (w : Word) : BitVec 8 := w.extractLsb' 0 8

/-- RD, bits 9:8; RS, bits 11:10; BSEL, bits 14:12; MBI, bits 31:16 (30_encoding R141, R143–R146). -/
def fieldsOf (w : Word) : Fields where
  rd := (w.extractLsb' 8 2).toFin
  rs := (w.extractLsb' 10 2).toFin
  bsel := w.extractLsb' 12 3
  mbi := w.extractLsb' 16 16

/-- The opcode map (30_encoding R149): mask and match of each command. -/
def opcodeMap : List OpRow := [
  ⟨"NOP", 0xFFFFFFFF, 0x00000000, false, fun _ => .nop⟩,
  ⟨"FDCT", 0xFFFFF0FF, 0x00000001, false, fun f => .fdct f.rd f.rs⟩,
  ⟨"IDCT", 0xFFFFF0FF, 0x00000002, false, fun f => .idct f.rd f.rs⟩,
  ⟨"QUANT", 0xFFFFF0FF, 0x00000003, false, fun f => .quant f.rd f.rs⟩,
  ⟨"DEQ", 0xFFFFF0FF, 0x00000004, false, fun f => .deq f.rd f.rs⟩,
  ⟨"C2Q", 0xFFFFF0FF, 0x00000005, false, fun f => .c2q f.rd f.rs⟩,
  ⟨"Q2C", 0xFFFFF0FF, 0x00000006, false, fun f => .q2c f.rd f.rs⟩,
  ⟨"LDBLK", 0x00008CFF, 0x00000008, true, fun f => .ldblk f.rd f.bsel f.mbi⟩,
  ⟨"STBLK", 0x000083FF, 0x00000009, true, fun f => .stblk f.rs f.bsel f.mbi⟩,
  ⟨"LDQ", 0x00008CFF, 0x0000000A, true, fun f => .ldq f.rd f.bsel f.mbi⟩,
  ⟨"STQ", 0x000083FF, 0x0000000B, true, fun f => .stq f.rs f.bsel f.mbi⟩,
  ⟨"CODE_MB", 0x0000FFFF, 0x00000010, false, fun f => .codeMb f.mbi⟩,
  ⟨"RECON_MB", 0x0000FFFF, 0x00000011, false, fun f => .reconMb f.mbi⟩,
  ⟨"CODE_PIC", 0xFFFFFFFF, 0x00000012, false, fun _ => .codePic⟩,
  ⟨"RECON_PIC", 0xFFFFFFFF, 0x00000013, false, fun _ => .reconPic⟩]

/-- `(w & mask) = match` (30_encoding R149). -/
def OpRow.matchesWord (w : Word) (r : OpRow) : Bool := w &&& r.mask == r.pattern

/-- `decode` of 30_encoding R153. An Illegal word is rejected with the reason of 60_exceptions R302. -/
def decode (w : Word) : Except DecodeError Instr :=
  match opcodeMap.find? (fun r => r.matchesWord w) with
  | some r =>
    if r.usesBsel && !blockSelectorOk (fieldsOf w).bsel then
      .error (.blockSelector r.mnemonic (fieldsOf w).bsel)
    else .ok (r.build (fieldsOf w))
  | none =>
    match opcodeMap.find? (fun r => opcOf r.pattern == opcOf w) with
    | some r => .error (.reservedBits r.mnemonic)
    | none => .error (.reservedOpcode (opcOf w))

/-- The command word with the given fields, bit 15 zero (30_encoding R141, R147). -/
def commandWord (opc : BitVec 8) (rd rs : Fin 4) (bsel : BitVec 3) (mbi : BitVec 16) : Word :=
  mbi ++ 0#1 ++ bsel ++ BitVec.ofNat 2 rs.val ++ BitVec.ofNat 2 rd.val ++ opc

/-- The word of a command: its opcode of 30_encoding R149, its fields of R141, and 0 in every field it does not
use (R150). -/
def encode : Instr → Word
  | .nop => commandWord 0x00 0 0 0 0
  | .fdct rd rs => commandWord 0x01 rd rs 0 0
  | .idct rd rs => commandWord 0x02 rd rs 0 0
  | .quant rd rs => commandWord 0x03 rd rs 0 0
  | .deq rd rs => commandWord 0x04 rd rs 0 0
  | .c2q rd rs => commandWord 0x05 rd rs 0 0
  | .q2c rd rs => commandWord 0x06 rd rs 0 0
  | .ldblk rd bsel mbi => commandWord 0x08 rd 0 bsel mbi
  | .stblk rs bsel mbi => commandWord 0x09 0 rs bsel mbi
  | .ldq rd bsel mbi => commandWord 0x0A rd 0 bsel mbi
  | .stq rs bsel mbi => commandWord 0x0B 0 rs bsel mbi
  | .codeMb mbi => commandWord 0x10 0 0 0 mbi
  | .reconMb mbi => commandWord 0x11 0 0 0 mbi
  | .codePic => commandWord 0x12 0 0 0 0
  | .reconPic => commandWord 0x13 0 0 0 0

/-- A command's 32 bits when the table gives `nbits` of them as `w`; the bits above are 0. -/
def tableWord (nbits w : Nat) : Word := BitVec.ofNat 32 (w % pow2 nbits)

/-- What the decoder reads from the command whose bits are `w`, numbered as spec/opcode_table.json numbers
them. A command is one 32-bit register value (30_encoding R140), so no byte order enters. -/
def decodeTableWord (nbits w : Nat) : Option Instr :=
  match decode (tableWord nbits w) with
  | .ok i => some i
  | .error _ => none

end Sys2Proof
end

