-- ==== Sys2Proof/Config.lean ====
section
/-! DEFINITION. What one implementation fixes (the parameters of 00_scope R9–R16) and the free values:
opaque constants without a body, so that nothing can be proved about the value they give. -/

namespace Sys2Proof

/-- `XFORM_KIND` (00_scope R13): the orthonormal DCT-II or the sequency-ordered Walsh–Hadamard transform. -/
inductive XformKind where
  | dct2
  | wht
  deriving DecidableEq, Repr

/-- `XFORM_IMPL` (00_scope R14): the bit-exact binary64 evaluation, or any evaluation within `eps`. -/
inductive XformImpl where
  | ref64
  | bounded (eps : Rat)
  deriving DecidableEq, Repr

/-- `PIX_ROUND` (00_scope R16): round half to even, or truncate. -/
inductive PixRound where
  | rhe
  | trunc
  deriving DecidableEq, Repr

/-- The parameters of the model (00_scope R11–R16). `N` = 8 and `MB_SIZE` = 16 are fixed (R9, R10). -/
structure Params where
  maxW     : Nat
  maxH     : Nat
  kind     : XformKind
  impl     : XformImpl
  pixRound : PixRound
  qtable   : Block Byte
  deriving DecidableEq, Repr

/-- `EPS >= 0` (40_transform R176). -/
abbrev XformImpl.Valid : XformImpl → Prop
  | .ref64 => True
  | .bounded eps => 0 ≤ eps

/-- The constraints on the parameters (00_scope R11, R15; 40_transform R176). -/
structure Params.Valid (c : Params) : Prop where
  wMultiple : c.maxW % 16 = 0
  hMultiple : c.maxH % 16 = 0
  wLow      : 16 ≤ c.maxW
  wHigh     : c.maxW ≤ 65535
  hLow      : 16 ≤ c.maxH
  hHigh     : c.maxH ≤ 65535
  area      : c.maxW * c.maxH ≤ 2 ^ 20
  table     : ∀ k : Fin 64, c.qtable[k] ≠ 0#8
  epsilon   : c.impl.Valid

namespace Config

/-- Free value (log 4): an IN, OUT or COEF byte that no write has set since reset, at a draw count and a
window offset (10_state R74). -/
opaque drawByte : Nat → Nat → Byte

/-- Free value (log 4): a host read of an RB element that no write has set, at a draw count and the element's
index 64·r + k (10_state R66). -/
opaque drawReal : Nat → Nat → B64

/-- Free value (log 4): a host read of a QB element that no write has set, at a draw count and the element's
index 64·r + k (10_state R66). -/
opaque drawInt : Nat → Nat → Word

/-- Free value (log 4): the data of a host read of a data region while BUSY = 1, at a draw count
(70_reset R353). -/
opaque drawBusy : Nat → B64

/-- Free value (log 10): an output element of a `BOUNDED(EPS)` transform, at a draw count, the number of the
transform within the command, and the element's linear index (40_transform R176). -/
opaque drawXform : Nat → Nat → Nat → B64

/-- Free value (log 11): `a ⊕ b` when an operand is an infinity or a NaN, for which 00_scope R20 states no value. -/
opaque nonFiniteSum : B64 → B64 → B64

/-- Free value (log 11): `a ⊗ b` when an operand is an infinity or a NaN. -/
opaque nonFiniteProduct : B64 → B64 → B64

/-- Free value (log 11): RNE64 of ±n/d when it lies past the largest binary64 value ("overflow never occurs in
this spec", 00_scope R20). It is used through `asFinite`: 10_state R67 says that the result is finite. -/
opaque overflow64 : Bool → Nat → Nat → B64

/-- Free value (log 11): QUANT1 of an infinity or a NaN (41_quantizer R191 states it for real values only). -/
opaque nonFiniteQuant : B64 → Nat → Nat → Int

/-- Free value (log 11): PIX of a NaN (42_region R224 states it for real values only). -/
opaque nanPixel : B64 → Byte

end Config

end Sys2Proof
end

