-- ==== Sys2Proof/Machine/Blocks.lean ====
section
/-! DEFINITION. 8×8 blocks by row and column, and sums over eight indices (00_scope R22, R23). -/

namespace Sys2Proof.Machine

/-- Element [i][j] of a block, at linear index 8·i + j (00_scope R22). -/
def elem {α : Type} (b : Block α) (i j : Fin 8) : α := b[8 * i.val + j.val]

/-- The block whose element [i][j] is `f i j`. -/
def mkBlock {α : Type} (f : Fin 8 → Fin 8 → α) : Block α :=
  Vector.ofFn fun k : Fin 64 => f ⟨k.val / 8, by omega⟩ ⟨k.val % 8, by omega⟩

/-- The block of a function applied elementwise. -/
def mapBlock {α β : Type} (f : α → β) (b : Block α) : Block β :=
  mkBlock fun i j => f (elem b i j)

/-- Every element of the block satisfies `p`. -/
def allBlock {α : Type} (p : α → Bool) (b : Block α) : Bool := b.toList.all p

/-- The exact sum of eight integers, from index 0 upward. -/
def sum8 (f : Fin 8 → Int) : Int := f 0 + f 1 + f 2 + f 3 + f 4 + f 5 + f 6 + f 7

end Sys2Proof.Machine
end

