-- ==== Sys2Proof/Machine/Tables.lean ====
section
/-! DEFINITION. The constant tables of the spec: the default QTABLE (41_quantizer R190), the transform matrices
(40_transform R171, R172, R177) and the default parameters (00_scope R11–R16). -/

namespace Sys2Proof.Machine

/-- The default QTABLE (41_quantizer R190), row i in line i, marked in the spec as general knowledge (log 19). -/
def defaultQTable : Block Byte := #v[
  16, 11, 10, 16, 24, 40, 51, 61,
  12, 12, 14, 19, 26, 58, 60, 55,
  14, 13, 16, 24, 40, 57, 69, 56,
  14, 17, 22, 29, 51, 87, 80, 62,
  18, 22, 37, 56, 68, 109, 103, 77,
  24, 35, 55, 64, 81, 104, 113, 92,
  49, 64, 78, 87, 103, 121, 120, 101,
  72, 92, 95, 98, 112, 100, 103, 99]

/-- The default parameters (00_scope R11, R13–R16). -/
def defaultParams : Params where
  maxW := 1024
  maxH := 1024
  kind := .dct2
  impl := .ref64
  pixRound := .rhe
  qtable := defaultQTable

/-- The magnitudes `c_0 .. c_7` of 40_transform R177 (no entry of the matrices uses `c_0`). -/
def coeff64 : Vector B64 8 := #v[
  0x3FE0000000000000,
  0x3FDF6297CFF75CB0,
  0x3FDD906BCF328D46,
  0x3FDA9B66290EA1A3,
  0x3FD6A09E667F3BCD,
  0x3FD1C73B39AE68C8,
  0x3FC87DE2A6AEA963,
  0x3FB8F8B83C69A60B]

/-- Row k of the DCT-II matrix as signed indices m: the entry is `c_m`, negated when m < 0 (40_transform R177). -/
def dctIndex : Vector Int 64 := #v[
  4, 4, 4, 4, 4, 4, 4, 4,
  1, 3, 5, 7, -7, -5, -3, -1,
  2, 6, -6, -2, -2, -6, 6, 2,
  3, -7, -1, -5, 5, 1, 7, -3,
  4, -4, -4, 4, 4, -4, -4, 4,
  5, -1, 7, 3, -3, -7, 1, -5,
  6, -2, 2, -6, -6, 2, -2, 6,
  7, -5, 3, -1, 1, -3, 5, -7]

/-- The Walsh–Hadamard matrix in the same form: every entry is `±c_4`, with the signs of 40_transform R172. -/
def whtIndex : Vector Int 64 := #v[
  4, 4, 4, 4, 4, 4, 4, 4,
  4, 4, 4, 4, -4, -4, -4, -4,
  4, 4, -4, -4, -4, -4, 4, 4,
  4, 4, -4, -4, 4, 4, -4, -4,
  4, -4, -4, 4, 4, -4, -4, 4,
  4, -4, -4, 4, -4, 4, 4, -4,
  4, -4, 4, -4, -4, 4, -4, 4,
  4, -4, 4, -4, 4, -4, 4, -4]

end Sys2Proof.Machine
end

