-- ==== Sys2Proof/Machine/State.lean ====
section
/-! DEFINITION. The state of BTQ8 (10_state R40), the outside world's moves and responses, the reasons a step can
stop, and the state after reset (70_reset R341). -/

namespace Sys2Proof.Machine

/-- Why the machine stops (60_exceptions R329). No command does: UNINIT of R329 is recorded in `State.uninit` (log 5). -/
inductive Fault where
  /-- Raised by the step when reset is asserted while BUSY = 1, for which the spec gives no move (20_memory R130,
  60_exceptions R329, 70_reset R340). Safe: nothing is claimed of the state that follows. -/
  | resetWhileBusy
  deriving DecidableEq, Repr

/-- Why a step gives no meaning. -/
inductive Refusal where
  /-- Answered by `exec` for a command that has no meaning yet. Safe: no claim about it can be proved. -/
  | notModelled (mnemonic : String)
  deriving DecidableEq, Repr

/-- The engine's phase (10_state R80); STATUS.BUSY is 1 exactly in phase `busy` (R48). -/
inductive Phase where
  | idle
  | busy
  deriving DecidableEq, Repr

/-- A block register and which of its elements a write has set since reset (10_state R62, R64, R66). -/
structure BlockReg (α : Type) where
  vals    : Block α
  written : Block Bool
  deriving DecidableEq, Repr

/-- A block register file of four registers (10_state R62, R64). -/
abbrev RegFile (α : Type) := Vector (BlockReg α) 4

/-- The bytes of IN, OUT and COEF that a write has set since reset, by window offset (10_state R70–R76). -/
abbrev Memory := List Host.Cell

/-- What the outside world does next (00_scope R30, R31; 70_reset R340): one host access, leaving the engine its
turn, or reset. Of `v` the low n bytes are the value written (20_memory R100, log 14). -/
inductive Move where
  | read (addr : Offset) (n : Width)
  | write (addr : Offset) (n : Width) (v : BitVec 64)
  | engine
  | reset
  deriving DecidableEq, Repr

/-- The outcome the host sees of an access (20_memory R100; 60_exceptions R315): OK, OK(data), or BusError. -/
inductive Response where
  | ok
  | okData (n : Width) (v : BitVec 64)
  | busError
  | busErrorData (n : Width) (v : BitVec 64)
  deriving DecidableEq, Repr

/-- The state of BTQ8 (10_state R40), and the model's own fields `cfg`, `moves`, `resp`, `draws` and
`uninit`. -/
structure State where
  /-- The parameters of 00_scope R9–R16; no step changes them (log 1). -/
  cfg     : Params
  /-- CTRL.IE, the one stored bit of CTRL (10_state R46). -/
  ie      : Bool
  /-- The engine phase, which is STATUS.BUSY (10_state R48, R80). -/
  phase   : Phase
  /-- STATUS.DONE (10_state R49). -/
  done    : Bool
  /-- STATUS.ERR (10_state R50). -/
  err     : Bool
  /-- STATUS.BUSERR (10_state R51). -/
  busErr  : Bool
  /-- STATUS.ERRCODE (10_state R50; 60_exceptions R301). -/
  errCode : BitVec 4
  /-- CMD (10_state R52). -/
  cmd     : Word
  /-- The latched command LC (10_state R80). -/
  lc      : Word
  /-- P, the quality parameter in Q15.16 (10_state R54). -/
  p       : Word
  /-- WIDTH (10_state R56). -/
  width   : Word
  /-- HEIGHT (10_state R57). -/
  height  : Word
  /-- MB_COUNT (10_state R58). -/
  mbCount : Word
  /-- RB0–RB3 (10_state R62). -/
  rb      : RegFile B64
  /-- QB0–QB3 (10_state R64). -/
  qb      : RegFile Word
  /-- IN, OUT and COEF (10_state R70, R75). -/
  mem     : Memory
  /-- The outside world's future moves, the next one first (00_scope R31, log 2). -/
  moves   : List Move
  /-- The response of the last host access (20_memory R100, log 3). -/
  resp    : Option Response
  /-- How many host accesses and engine steps have been made: the index of the next draw (log 4). -/
  draws   : Nat
  /-- UNINIT of 60_exceptions R329: the first command since reset that read an RB or QB element which no write had set,
  named by its mnemonic; `none` while there has been none (10_state R66, log 5). -/
  uninit  : Option String
  deriving DecidableEq, Repr

/-- A block register after reset: no element written (10_state R66), each holding a named value, which the engine
reads (log 5). -/
def BlockReg.reset {α : Type} (v : α) : BlockReg α where
  vals := Vector.replicate 64 v
  written := Vector.replicate 64 false

/-- The state after reset of a BTQ8 with the given parameters (70_reset R341). LC, RB and QB are unspecified there:
log 5 and log 6 name their values. IN, OUT and COEF have no byte written (log 7). -/
def State.resetWith (cfg : Params) : State where
  cfg := cfg
  ie := false
  phase := .idle
  done := false
  err := false
  busErr := false
  errCode := 0
  cmd := 0
  lc := 0
  p := 0
  width := 0
  height := 0
  mbCount := 0
  rb := Vector.replicate 4 (BlockReg.reset 0)
  qb := Vector.replicate 4 (BlockReg.reset 0)
  mem := []
  moves := []
  resp := none
  draws := 0
  uninit := none

/-- The state after reset with the default parameters. -/
def State.reset : State := State.resetWith defaultParams

end Sys2Proof.Machine
end

