-- ==== Sys2Proof/Machine/Flags.lean ====
section
/-! DEFINITION. The flags of BTQ8: the command error codes, the STATUS word, the completion of a command, the
write-one-to-clear of STATUS, and the interrupt output (10_state R47–R51, R61; 60_exceptions R301). -/

namespace Sys2Proof.Machine

/-- The command errors (60_exceptions R301). -/
inductive CmdError where
  | invalidDimensions
  | invalidParameter
  | lengthMismatch
  | illegalCommand
  | indexRange
  | coefOverflow
  deriving DecidableEq, Repr

/-- The code of a command error in STATUS.ERRCODE (60_exceptions R301). -/
def errorCode : CmdError → BitVec 4
  | .invalidDimensions => 1
  | .invalidParameter => 2
  | .lengthMismatch => 3
  | .illegalCommand => 4
  | .indexRange => 5
  | .coefOverflow => 6

/-- STATUS.BUSY (10_state R48). -/
def State.busy (s : State) : Bool := s.phase == .busy

/-- The STATUS word (10_state R47): bits 7:4 and 31:12 read 0. -/
def State.status (s : State) : Word :=
  0#20 ++ s.errCode ++ 0#4 ++ BitVec.ofBool s.busErr ++ BitVec.ofBool s.err ++ BitVec.ofBool s.done ++
    BitVec.ofBool s.busy

/-- The CTRL word (10_state R46): bits 31:1 read 0. -/
def State.ctrl (s : State) : Word := 0#31 ++ BitVec.ofBool s.ie

/-- The interrupt output (10_state R61; 60_exceptions R320). -/
def State.irq (s : State) : Bool := s.ie && (s.done || s.err)

/-- `complete(Ok)` (46_control R289). The step's draws are used up (log 4). -/
def State.completeOk (s : State) : State :=
  { s with phase := .idle, done := true, draws := s.draws + 1 }

/-- `complete(Err(e))` (46_control R289; 60_exceptions R310): the one entry for every command error. The first error
since ERR was last clear is kept (10_state R50; 60_exceptions R313). -/
def State.completeErr (e : CmdError) (s : State) : State :=
  { s with
    phase := .idle
    done := true
    err := true
    errCode := if s.err then s.errCode else errorCode e
    draws := s.draws + 1 }

/-- A host write of `v` to STATUS (10_state R47): the return from an error or a completion (60_exceptions R312). -/
def State.clearStatus (v : Word) (s : State) : State :=
  { s with
    done := s.done && !v.getLsbD 1
    err := s.err && !v.getLsbD 2
    errCode := if v.getLsbD 2 then 0 else s.errCode
    busErr := s.busErr && !v.getLsbD 3 }

end Sys2Proof.Machine
end

