-- ==== Sys2Proof/Machine/Ops.lean ====
section
/-! DEFINITION. The named operations over memory and registers: bytes of the window and their little-endian
assembly, block registers, issuing a command, and recording a bus error. -/

namespace Sys2Proof.Machine

/-! ## Bytes -/

/-- The number whose bytes, lowest first, are given (20_memory R103). -/
def leNat : List Byte → Nat
  | [] => 0
  | b :: bs => b.toNat + 256 * leNat bs

/-- The low n bytes of a number, lowest first (20_memory R103). -/
def leBytes : Nat → Nat → List Byte
  | 0, _ => []
  | n + 1, v => BitVec.ofNat 8 v :: leBytes n (v / 256)

/-- Byte i of a number, counted from the lowest. -/
def byteOf (v i : Nat) : Byte := BitVec.ofNat 8 (v / pow2 (8 * i))

/-! ## Memory -/

/-- The canonical form: addresses strictly rising. An unlisted byte is one that no write has set; it reads as a
draw, so no listed byte equals what an unlisted one reads as (log 7). -/
def Memory.wf (m : Memory) : Bool := decide (m.Pairwise fun x y => x.1 < y.1)

/-- The byte a write has set at window offset `a`, if any. -/
def Memory.lookup (m : Memory) (a : Nat) : Option Byte := (m.find? fun x => x.1 == a).map (·.2)

/-- The cells of consecutive bytes from `a` on. -/
def cellsFrom : Nat → List Byte → Memory
  | _, [] => []
  | a, b :: bs => (a, b) :: cellsFrom (a + 1) bs

/-- Memory after writing consecutive bytes from `a` on. -/
def Memory.write (m : Memory) (a : Nat) (bs : List Byte) : Memory :=
  m.filter (fun x => decide (x.1 < a)) ++ cellsFrom a bs ++ m.filter (fun x => decide (a + bs.length ≤ x.1))

/-- Memory after several writes of consecutive bytes, in order. -/
def Memory.writeRuns (m : Memory) (runs : List (Nat × List Byte)) : Memory :=
  runs.foldl (fun m r => m.write r.1 r.2) m

/-- The byte of IN, OUT or COEF at window offset `a`: what a write has set, else a draw (10_state R74). -/
def State.byteAt (s : State) (a : Nat) : Byte :=
  (s.mem.lookup a).getD (Config.drawByte s.draws a)

/-- The little-endian word of the four bytes from window offset `a` on (20_memory R103). -/
def State.wordAt (s : State) (a : Nat) : Word :=
  BitVec.ofNat 32 (leNat [s.byteAt a, s.byteAt (a + 1), s.byteAt (a + 2), s.byteAt (a + 3)])

/-! ## Block registers -/

/-- A block register after a write of all 64 elements (00_scope R23). -/
def BlockReg.full {α : Type} (b : Block α) : BlockReg α where
  vals := b
  written := Vector.replicate 64 true

/-- An engine read of RB[r]: "whatever bits the element holds" (10_state R62; 60_exceptions R329, log 5). -/
def State.readRb (s : State) (r : Fin 4) : Block B64 := s.rb[r].vals

/-- An engine read of QB[r]: "whatever bits the element holds" (10_state R64; 60_exceptions R329, log 5). -/
def State.readQb (s : State) (r : Fin 4) : Block Word := s.qb[r].vals

/-- The record that an engine read of block register `r` leaves: UNINIT naming the command, if some element has not been
written since reset and no UNINIT stands already (10_state R66; 60_exceptions R329, log 5). -/
def State.noteRead {α : Type} (name : String) (r : BlockReg α) (s : State) : State :=
  { s with uninit := s.uninit.or (if allBlock id r.written then none else some name) }

/-- `RB[r] <- b` (00_scope R23). -/
def State.writeRb (r : Fin 4) (b : Block B64) (s : State) : State :=
  { s with rb := s.rb.set r.val (BlockReg.full b) }

/-- `QB[r] <- b` (00_scope R23). -/
def State.writeQb (r : Fin 4) (b : Block Word) (s : State) : State :=
  { s with qb := s.qb.set r.val (BlockReg.full b) }

/-- A host write of element e = 64·r + k of QB (10_state R65). -/
def State.writeQbElem (e : Nat) (v : Word) (s : State) : State :=
  { s with
    qb := s.qb.set (e / 64 % 4)
      { vals := (s.qb[e / 64 % 4]'(Nat.mod_lt _ (by decide))).vals.set (e % 64) v (Nat.mod_lt _ (by decide))
        written := (s.qb[e / 64 % 4]'(Nat.mod_lt _ (by decide))).written.set (e % 64) true (Nat.mod_lt _ (by decide)) }
      (Nat.mod_lt _ (by decide)) }

/-- What the host sees of element e = 64·r + k of RB: its bits, or a draw when unwritten (10_state R63, R66). -/
def State.rbHost (s : State) (e : Nat) : B64 :=
  if (s.rb[e / 64 % 4]'(Nat.mod_lt _ (by decide))).written[e % 64]'(Nat.mod_lt _ (by decide)) then
    (s.rb[e / 64 % 4]'(Nat.mod_lt _ (by decide))).vals[e % 64]'(Nat.mod_lt _ (by decide))
  else Config.drawReal s.draws e

/-- What the host sees of element e = 64·r + k of QB (10_state R65, R66). -/
def State.qbHost (s : State) (e : Nat) : Word :=
  if (s.qb[e / 64 % 4]'(Nat.mod_lt _ (by decide))).written[e % 64]'(Nat.mod_lt _ (by decide)) then
    (s.qb[e / 64 % 4]'(Nat.mod_lt _ (by decide))).vals[e % 64]'(Nat.mod_lt _ (by decide))
  else Config.drawInt s.draws e

/-! ## Whole-field updates -/

/-- The state with another memory. -/
def State.withMem (m : Memory) (s : State) : State := { s with mem := m }

/-- `CSR.MB_COUNT <- v` (44_picture_coder R267). -/
def State.withMbCount (v : Word) (s : State) : State := { s with mbCount := v }

/-- The state with the given future moves. -/
def State.withMoves (ms : List Move) (s : State) : State := { s with moves := ms }

/-! ## Issue and bus errors -/

/-- The acceptance of command word `w` (46_control R285): DONE, ERR, ERRCODE and BUSERR stay as they are. -/
def State.issue (w : Word) (s : State) : State := { s with cmd := w, lc := w, phase := .busy }

/-- The answer to a host access: its response, and the access's draws used up (log 3, log 4). -/
def State.respond (r : Response) (s : State) : State := { s with resp := some r, draws := s.draws + 1 }

/-- `raise BusError` (60_exceptions R315, R316): the one entry for every bus error. Nothing changes but
STATUS.BUSERR. -/
def State.raiseBusError (r : Response) (s : State) : State := { s with busErr := true }.respond r

/-- Reset from a state with BUSY = 0 (70_reset R340, R341). The moves to come, the last response and the draw count
are the model's own and stay (log 8). -/
def State.applyReset (s : State) : State :=
  { State.resetWith s.cfg with moves := s.moves, resp := s.resp, draws := s.draws + 1 }

end Sys2Proof.Machine
end

