-- ==== Sys2Proof/Machine/Control.lean ====
section
/-! DEFINITION. The no-operation command NOP (46_control R290). -/

namespace Sys2Proof.Machine

/-- NOP (46_control R290): nothing but the completion. -/
def execNop (s : State) : Host.Outcome State Fault Refusal := .next s.completeOk

end Sys2Proof.Machine
end

