-- ==== Sys2Proof/Machine/Binary64.lean ====
section
/-! DEFINITION. Binary64 arithmetic and the roundings of rationals (00_scope R20, R21). A finite binary64 value is
an integer number of units of 2^-1074, so every real value here is an exact integer or a fraction of integers. -/

namespace Sys2Proof.Machine

/-- The unit of `mag` and `scaled`: a real r is `r · 2^1074` units. -/
def unit64 : Nat := pow2 1074

/-- The biased exponent field, bits 62:52. -/
def expField (v : B64) : Nat := v.toNat / pow2 52 % pow2 11

/-- The fraction field, bits 51:0. -/
def fracField (v : B64) : Nat := v.toNat % pow2 52

/-- The sign bit, bit 63. -/
def signBit (v : B64) : Bool := v.msb

/-- Neither an infinity nor a NaN. -/
def isFinite (v : B64) : Bool := expField v != 2047

/-- A NaN. -/
def isNaN (v : B64) : Bool := expField v == 2047 && fracField v != 0

/-- `|real(v)|` in units of 2^-1074 (00_scope R20). -/
def mag (v : B64) : Nat :=
  if expField v = 0 then fracField v else (pow2 52 + fracField v) * pow2 (expField v - 1)

/-- `real(v)` in units of 2^-1074 (00_scope R20). -/
def scaled (v : B64) : Int := if signBit v then -(mag v : Int) else (mag v : Int)

/-- RHE of the non-negative rational n/d (00_scope R21). -/
def roundHalfEven (n d : Nat) : Nat :=
  if 2 * (n % d) < d then n / d
  else if d < 2 * (n % d) then n / d + 1
  else if n / d % 2 = 0 then n / d
  else n / d + 1

/-- RHE of ±n/d: half-even rounding is odd-symmetric (00_scope R21). -/
def roundHalfEvenSigned (neg : Bool) (n d : Nat) : Int :=
  if neg then -(roundHalfEven n d : Int) else (roundHalfEven n d : Int)

/-- The floor of the binary logarithm by halving steps: each step `k` takes off `k` places when the number has more
than that. -/
def log2Steps : List Nat → Nat → Nat
  | [], _ => 0
  | k :: ks, n => if n < pow2 k then log2Steps ks n else k + log2Steps ks (n / pow2 k)

/-- The floor of the binary logarithm, 0 of 0 (`floorLog2_eq`: it is `Nat.log2`, in steps that evaluate fast). -/
def floorLog2 (n : Nat) : Nat :=
  if n < pow2 4096 then log2Steps [2048, 1024, 512, 256, 128, 64, 32, 16, 8, 4, 2, 1] n else n.log2

/-- How many binary places RNE64 drops from n/d units: values below 2^53 units are multiples of one unit, and each
doubling above doubles the spacing. -/
def spacingExponent (n d : Nat) : Nat := floorLog2 (n * unit64 / d) - 52

/-- The 63 low bits of RNE64(n/d) as a number (00_scope R20). With spacing 2^e units the significand m lies in
2^52..2^53 (or anywhere up to 2^53 when e = 0), and the pattern is e·2^52 + m: a significand rounded up to 2^53
carries into the exponent field. -/
def roundPattern (n d : Nat) : Nat :=
  spacingExponent n d * pow2 52 + roundHalfEven (n * unit64) (d * pow2 (spacingExponent n d))

/-- The binary64 value with the given sign and 63 low bits. -/
def withSign (neg : Bool) (pattern : Nat) : B64 :=
  BitVec.ofNat 64 (if neg then pow2 63 + pattern else pattern)

/-- A free value restrained to the finite ones: v where it is finite (10_state R67; log 11). -/
def asFinite (v : B64) : B64 := if isFinite v then v else 0

/-- RNE64(±n/d), ties to the even significand; a zero takes the given sign (00_scope R20). Past the largest binary64
value, which R20 says never occurs, it is a free value, finite as 10_state R67 says (log 11). -/
def rne64 (neg : Bool) (n d : Nat) : B64 :=
  if roundPattern n d < 2047 * pow2 52 then withSign neg (roundPattern n d) else asFinite (Config.overflow64 neg n d)

/-- The binary64 value equal to a small natural number (42_region R225). -/
def b64OfNat (n : Nat) : B64 := rne64 false n 1

/-- The binary64 value with the other sign. -/
def negate (v : B64) : B64 := v ^^^ 0x8000000000000000

/-- `a ⊕ b` (00_scope R20). An exact zero sum is +0.0 unless both operands are negative zeros, as IEEE 754 has it. -/
def add64 (a b : B64) : B64 :=
  if isFinite a && isFinite b then
    if scaled a + scaled b = 0 then
      withSign (signBit a && signBit b) 0
    else
      rne64 (decide (scaled a + scaled b < 0)) (scaled a + scaled b).natAbs unit64
  else Config.nonFiniteSum a b

/-- `a ⊗ b` (00_scope R20). The sign, of a zero too, is the exclusive or of the signs. -/
def mul64 (a b : B64) : B64 :=
  if isFinite a && isFinite b then
    rne64 (signBit a != signBit b) (mag a * mag b) (unit64 * unit64)
  else Config.nonFiniteProduct a b

/-- `v < 0` as IEEE 754 compares: false of −0.0 and of a NaN (41_quantizer R198). -/
def ltZero (v : B64) : Bool := signBit v && mag v != 0 && !isNaN v

/-- `v > 255` as IEEE 754 compares (41_quantizer R198). -/
def gt255 (v : B64) : Bool := !signBit v && decide (255 * unit64 < mag v) && !isNaN v

/-- CLAMP (41_quantizer R198): −0.0 stays −0.0. -/
def clamp (v : B64) : B64 :=
  if ltZero v then 0x0000000000000000 else if gt255 v then 0x406FE00000000000 else v

/-- PIX (42_region R224): the clamped real, rounded by PIX_ROUND. -/
def pix (r : PixRound) (v : B64) : Byte :=
  if isNaN v then Config.nanPixel v
  else match r with
    | .rhe => BitVec.ofNat 8 (roundHalfEven (mag (clamp v)) unit64)
    | .trunc => BitVec.ofNat 8 (mag (clamp v) / unit64)

end Sys2Proof.Machine
end

