-- ==== Sys2Proof/Machine/Exact.lean ====
section
/-! DEFINITION. Exact arithmetic with the entries of the transform matrices (40_transform R171–R173). Every entry is
a quarter of ±2·cos(k·pi/16), and these numbers lie in the ring of integers extended by √2, then by √(2 + √2), then
by √(2 + √(2 + √2)). A number of the ring is held by its integer coordinates, and its sign is decided exactly. -/

namespace Sys2Proof.Machine

/-! ## The ring -/

/-- `a + b·√2`. -/
structure Deg2 where
  a : Int
  b : Int
  deriving DecidableEq, Repr

/-- `a + b·√(2 + √2)`. -/
structure Deg4 where
  a : Deg2
  b : Deg2
  deriving DecidableEq, Repr

/-- `a + b·√(2 + √(2 + √2))`. -/
structure Deg8 where
  a : Deg4
  b : Deg4
  deriving DecidableEq, Repr

/-! ## Sums and products -/

/-- The sum. -/
def Deg2.add (x y : Deg2) : Deg2 := ⟨x.a + y.a, x.b + y.b⟩

/-- The difference. -/
def Deg2.sub (x y : Deg2) : Deg2 := ⟨x.a - y.a, x.b - y.b⟩

/-- The product. -/
def Deg2.mul (x y : Deg2) : Deg2 := ⟨x.a * y.a + 2 * (x.b * y.b), x.a * y.b + x.b * y.a⟩

/-- The sum. -/
def Deg4.add (x y : Deg4) : Deg4 := ⟨x.a.add y.a, x.b.add y.b⟩

/-- The difference. -/
def Deg4.sub (x y : Deg4) : Deg4 := ⟨x.a.sub y.a, x.b.sub y.b⟩

/-- The product. -/
def Deg4.mul (x y : Deg4) : Deg4 :=
  ⟨(x.a.mul y.a).add (Deg2.mul ⟨2, 1⟩ (x.b.mul y.b)), (x.a.mul y.b).add (x.b.mul y.a)⟩

/-- The sum. -/
def Deg8.add (x y : Deg8) : Deg8 := ⟨x.a.add y.a, x.b.add y.b⟩

/-- The difference. -/
def Deg8.sub (x y : Deg8) : Deg8 := ⟨x.a.sub y.a, x.b.sub y.b⟩

/-- The product. -/
def Deg8.mul (x y : Deg8) : Deg8 :=
  ⟨(x.a.mul y.a).add (Deg4.mul ⟨⟨2, 0⟩, ⟨1, 0⟩⟩ (x.b.mul y.b)), (x.a.mul y.b).add (x.b.mul y.a)⟩

/-- An integer. -/
def Deg8.ofInt (n : Int) : Deg8 := ⟨⟨⟨n, 0⟩, ⟨0, 0⟩⟩, ⟨⟨0, 0⟩, ⟨0, 0⟩⟩⟩

/-- The sum of eight numbers, from index 0 upward. -/
def Deg8.sum8 (f : Fin 8 → Deg8) : Deg8 :=
  ((((((((f 0).add (f 1)).add (f 2)).add (f 3)).add (f 4)).add (f 5)).add (f 6)).add (f 7))

/-! ## Signs -/

/-- The sign of `a + b·√d`, from the signs of a, of b and of `a² − d·b²`. -/
def signOf (sa sb sd : Int) : Int :=
  if sa = 0 then sb else if sb = 0 then sa else if sa = sb then sa else sa * sd

/-- The sign: −1, 0 or 1. -/
def Deg2.sgn (x : Deg2) : Int := signOf x.a.sign x.b.sign (x.a * x.a - 2 * (x.b * x.b)).sign

/-- The sign: −1, 0 or 1. -/
def Deg4.sgn (x : Deg4) : Int :=
  signOf x.a.sgn x.b.sgn ((x.a.mul x.a).sub (Deg2.mul ⟨2, 1⟩ (x.b.mul x.b))).sgn

/-- The sign: −1, 0 or 1. -/
def Deg8.sgn (x : Deg8) : Int :=
  signOf x.a.sgn x.b.sgn ((x.a.mul x.a).sub (Deg4.mul ⟨⟨2, 0⟩, ⟨1, 0⟩⟩ (x.b.mul x.b))).sgn

/-- `x <= y`, decided exactly. -/
def Deg8.le (x y : Deg8) : Bool := decide (0 ≤ (y.sub x).sgn)

/-! ## Cosines -/

/-- `2·cos(k·pi/16)` for k = 0..7. -/
def cos2 : Vector Deg8 8 := #v[
  ⟨⟨⟨2, 0⟩, ⟨0, 0⟩⟩, ⟨⟨0, 0⟩, ⟨0, 0⟩⟩⟩,
  ⟨⟨⟨0, 0⟩, ⟨0, 0⟩⟩, ⟨⟨1, 0⟩, ⟨0, 0⟩⟩⟩,
  ⟨⟨⟨0, 0⟩, ⟨1, 0⟩⟩, ⟨⟨0, 0⟩, ⟨0, 0⟩⟩⟩,
  ⟨⟨⟨0, 0⟩, ⟨0, 0⟩⟩, ⟨⟨-1, 0⟩, ⟨1, 0⟩⟩⟩,
  ⟨⟨⟨0, 1⟩, ⟨0, 0⟩⟩, ⟨⟨0, 0⟩, ⟨0, 0⟩⟩⟩,
  ⟨⟨⟨0, 0⟩, ⟨0, 0⟩⟩, ⟨⟨1, 1⟩, ⟨-1, 0⟩⟩⟩,
  ⟨⟨⟨0, 0⟩, ⟨-1, 1⟩⟩, ⟨⟨0, 0⟩, ⟨0, 0⟩⟩⟩,
  ⟨⟨⟨0, 0⟩, ⟨0, 0⟩⟩, ⟨⟨-1, -1⟩, ⟨0, 1⟩⟩⟩]

end Sys2Proof.Machine
end

