-- ==== Sys2Proof/Machine/Transform.lean ====
section
/-! DEFINITION. The block transform (40_transform) and the commands FDCT and IDCT. -/

namespace Sys2Proof.Machine

/-! ## The matrices -/

/-- The signed index of the entry [k][n] of the matrix that XFORM_KIND selects (40_transform R172, R177). -/
def matIndex : XformKind → Fin 8 → Fin 8 → Int
  | .dct2, k, n => elem dctIndex k n
  | .wht, k, n => elem whtIndex k n

/-- `M64[k][n]` (40_transform R177): negative entries are exact negations. -/
def m64 (kind : XformKind) (k n : Fin 8) : B64 :=
  if matIndex kind k n < 0 then
    negate (coeff64[(matIndex kind k n).natAbs % 8]'(Nat.mod_lt _ (by decide)))
  else coeff64[(matIndex kind k n).natAbs % 8]'(Nat.mod_lt _ (by decide))

/-- `4·M[k][n]` of the exact matrix (40_transform R171, R172): `±2·cos(m·pi/16)`, as `cos(pi/4)/2 = sqrt(1/8)` (R177). -/
def mExact (kind : XformKind) (k n : Fin 8) : Deg8 :=
  Deg8.mul (Deg8.ofInt (if matIndex kind k n < 0 then -1 else 1))
    (cos2[(matIndex kind k n).natAbs % 8]'(Nat.mod_lt _ (by decide)))

/-! ## REF64 -/

/-- The binary64 dot product of 40_transform R174: it starts from its first product, runs from index 0 upward, and
rounds every product and every partial sum. -/
def dot8 (x y : Fin 8 → B64) : B64 :=
  add64 (add64 (add64 (add64 (add64 (add64 (add64 (mul64 (x 0) (y 0)) (mul64 (x 1) (y 1))) (mul64 (x 2) (y 2)))
    (mul64 (x 3) (y 3))) (mul64 (x 4) (y 4))) (mul64 (x 5) (y 5))) (mul64 (x 6) (y 6))) (mul64 (x 7) (y 7))

/-- Stage 1 of FWD: along each row (40_transform R174). -/
def fwdRows (kind : XformKind) (x : Block B64) : Block B64 :=
  mkBlock fun i v => dot8 (fun j => elem x i j) (fun j => m64 kind v j)

/-- Stage 2 of FWD: along each column (40_transform R174). -/
def fwdCols (kind : XformKind) (u : Block B64) : Block B64 :=
  mkBlock fun k v => dot8 (fun i => m64 kind k i) (fun i => elem u i v)

/-- FWD under REF64 (40_transform R174). -/
def fwdRef64 (kind : XformKind) (x : Block B64) : Block B64 := fwdCols kind (fwdRows kind x)

/-- Stage 1 of INV: along each row (40_transform R175). -/
def invRows (kind : XformKind) (f : Block B64) : Block B64 :=
  mkBlock fun u j => dot8 (fun v => elem f u v) (fun v => m64 kind v j)

/-- Stage 2 of INV: along each column (40_transform R175). -/
def invCols (kind : XformKind) (w : Block B64) : Block B64 :=
  mkBlock fun i j => dot8 (fun u => m64 kind u i) (fun u => elem w u j)

/-- INV under REF64 (40_transform R175). -/
def invRef64 (kind : XformKind) (f : Block B64) : Block B64 := invCols kind (invRows kind f)

/-! ## BOUNDED(EPS) -/

/-- `16·T(real(X))[u][v]` in units of 2^-1074, exactly (40_transform R173). -/
def fwdExact (kind : XformKind) (x : Block B64) (u v : Fin 8) : Deg8 :=
  Deg8.sum8 fun i => Deg8.sum8 fun j =>
    ((mExact kind u i).mul (mExact kind v j)).mul (Deg8.ofInt (scaled (elem x i j)))

/-- `16·Ti(real(F))[i][j]` in units of 2^-1074, exactly (40_transform R173). -/
def invExact (kind : XformKind) (f : Block B64) (i j : Fin 8) : Deg8 :=
  Deg8.sum8 fun u => Deg8.sum8 fun v =>
    ((mExact kind u i).mul (mExact kind v j)).mul (Deg8.ofInt (scaled (elem f u v)))

/-- `S`, the sum of the magnitudes of a block, in units of 2^-1074 (40_transform R176). -/
def absSum (x : Block B64) : Int := sum8 fun i => sum8 fun j => (mag (elem x i j) : Int)

/-- `16·EPS·(1 + S)` in units of 2^-1074, times the denominator of EPS (40_transform R176). -/
def boundWidth (eps : Rat) (s : Int) : Deg8 := Deg8.ofInt (16 * eps.num * (unit64 + s))

/-- A number of units of 2^-1074 in the scale of `boundWidth`. -/
def boundScale (eps : Rat) (n : Int) : Deg8 := Deg8.ofInt (16 * n * eps.den)

/-- `16·t` in the scale of `boundWidth`, from `16·t` in units of 2^-1074. -/
def boundCentre (eps : Rat) (t : Deg8) : Deg8 := Deg8.mul (Deg8.ofInt eps.den) t

/-- The finite value c satisfies `|real(c) - t| <= EPS·(1 + S)`, decided exactly (40_transform R176). -/
def withinBound (eps : Rat) (s : Int) (t : Deg8) (c : B64) : Bool :=
  isFinite c &&
    (boundScale eps (scaled c)).le ((boundCentre eps t).add (boundWidth eps s)) &&
    ((boundCentre eps t).sub (boundWidth eps s)).le (boundScale eps (scaled c))

/-- The greatest number below `acc + 2^n`, from `acc` on, that satisfies a predicate which holds of `acc` and of every
number below one it holds of. -/
def greatest (p : Nat → Bool) : Nat → Nat → Nat
  | 0, acc => acc
  | n + 1, acc => if p (acc + pow2 n) then greatest p n (acc + pow2 n) else greatest p n acc

/-- The finite value with the sign of t whose magnitude is the greatest not above `|t| + EPS·(1 + S)`: it satisfies the
bound of 40_transform R176 if any binary64 value does. -/
def admittedValue (eps : Rat) (s : Int) (t : Deg8) : B64 :=
  withSign (decide (t.sgn < 0)) (greatest (fun pattern =>
    decide (pattern < 2047 * pow2 52) &&
      (boundScale eps (mag (withSign false pattern))).le
        ((boundCentre eps (Deg8.mul (Deg8.ofInt (if t.sgn < 0 then -1 else 1)) t)).add (boundWidth eps s))) 63 0)

/-- The draw `c` made to satisfy the bound of 40_transform R176: the draw where R176 admits it, else a value that R176
admits, if there is one (log 10). -/
def constrained (eps : Rat) (s : Int) (t : Deg8) (c : B64) : Option B64 :=
  if withinBound eps s t c then some c
  else if withinBound eps s t (admittedValue eps s t) then some (admittedValue eps s t)
  else none

/-- `2^-20`, the largest EPS for which 41_quantizer R203 keeps coded pixels in int32. -/
def pixelEps : Rat := 1 / 1048576

/-- One output element under BOUNDED(EPS) with the draw `c`: the draw where R176 admits it, also in the transform of an
all-(+0.0) block, where the corner case of R178 says +0.0 without naming BOUNDED (log 23). Where R176 admits no value, the
draw is held to the bound for `pixelEps`, which 41_quantizer R203 rests on for every smaller EPS; and where that admits
none either, it is a finite draw, as 10_state R67 says (log 10). That R183 puts every RB value below 2^56, naming no
XFORM_IMPL, is not enforced: under BOUNDED(EPS) the model follows R176, which admits larger ones (log 24). -/
def boundedElem (eps : Rat) (s : Int) (t : Deg8) (c : B64) : B64 :=
  ((constrained eps s t c).or (constrained pixelEps s t c)).getD (asFinite c)

/-- A block of draws under the bound (40_transform R176). A block that holds an infinity or a NaN has no real value,
and then nothing bounds the draws (log 11). `draws` makes them fresh in every command, as 46_control R296 and
43_macroblock R256 have them. So C2Q, and CODE_MB and CODE_PIC where EPS is above 2^-20, may raise COEF_OVERFLOW and then
complete on unchanged inputs, though 60_exceptions R312 says without naming XFORM_IMPL that a failed command reissued gets
the same error: the model's choice (log 25). -/
def boundedBlock (eps : Rat) (draws site : Nat) (x : Block B64) (exact : Fin 8 → Fin 8 → Deg8) : Block B64 :=
  mkBlock fun i j =>
    if allBlock isFinite x then
      boundedElem eps (absSum x) (exact i j) (Config.drawXform draws site (8 * i.val + j.val))
    else Config.drawXform draws site (8 * i.val + j.val)

/-! ## FWD and INV -/

/-- FWD (40_transform R174, R176). `draws` and `site` index the draws of BOUNDED. -/
def fwd (c : Params) (draws site : Nat) (x : Block B64) : Block B64 :=
  match c.impl with
  | .ref64 => fwdRef64 c.kind x
  | .bounded eps => boundedBlock eps draws site x (fwdExact c.kind x)

/-- INV (40_transform R175, R176). -/
def inv (c : Params) (draws site : Nat) (f : Block B64) : Block B64 :=
  match c.impl with
  | .ref64 => invRef64 c.kind f
  | .bounded eps => boundedBlock eps draws site f (invExact c.kind f)

/-! ## Commands -/

/-- FDCT (40_transform R178): `RB[RD] <- FWD(RB[RS])`. -/
def execFdct (rd rs : Fin 4) (s : State) : Host.Outcome State Fault Refusal :=
  .next (((s.noteRead "FDCT" s.rb[rs]).writeRb rd (fwd s.cfg s.draws 0 (s.readRb rs))).completeOk)

/-- IDCT (40_transform R179): `RB[RD] <- INV(RB[RS])`, without a clamp. -/
def execIdct (rd rs : Fin 4) (s : State) : Host.Outcome State Fault Refusal :=
  .next (((s.noteRead "IDCT" s.rb[rs]).writeRb rd (inv s.cfg s.draws 0 (s.readRb rs))).completeOk)

end Sys2Proof.Machine
end

