-- ==== Sys2Proof/Machine/Quantizer.lean ====
section
/-! DEFINITION. The quantizer (41_quantizer) and the commands QUANT, DEQ, C2Q and Q2C. -/

namespace Sys2Proof.Machine

/-! ## Arithmetic -/

/-- `sext_32(CSR.P)` (10_state R55). -/
def State.pInt (s : State) : Int := s.p.toInt

/-- p is legal: `sext_32(CSR.P) > 0` (10_state R55; 60_exceptions R305). -/
def State.paramOk (s : State) : Bool := decide (0 < s.pInt)

/-- QUANT1 (41_quantizer R191): `RHE((16·real(c)·2^16)/(t·P))`, the quotient exact and rounded once. -/
def quant1 (c : B64) (t p : Nat) : Int :=
  if isFinite c then roundHalfEvenSigned (signBit c) (16 * mag c * pow2 16) (t * p * unit64)
  else Config.nonFiniteQuant c t p

/-- DEQ1 (41_quantizer R193): `RNE64((q·t·P)/2^20)`; a zero is +0.0. -/
def deq1 (q : Int) (t p : Nat) : B64 := rne64 (decide (q < 0)) (q.natAbs * t * p) (pow2 20)

/-- QUANTIZE (41_quantizer R191), as unbounded integers. -/
def quantize (c : Params) (p : Nat) (x : Block B64) : Block Int :=
  mkBlock fun i j => quant1 (elem x i j) (elem c.qtable i j).toNat p

/-- DEQUANTIZE (41_quantizer R193). -/
def dequantize (c : Params) (p : Nat) (q : Block Word) : Block B64 :=
  mkBlock fun i j => deq1 (elem q i j).toInt (elem c.qtable i j).toNat p

/-- The integer lies in [−2^31, 2^31 − 1] (41_quantizer R192). -/
def fitsInt32 (q : Int) : Bool := decide (-2147483648 ≤ q) && decide (q ≤ 2147483647)

/-- Every element is an int32 (60_exceptions R308). -/
def blockFits (q : Block Int) : Bool := allBlock fitsInt32 q

/-- The 32-bit two's complement words of a block of integers (41_quantizer R192). -/
def toWords (q : Block Int) : Block Word := mapBlock (BitVec.ofInt 32) q

/-- `QUANTIZE(FWD(X))` (41_quantizer R201; 43_macroblock R250). -/
def c2qBlock (c : Params) (p draws site : Nat) (x : Block B64) : Block Int :=
  quantize c p (fwd c draws site x)

/-- `CLAMP(INV(DEQUANTIZE(Q)))` (41_quantizer R202; 43_macroblock R252). -/
def q2cBlock (c : Params) (p draws site : Nat) (q : Block Word) : Block B64 :=
  mapBlock clamp (inv c draws site (dequantize c p q))

/-! ## Commands -/

/-- The end of a command that quantizes into a QB register (41_quantizer R192, R199, R201): COEF_OVERFLOW without a
write, or the write. -/
def State.commitQuantized (rd : Fin 4) (q : Block Int) (s : State) : State :=
  if blockFits q then (s.writeQb rd (toWords q)).completeOk else s.completeErr .coefOverflow

/-- QUANT (41_quantizer R199). -/
def execQuant (rd rs : Fin 4) (s : State) : Host.Outcome State Fault Refusal :=
  if s.paramOk then
    .next ((s.noteRead "QUANT" s.rb[rs]).commitQuantized rd (quantize s.cfg s.pInt.toNat (s.readRb rs)))
  else .next (s.completeErr .invalidParameter)

/-- DEQ (41_quantizer R200). -/
def execDeq (rd rs : Fin 4) (s : State) : Host.Outcome State Fault Refusal :=
  if s.paramOk then
    .next (((s.noteRead "DEQ" s.qb[rs]).writeRb rd (dequantize s.cfg s.pInt.toNat (s.readQb rs))).completeOk)
  else .next (s.completeErr .invalidParameter)

/-- C2Q (41_quantizer R201). -/
def execC2q (rd rs : Fin 4) (s : State) : Host.Outcome State Fault Refusal :=
  if s.paramOk then
    .next ((s.noteRead "C2Q" s.rb[rs]).commitQuantized rd (c2qBlock s.cfg s.pInt.toNat s.draws 0 (s.readRb rs)))
  else .next (s.completeErr .invalidParameter)

/-- Q2C (41_quantizer R202): the result stays binary64. -/
def execQ2c (rd rs : Fin 4) (s : State) : Host.Outcome State Fault Refusal :=
  if s.paramOk then
    .next (((s.noteRead "Q2C" s.qb[rs]).writeRb rd (q2cBlock s.cfg s.pInt.toNat s.draws 0 (s.readQb rs))).completeOk)
  else .next (s.completeErr .invalidParameter)

end Sys2Proof.Machine
end

