-- ==== Sys2Proof/Machine/Operands.lean ====
section
/-! DEFINITION. The operands that live in the memories: tiles, coding blocks of the IN and OUT pictures, and
coefficient blocks (00_scope R28, R29; 10_state R71, R76; 42_region). -/

namespace Sys2Proof.Machine

/-! ## Geometry -/

/-- `MAX_MB` (00_scope R12). -/
def maxMb (c : Params) : Nat := (c.maxW / 16) * (c.maxH / 16)

/-- `dims_valid` (60_exceptions R304), on WIDTH and HEIGHT as unsigned integers. -/
def dimsValid (c : Params) (w h : Nat) : Bool :=
  decide (w % 16 = 0) && decide (16 ≤ w) && decide (w ≤ c.maxW) &&
    decide (h % 16 = 0) && decide (16 ≤ h) && decide (h ≤ c.maxH)

/-- WIDTH and HEIGHT pass the dimension check (60_exceptions R304). -/
def State.dimsOk (s : State) : Bool := dimsValid s.cfg s.width.toNat s.height.toNat

/-- `TPR`, tiles per row (00_scope R28). -/
def State.tpr (s : State) : Nat := s.width.toNat / 16

/-- `TILES` (00_scope R29). -/
def State.tiles (s : State) : Nat := (s.width.toNat / 16) * (s.height.toNat / 16)

/-- The column x0 of the pixel origin of tile m (00_scope R28). -/
def tileX (tpr m : Nat) : Nat := 16 * (m % tpr)

/-- The row y0 of the pixel origin of tile m (00_scope R28). -/
def tileY (tpr m : Nat) : Nat := 16 * (m / tpr)

/-- The offset (bx, by) of luma block b in its tile (42_region R221). -/
def lumaX (b : Nat) : Nat := 8 * (b % 2)

/-- The row offset of luma block b in its tile (42_region R221). -/
def lumaY (b : Nat) : Nat := 8 * (b / 2)

/-! ## Addresses -/

/-- The window offset of IN sample (c, x, y) (10_state R71). -/
def inAddr (cfg : Params) (c x y : Nat) : Nat := 0x100000 + c * 0x100000 + y * cfg.maxW + x

/-- The window offset of OUT sample (c, x, y) (10_state R71). -/
def outAddr (cfg : Params) (c x y : Nat) : Nat := 0x400000 + c * 0x100000 + y * cfg.maxW + x

/-- The window offset of slot m of COEF (10_state R76). -/
def slotAddr (m : Nat) : Nat := 0x800000 + 1536 * m

/-- The window offset of `Coef[m][b]` (10_state R76). -/
def coefAddr (m b : Nat) : Nat := 0x800000 + 1536 * m + 256 * b

/-! ## The IN picture -/

/-- `PixIn(c, x, y)` (00_scope R24). -/
def State.pixIn (s : State) (c x y : Nat) : Byte := s.byteAt (inAddr s.cfg c x y)

/-- The mean of a 2×2 square, rounded half up (42_region R222). -/
def mean4 (a b c d : Byte) : Nat := (a.toNat + b.toNat + c.toNat + d.toNat + 2) / 4

/-- `L(m, b)[i][j]` (42_region R221). -/
def State.lumaSample (s : State) (m b : Nat) (i j : Fin 8) : Nat :=
  (s.pixIn 0 (tileX s.tpr m + lumaX b + j.val) (tileY s.tpr m + lumaY b + i.val)).toNat

/-- `DS(m, c)[i][j]` (42_region R222). -/
def State.chromaSample (s : State) (m c : Nat) (i j : Fin 8) : Nat :=
  mean4
    (s.pixIn c (tileX s.tpr m + 2 * j.val) (tileY s.tpr m + 2 * i.val))
    (s.pixIn c (tileX s.tpr m + 2 * j.val + 1) (tileY s.tpr m + 2 * i.val))
    (s.pixIn c (tileX s.tpr m + 2 * j.val) (tileY s.tpr m + 2 * i.val + 1))
    (s.pixIn c (tileX s.tpr m + 2 * j.val + 1) (tileY s.tpr m + 2 * i.val + 1))

/-- `BLOCK_IN(m, b)` (42_region R226): samples enter as the binary64 values equal to them (R225). -/
def State.blockIn (s : State) (m b : Nat) : Block B64 :=
  mkBlock fun i j =>
    b64OfNat (if b ≤ 3 then s.lumaSample m b i j else s.chromaSample m (b - 3) i j)

/-! ## The OUT picture -/

/-- Row i of a block as pixels (42_region R224). -/
def pixelRow (r : PixRound) (x : Block B64) (i : Fin 8) : List Byte :=
  (List.finRange 8).map fun j => pix r (elem x i j)

/-- Each element twice, in order: a row of a 2×2 replication (42_region R223). -/
def doubled (bs : List Byte) : List Byte := bs.flatMap fun b => [b, b]

/-- The runs of bytes that `BLOCK_OUT(m, b, X)` writes for a luma block: eight rows of eight samples of plane 0
(42_region R226). -/
def lumaRuns (s : State) (m b : Nat) (x : Block B64) : List (Nat × List Byte) :=
  (List.finRange 8).map fun i =>
    (outAddr s.cfg 0 (tileX s.tpr m + lumaX b) (tileY s.tpr m + lumaY b + i.val), pixelRow s.cfg.pixRound x i)

/-- The runs that `US(m, c, V)` writes: each row of V twice, each sample twice (42_region R223). -/
def chromaRuns (s : State) (m c : Nat) (x : Block B64) : List (Nat × List Byte) :=
  (List.finRange 8).flatMap fun i =>
    [(outAddr s.cfg c (tileX s.tpr m) (tileY s.tpr m + 2 * i.val), doubled (pixelRow s.cfg.pixRound x i)),
     (outAddr s.cfg c (tileX s.tpr m) (tileY s.tpr m + 2 * i.val + 1), doubled (pixelRow s.cfg.pixRound x i))]

/-- The runs that `BLOCK_OUT(m, b, X)` writes (42_region R226). -/
def blockOutRuns (s : State) (m b : Nat) (x : Block B64) : List (Nat × List Byte) :=
  if b ≤ 3 then lumaRuns s m b x else chromaRuns s m (b - 3) x

/-! ## Coefficient blocks -/

/-- `Coef[m][b]` (10_state R76). -/
def State.coef (s : State) (m b : Nat) : Block Word :=
  mkBlock fun i j => s.wordAt (coefAddr m b + 4 * (8 * i.val + j.val))

/-- The 256 bytes of a coefficient block, little-endian (10_state R76; 20_memory R103). -/
def blockBytes (q : Block Word) : List Byte := q.toList.flatMap fun w => leBytes 4 w.toNat

/-- `Coef[m][b] <- q` (00_scope R24). -/
def State.writeCoef (m b : Nat) (q : Block Word) (s : State) : State :=
  s.withMem (s.mem.write (coefAddr m b) (blockBytes q))

end Sys2Proof.Machine
end

