-- ==== Sys2Proof/Machine/Region.lean ====
section
/-! DEFINITION. The block moves LDBLK, STBLK, LDQ and STQ (42_region R227–R230). -/

namespace Sys2Proof.Machine

/-- The checks of a command that moves a coding block of a picture (42_region R227, R228; 46_control R288). -/
def State.tileError (s : State) (bsel : BitVec 3) (mbi : BitVec 16) : Option CmdError :=
  if !blockSelectorOk bsel then some .illegalCommand
  else if !s.dimsOk then some .invalidDimensions
  else if s.tiles ≤ mbi.toNat then some .indexRange
  else none

/-- The checks of a command that moves a coefficient block (42_region R229, R230; 60_exceptions R307). -/
def State.slotError (s : State) (bsel : BitVec 3) (mbi : BitVec 16) : Option CmdError :=
  if !blockSelectorOk bsel then some .illegalCommand
  else if maxMb s.cfg ≤ mbi.toNat then some .indexRange
  else none

/-- LDBLK (42_region R227). -/
def execLdblk (rd : Fin 4) (bsel : BitVec 3) (mbi : BitVec 16) (s : State) : Host.Outcome State Fault Refusal :=
  match s.tileError bsel mbi with
  | some e => .next (s.completeErr e)
  | none => .next ((s.writeRb rd (s.blockIn mbi.toNat bsel.toNat)).completeOk)

/-- STBLK (42_region R228). -/
def execStblk (rs : Fin 4) (bsel : BitVec 3) (mbi : BitVec 16) (s : State) : Host.Outcome State Fault Refusal :=
  match s.tileError bsel mbi with
  | some e => .next (s.completeErr e)
  | none =>
    .next (((s.noteRead "STBLK" s.rb[rs]).withMem
      (s.mem.writeRuns (blockOutRuns s mbi.toNat bsel.toNat (s.readRb rs)))).completeOk)

/-- LDQ (42_region R229). -/
def execLdq (rd : Fin 4) (bsel : BitVec 3) (mbi : BitVec 16) (s : State) : Host.Outcome State Fault Refusal :=
  match s.slotError bsel mbi with
  | some e => .next (s.completeErr e)
  | none => .next ((s.writeQb rd (s.coef mbi.toNat bsel.toNat)).completeOk)

/-- STQ (42_region R230). -/
def execStq (rs : Fin 4) (bsel : BitVec 3) (mbi : BitVec 16) (s : State) : Host.Outcome State Fault Refusal :=
  match s.slotError bsel mbi with
  | some e => .next (s.completeErr e)
  | none =>
    .next (((s.noteRead "STQ" s.qb[rs]).writeCoef mbi.toNat bsel.toNat (s.readQb rs)).completeOk)

end Sys2Proof.Machine
end

