-- ==== Sys2Proof/Machine/Macroblock.lean ====
section
/-! DEFINITION. The macroblock coder CODE_MB and the macroblock step of the reconstructor RECON_MB
(43_macroblock). -/

namespace Sys2Proof.Machine

/-- The checks shared by the macroblock and picture commands, in the order of 46_control R288. -/
def State.pictureError (s : State) : Option CmdError :=
  if !s.dimsOk then some .invalidDimensions
  else if !s.paramOk then some .invalidParameter
  else none

/-- The checks of CODE_MB and RECON_MB before any computation (43_macroblock R251, R253). -/
def State.macroblockError (s : State) (mbi : BitVec 16) : Option CmdError :=
  match s.pictureError with
  | some e => some e
  | none => if s.tiles ≤ mbi.toNat then some .indexRange else none

/-- `Q_b` of 43_macroblock R250. The six transforms of macroblock m are the draw sites 6·m + b (log 10). -/
def State.codeBlock (s : State) (m b : Nat) : Block Int :=
  c2qBlock s.cfg s.pInt.toNat s.draws (6 * m + b) (s.blockIn m b)

/-- `code_macroblock(m)` (43_macroblock R250): the six blocks in order. -/
def State.codeMacroblock (s : State) (m : Nat) : List (Block Int) := (List.range 6).map (s.codeBlock m)

/-- The bytes of coded blocks in slot order (10_state R76). -/
def codedBytes (qs : List (Block Int)) : List Byte := qs.flatMap fun q => blockBytes (toWords q)

/-- `X_b` of 43_macroblock R252. -/
def State.reconBlock (s : State) (m b : Nat) : Block B64 :=
  q2cBlock s.cfg s.pInt.toNat s.draws (6 * m + b) (s.coef m b)

/-- The runs that `reconstruct_macroblock(m, K)` writes, with K read from slot m (43_macroblock R252). -/
def State.reconMacroblockRuns (s : State) (m : Nat) : List (Nat × List Byte) :=
  (List.range 6).flatMap fun b => blockOutRuns s m b (s.reconBlock m b)

/-- CODE_MB (43_macroblock R251). -/
def execCodeMb (mbi : BitVec 16) (s : State) : Host.Outcome State Fault Refusal :=
  match s.macroblockError mbi with
  | some e => .next (s.completeErr e)
  | none =>
    let qs := s.codeMacroblock mbi.toNat
    if qs.all blockFits then
      .next ((s.withMem (s.mem.write (slotAddr mbi.toNat) (codedBytes qs))).completeOk)
    else .next (s.completeErr .coefOverflow)

/-- RECON_MB (43_macroblock R253). -/
def execReconMb (mbi : BitVec 16) (s : State) : Host.Outcome State Fault Refusal :=
  match s.macroblockError mbi with
  | some e => .next (s.completeErr e)
  | none => .next ((s.withMem (s.mem.writeRuns (s.reconMacroblockRuns mbi.toNat))).completeOk)

end Sys2Proof.Machine
end

