-- ==== Sys2Proof/Machine/PictureCoder.lean ====
section
/-! DEFINITION. The picture coder CODE_PIC (44_picture_coder). -/

namespace Sys2Proof.Machine

/-- `code_picture()` (44_picture_coder R265): the coded blocks of every macroblock, in raster order. -/
def State.codePicture (s : State) : List (Block Int) := (List.range s.tiles).flatMap s.codeMacroblock

/-- CODE_PIC (44_picture_coder R266): slots 0..TILES−1 lie one after the other in COEF (10_state R76). -/
def execCodePic (s : State) : Host.Outcome State Fault Refusal :=
  match s.pictureError with
  | some e => .next (s.completeErr e)
  | none =>
    let qs := s.codePicture
    if qs.all blockFits then
      .next (((s.withMem (s.mem.write (slotAddr 0) (codedBytes qs))).withMbCount (BitVec.ofNat 32 s.tiles)).completeOk)
    else .next (s.completeErr .coefOverflow)

end Sys2Proof.Machine
end

