-- ==== Sys2Proof/Machine/PictureReconstructor.lean ====
section
/-! DEFINITION. The picture reconstructor RECON_PIC (45_picture_reconstructor). -/

namespace Sys2Proof.Machine

/-- The checks of RECON_PIC (45_picture_reconstructor R276, R277). -/
def State.reconPicError (s : State) : Option CmdError :=
  match s.pictureError with
  | some e => some e
  | none => if s.mbCount.toNat = s.tiles then none else some .lengthMismatch

/-- The runs that `reconstruct_picture()` writes (45_picture_reconstructor R275). -/
def State.reconPictureRuns (s : State) : List (Nat × List Byte) :=
  (List.range s.tiles).flatMap s.reconMacroblockRuns

/-- RECON_PIC (45_picture_reconstructor R277). OUT is not cleared first (R279). -/
def execReconPic (s : State) : Host.Outcome State Fault Refusal :=
  match s.reconPicError with
  | some e => .next (s.completeErr e)
  | none => .next ((s.withMem (s.mem.writeRuns s.reconPictureRuns)).completeOk)

end Sys2Proof.Machine
end

