-- ==== Sys2Proof/Machine/Dispatch.lean ====
section
/-! DEFINITION. `exec` of 46_control R295 with the completion of R289: one arm per command. -/

namespace Sys2Proof.Machine

def exec (i : Instr) (s : State) : Host.Outcome State Fault Refusal :=
  match i with
  | .nop => Sys2Proof.Machine.execNop s
  | .fdct rd rs => Sys2Proof.Machine.execFdct rd rs s
  | .idct rd rs => Sys2Proof.Machine.execIdct rd rs s
  | .quant rd rs => Sys2Proof.Machine.execQuant rd rs s
  | .deq rd rs => Sys2Proof.Machine.execDeq rd rs s
  | .c2q rd rs => Sys2Proof.Machine.execC2q rd rs s
  | .q2c rd rs => Sys2Proof.Machine.execQ2c rd rs s
  | .ldblk rd bsel mbi => Sys2Proof.Machine.execLdblk rd bsel mbi s
  | .stblk rs bsel mbi => Sys2Proof.Machine.execStblk rs bsel mbi s
  | .ldq rd bsel mbi => Sys2Proof.Machine.execLdq rd bsel mbi s
  | .stq rs bsel mbi => Sys2Proof.Machine.execStq rs bsel mbi s
  | .codeMb mbi => Sys2Proof.Machine.execCodeMb mbi s
  | .reconMb mbi => Sys2Proof.Machine.execReconMb mbi s
  | .codePic => Sys2Proof.Machine.execCodePic s
  | .reconPic => Sys2Proof.Machine.execReconPic s

end Sys2Proof.Machine
end

