-- ==== Sys2Proof/Machine/HostAccess.lean ====
section
/-! DEFINITION. Host accesses to the window (20_memory; 10_state section 2; 70_reset R351–R353). -/

namespace Sys2Proof.Machine

/-! ## The window map -/

/-- A mapped region of the window (20_memory R101). -/
inductive Region where
  | regs
  | rbwin
  | qbwin
  | inPic
  | outPic
  | coef
  deriving DecidableEq, Repr

/-- A picture region's byte is mapped when its offset in its plane is below MAX_W·MAX_H (20_memory R101). -/
def planeMapped (c : Params) (off : Nat) : Bool := decide (off % 0x100000 < c.maxW * c.maxH)

/-- The region of a window byte, or nothing where it is unmapped (20_memory R101; 10_state R43, R60). -/
def regionOf (c : Params) (a : Nat) : Option Region :=
  if a < 0x1000 then
    if a < 0x028 ∨ (0x100 ≤ a ∧ a < 0x200) then some .regs else none
  else if 0x001000 ≤ a ∧ a < 0x001800 then some .rbwin
  else if 0x002000 ≤ a ∧ a < 0x002400 then some .qbwin
  else if 0x100000 ≤ a ∧ a < 0x400000 then
    if planeMapped c (a - 0x100000) then some .inPic else none
  else if 0x400000 ≤ a ∧ a < 0x700000 then
    if planeMapped c (a - 0x400000) then some .outPic else none
  else if 0x800000 ≤ a ∧ a < 0xE00000 then
    if a - 0x800000 < 1536 * maxMb c then some .coef else none
  else none

/-- The number of bytes of an access. -/
def widthBytes : Width → Nat
  | .b1 => 1
  | .b2 => 2
  | .b4 => 4
  | .b8 => 8

/-- The widths a region allows (20_memory R106–R109). -/
def widthAllowed : Region → Width → Bool
  | .regs, n => n == .b4
  | .rbwin, n => n == .b4 || n == .b8
  | .qbwin, n => n == .b4 || n == .b8
  | .coef, n => n == .b4 || n == .b8
  | .inPic, _ => true
  | .outPic, _ => true

/-- The register offsets (10_state R43). -/
abbrev offId : Nat := 0x000
/-- VERSION's offset. -/
abbrev offVersion : Nat := 0x004
/-- CTRL's offset. -/
abbrev offCtrl : Nat := 0x008
/-- STATUS's offset. -/
abbrev offStatus : Nat := 0x00C
/-- CMD's offset. -/
abbrev offCmd : Nat := 0x010
/-- P's offset. -/
abbrev offP : Nat := 0x014
/-- WIDTH's offset. -/
abbrev offWidth : Nat := 0x018
/-- HEIGHT's offset. -/
abbrev offHeight : Nat := 0x01C
/-- MB_COUNT's offset. -/
abbrev offMbCount : Nat := 0x020
/-- MAXDIM's offset. -/
abbrev offMaxdim : Nat := 0x024
/-- The offset of QTABLE[0]. -/
abbrev offQtable : Nat := 0x100

/-- A read-only location (20_memory R110 (c)): RBWIN, ID, VERSION, MAXDIM and the QTABLE window. -/
def readOnly (r : Region) (a : Nat) : Bool :=
  r == .rbwin ||
    (r == .regs && (a == offId || a == offVersion || a == offMaxdim || decide (offQtable ≤ a)))

/-- A location whose write is performed while BUSY = 1: CTRL and STATUS only (20_memory R110 (d)). -/
def writableWhileBusy (a : Nat) : Bool := a == offCtrl || a == offStatus

/-- The region an access lies wholly inside, with an allowed width and alignment: neither (a) nor (b) of
20_memory R110 holds. -/
def accessRegion (c : Params) (a : Nat) (n : Width) : Option Region :=
  match regionOf c a with
  | none => none
  | some r =>
    if (List.range (widthBytes n)).all (fun i => regionOf c (a + i) == some r) && widthAllowed r n &&
        a % widthBytes n == 0 then some r
    else none

/-! ## Reads -/

/-- The entry k of the QTABLE window (10_state R59). -/
def qtableWord (c : Params) (k : Nat) : Word := (c.qtable[k % 64]'(Nat.mod_lt _ (by decide))).setWidth 32

/-- The MAXDIM word (10_state R53). -/
def maxdim (c : Params) : Word := BitVec.ofNat 16 c.maxH ++ BitVec.ofNat 16 c.maxW

/-- A read of the register at offset `a` (10_state R43–R59). -/
def State.readReg (s : State) (a : Nat) : Word :=
  if a = offId then 0x38515442
  else if a = offVersion then 0x00000001
  else if a = offCtrl then s.ctrl
  else if a = offStatus then s.status
  else if a = offCmd then s.cmd
  else if a = offP then s.p
  else if a = offWidth then s.width
  else if a = offHeight then s.height
  else if a = offMbCount then s.mbCount
  else if a = offMaxdim then maxdim s.cfg
  else qtableWord s.cfg ((a - offQtable) / 4)

/-- The byte of a data region at window offset `a` while BUSY = 0 (10_state R63, R65, R71, R76; 20_memory R105). -/
def State.dataByte (s : State) (r : Region) (a : Nat) : Byte :=
  match r with
  | .rbwin => byteOf (s.rbHost ((a - 0x001000) / 8)).toNat ((a - 0x001000) % 8)
  | .qbwin => byteOf (s.qbHost ((a - 0x002000) / 4)).toNat ((a - 0x002000) % 4)
  | _ => s.byteAt a

/-- The data of an n-byte read at `a` in region `r`: a register's value, a draw where the engine may be writing
(70_reset R353), or the region's bytes, lowest first (20_memory R103). -/
def State.readData (s : State) (r : Region) (a : Nat) (n : Width) : BitVec 64 :=
  if r = .regs then (s.readReg a).setWidth 64
  else if s.busy then BitVec.ofNat 64 ((Config.drawBusy s.draws).toNat % pow2 (8 * widthBytes n))
  else BitVec.ofNat 64 (leNat ((List.range (widthBytes n)).map fun i => s.dataByte r (a + i)))

/-- `MemRead(addr, n)` (20_memory R100, R110; 60_exceptions R315). A read that BUSY alone concerns is never a bus
error (R353, log 9). -/
def State.hostRead (addr : Offset) (n : Width) (s : State) : State :=
  match accessRegion s.cfg addr.toNat n with
  | none => s.raiseBusError (.busErrorData n 0)
  | some r => s.respond (.okData n (s.readData r addr.toNat n))

/-! ## Writes -/

/-- A write of `v` to the writable register at offset `a` (10_state R46, R47, R52, R54, R56–R58). -/
def State.writeReg (a : Nat) (v : Word) (s : State) : State :=
  if a = offCtrl then { s with ie := v.getLsbD 0 }
  else if a = offStatus then s.clearStatus v
  else if a = offCmd then s.issue v
  else if a = offP then { s with p := v }
  else if a = offWidth then { s with width := v }
  else if a = offHeight then { s with height := v }
  else { s with mbCount := v }

/-- An n-byte write of `v` at `a` in region `r` that R110 does not refuse: a register, one or two QB elements
(20_memory R105), or bytes, lowest first (R103). -/
def State.writeData (r : Region) (a : Nat) (n : Width) (v : BitVec 64) (s : State) : State :=
  match r with
  | .regs => s.writeReg a (v.extractLsb' 0 32)
  | .qbwin =>
    if n = .b8 then
      (s.writeQbElem ((a - 0x002000) / 4) (v.extractLsb' 0 32)).writeQbElem ((a - 0x002000) / 4 + 1)
        (v.extractLsb' 32 32)
    else s.writeQbElem ((a - 0x002000) / 4) (v.extractLsb' 0 32)
  | _ => s.withMem (s.mem.write a (leBytes (widthBytes n) v.toNat))

/-- The region a write is performed in: nothing when one of (a)–(d) of 20_memory R110 refuses it. -/
def State.writeRegion (s : State) (a : Nat) (n : Width) : Option Region :=
  match accessRegion s.cfg a n with
  | none => none
  | some r =>
    if readOnly r a then none
    else if s.busy && !(r == .regs && writableWhileBusy a) then none
    else some r

/-- `MemWrite(addr, n, v)` (20_memory R100, R110; 60_exceptions R315). -/
def State.hostWrite (addr : Offset) (n : Width) (v : BitVec 64) (s : State) : State :=
  match s.writeRegion addr.toNat n with
  | none => s.raiseBusError .busError
  | some r => (s.writeData r addr.toNat n v).respond .ok

end Sys2Proof.Machine
end

