-- ==== Sys2Proof/Machine/Engine.lean ====
section
/-! DEFINITION. What each agent does when it moves: the engine step of 46_control R286, the host's accesses, and
reset; and how a command is placed for the next step. -/

namespace Sys2Proof.Machine

/-- `engine_step()` while the phase is BUSY (46_control R286, R295): decode LC and execute it whole; an Illegal word
completes with ILLEGAL_COMMAND (60_exceptions R302). -/
def engineStep (s : State) : Host.Outcome State Fault Refusal :=
  match decode s.lc with
  | .ok i => exec i s
  | .error _ => .next (s.completeErr .illegalCommand)

/-- The engine's turn: an engine step when one is owed, else nothing (46_control R286; 70_reset R343). -/
def engineTurn (s : State) : Host.Outcome State Fault Refusal :=
  if s.busy then engineStep s else .next s

/-- Reset: its move exists only while BUSY = 0 (60_exceptions R329; 70_reset R340). -/
def resetMove (s : State) : Host.Outcome State Fault Refusal :=
  if s.busy then .fault .resetWhileBusy else .next s.applyReset

/-- One move of the outside world in state `s`. -/
def performMove (m : Move) (s : State) : Host.Outcome State Fault Refusal :=
  match m with
  | .read addr n => .next (s.hostRead addr n)
  | .write addr n v => .next (s.hostWrite addr n v)
  | .engine => engineTurn s
  | .reset => resetMove s

/-- The next move, or, when the outside world makes no more, the engine step still owed (20_memory R131;
70_reset R360). -/
def nextMove (s : State) : Host.Outcome State Fault Refusal :=
  match s.moves with
  | [] => engineTurn s
  | m :: ms => performMove m (s.withMoves ms)

/-- The state in which command word `w` has been accepted and the engine moves next. -/
def placeCommand (w : Word) (s : State) : State := (s.issue w).withMoves (.engine :: s.moves)

end Sys2Proof.Machine
end

