-- ==== Sys2Proof/Machine/Step.lean ====
section
/-! DEFINITION. One step of BTQ8: a host access, an engine step or reset, as the state's next move says. -/

namespace Sys2Proof.Machine

/-- One step (00_scope R8, R31): each host access and each engine step is a step of its own. -/
def step (s : State) : Host.Outcome State Fault Refusal := nextMove s

/-- `s` with a command whose table bits are `w` accepted and the engine's turn next, so that the very next step runs
it (46_control R285, R286; log 2). -/
def State.withFetchWord (s : State) (nbits w : Nat) : State := placeCommand (tableWord nbits w) s

end Sys2Proof.Machine
end

