-- ==== Sys2Proof/Machine/HostProgram.lean ====
section
/-! DEFINITION. The notation of 30_encoding R155–R157 and 46_control R299: an assembler for one command line, and
host pseudo-instructions as lists of moves. It is notation, not hardware: the engine sees only the accesses (R156). -/

namespace Sys2Proof.Machine

/-- An operand of a command line: `rbN`, `qbN`, or a number (30_encoding R155; the names `tl` … `cr` stand for the
numbers 0..5). -/
inductive AsmOperand where
  | rb (n : Nat)
  | qb (n : Nat)
  | num (n : Nat)
  deriving DecidableEq, Repr

/-- A register index, or nothing when N is not in 0..3 (30_encoding R155). -/
def asmReg (n : Nat) : Option (Fin 4) := if h : n < 4 then some ⟨n, h⟩ else none

/-- BSEL, refused outside 0..5 (30_encoding R155). -/
def asmBsel (n : Nat) : Option (BitVec 3) := if n < 6 then some (BitVec.ofNat 3 n) else none

/-- MBI, refused outside 0..65535 (30_encoding R155). -/
def asmMbi (n : Nat) : Option (BitVec 16) := if n < 65536 then some (BitVec.ofNat 16 n) else none

/-- The command of a line of 30_encoding R155, mnemonic in lower case; a register of the wrong file, a BSEL or an MBI
out of range, or any other line is refused. -/
def assemble (mnemonic : String) (ops : List AsmOperand) : Option Instr :=
  match ops with
  | [] =>
    if mnemonic = "nop" then some .nop
    else if mnemonic = "code_pic" then some .codePic
    else if mnemonic = "recon_pic" then some .reconPic
    else none
  | [.num m] => do
    let m ← asmMbi m
    if mnemonic = "code_mb" then some (.codeMb m)
    else if mnemonic = "recon_mb" then some (.reconMb m)
    else none
  | [.rb d, .rb r] => do
    let d ← asmReg d
    let r ← asmReg r
    if mnemonic = "fdct" then some (.fdct d r)
    else if mnemonic = "idct" then some (.idct d r)
    else none
  | [.qb d, .rb r] => do
    let d ← asmReg d
    let r ← asmReg r
    if mnemonic = "quant" then some (.quant d r)
    else if mnemonic = "c2q" then some (.c2q d r)
    else none
  | [.rb d, .qb r] => do
    let d ← asmReg d
    let r ← asmReg r
    if mnemonic = "deq" then some (.deq d r)
    else if mnemonic = "q2c" then some (.q2c d r)
    else none
  | [.rb r, .num m, .num b] => do
    let r ← asmReg r
    let m ← asmMbi m
    let b ← asmBsel b
    if mnemonic = "ldblk" then some (.ldblk r b m)
    else if mnemonic = "stblk" then some (.stblk r b m)
    else none
  | [.qb r, .num m, .num b] => do
    let r ← asmReg r
    let m ← asmMbi m
    let b ← asmBsel b
    if mnemonic = "ldq" then some (.ldq r b m)
    else if mnemonic = "stq" then some (.stq r b m)
    else none
  | _ => none

/-- `wr32 OFF, V` at a register offset (30_encoding R156). -/
def wrReg (off : Nat) (v : Word) : Move := .write (BitVec.ofNat 24 off) .b4 (v.setWidth 64)

/-- `rd32 OFF` at a register offset (30_encoding R156). -/
def rdReg (off : Nat) : Move := .read (BitVec.ofNat 24 off) .b4

/-- A command line: `wr32 CMD, <its encoding>` (30_encoding R157). -/
def commandMove (i : Instr) : Move := wrReg offCmd (encode i)

/-- `run <command>` (30_encoding R157): the command and the wait for BUSY = 0. Of the polls the model keeps the last,
which reads STATUS after the engine's turn. -/
def runMoves (i : Instr) : List Move := [commandMove i, .engine, rdReg offStatus]

/-- `ack` (30_encoding R157). -/
def ackMove : Move := wrReg offStatus 0x0000000E

/-- `setp X` with X·65536 = `raw` (30_encoding R157); X outside (0, 32768) is refused. -/
def setpMove (raw : Int) : Option Move :=
  if 0 < raw ∧ raw < 2 ^ 31 then some (wrReg offP (BitVec.ofInt 32 raw)) else none

/-- `setdim W, H` (30_encoding R157). -/
def setdimMoves (w h : Word) : List Move := [wrReg offWidth w, wrReg offHeight h]

/-- `fill PLANE, X, Y, W, H, V` (30_encoding R157): rows outer, columns inner. -/
def fillMoves (c : Params) (plane x y w h : Nat) (v : Byte) : List Move :=
  (List.range h).flatMap fun dy => (List.range w).map fun dx =>
    .write (BitVec.ofNat 24 (plane + (y + dy) * c.maxW + (x + dx))) .b1 (v.setWidth 64)

/-- `code_blk qbD, rbT, MBI, BSEL` (30_encoding R157). -/
def codeBlkMoves (d t : Fin 4) (mbi : BitVec 16) (bsel : BitVec 3) : List Move :=
  runMoves (.ldblk t bsel mbi) ++ runMoves (.c2q d t) ++ runMoves (.stq d bsel mbi)

/-- `recon_blk rbD, qbT, MBI, BSEL` (30_encoding R157). -/
def reconBlkMoves (d t : Fin 4) (mbi : BitVec 16) (bsel : BitVec 3) : List Move :=
  runMoves (.ldq t bsel mbi) ++ runMoves (.q2c d t) ++ runMoves (.stblk d bsel mbi)

/-- The host's issue protocol (46_control R299), with one poll before and one after the engine's turn. -/
def issueMoves (w : Word) : List Move :=
  [rdReg offStatus, wrReg offStatus 0x6, wrReg offCmd w, .engine, rdReg offStatus]

end Sys2Proof.Machine
end

