-- ==== Sys2Proof/Safety.lean ====
section
/-! DEFINITION. What counts as a good state and a safe run, and the spec-level terms the statements use: the invariant,
the table of checks, real values and roundings said by what they are, and bytes of the window. -/

namespace Sys2Proof

open Machine

/-! ## The invariant -/

/-- Every listed byte lies in IN, OUT or COEF as the parameters map them (20_memory R101). -/
def memoryMapped (c : Params) (m : Memory) : Prop :=
  ∀ x ∈ m, regionOf c x.1 = some .inPic ∨ regionOf c x.1 = some .outPic ∨ regionOf c x.1 = some .coef

/-- Every RB element that a write has set is finite (10_state R67). -/
def rbFinite (s : State) : Prop :=
  ∀ (r : Fin 4) (i j : Fin 8), elem s.rb[r].written i j = true → isFinite (elem s.rb[r].vals i j) = true

/-- The invariant of the machine: the parameters obey their constraints (00_scope R11); while no command has read an
element that was never written, RB holds finite values once written (10_state R67); memory has its canonical form and lists mapped bytes only (20_memory R101); ERRCODE is 0 exactly
when ERR = 0, and is never one of 7–15 (10_state R50; 60_exceptions R301); and while BUSY = 1, CMD holds the running
command (10_state R52, R80). -/
structure Invariant (s : State) : Prop where
  params      : s.cfg.Valid
  finiteRb    : s.uninit = none → rbFinite s
  canonical   : s.mem.wf = true
  mapped      : memoryMapped s.cfg s.mem
  errRecord   : s.err = false ↔ s.errCode = 0#4
  errCodeLow  : s.errCode.toNat ≤ 6
  commandKept : s.phase = .busy → s.lc = s.cmd

/-- The moves of the host's bus accesses (00_scope R30). -/
def isAccess : Move → Bool
  | .read _ _ => true
  | .write _ _ _ => true
  | .engine => false
  | .reset => false

/-! ## Completion -/

/-- The completion of a command that raised no error (46_control R289), and the model's draw count advanced (log 4). -/
def succeed (s : State) : State :=
  { s with phase := .idle, done := true, draws := s.draws + 1 }

/-- The completion of a command that raised the error with this code, the first error since ERR was last clear being
kept (46_control R289; 10_state R50), and the model's draw count advanced (log 4). -/
def failWith (code : BitVec 4) (s : State) : State :=
  { s with
    phase := .idle
    done := true
    err := true
    errCode := if s.err then s.errCode else code
    draws := s.draws + 1 }

/-! ## The table of checks -/

/-- The checks a command makes, in order (60_exceptions R303, R309). -/
def checksOf : Instr → List CmdError
  | .nop => [.illegalCommand]
  | .fdct _ _ => [.illegalCommand]
  | .idct _ _ => [.illegalCommand]
  | .quant _ _ => [.illegalCommand, .invalidParameter, .coefOverflow]
  | .deq _ _ => [.illegalCommand, .invalidParameter]
  | .c2q _ _ => [.illegalCommand, .invalidParameter, .coefOverflow]
  | .q2c _ _ => [.illegalCommand, .invalidParameter]
  | .ldblk _ _ _ => [.illegalCommand, .invalidDimensions, .indexRange]
  | .stblk _ _ _ => [.illegalCommand, .invalidDimensions, .indexRange]
  | .ldq _ _ _ => [.illegalCommand, .indexRange]
  | .stq _ _ _ => [.illegalCommand, .indexRange]
  | .codeMb _ => [.illegalCommand, .invalidDimensions, .invalidParameter, .indexRange, .coefOverflow]
  | .reconMb _ => [.illegalCommand, .invalidDimensions, .invalidParameter, .indexRange]
  | .codePic => [.illegalCommand, .invalidDimensions, .invalidParameter, .coefOverflow]
  | .reconPic => [.illegalCommand, .invalidDimensions, .invalidParameter, .lengthMismatch]

/-- `MBI >= TILES`, or `MBI >= MAX_MB` for a slot (60_exceptions R307). -/
def indexOutOfRange (s : State) : Instr → Bool
  | .nop => false
  | .fdct _ _ => false
  | .idct _ _ => false
  | .quant _ _ => false
  | .deq _ _ => false
  | .c2q _ _ => false
  | .q2c _ _ => false
  | .ldblk _ _ mbi => decide (s.tiles ≤ mbi.toNat)
  | .stblk _ _ mbi => decide (s.tiles ≤ mbi.toNat)
  | .ldq _ _ mbi => decide (maxMb s.cfg ≤ mbi.toNat)
  | .stq _ _ mbi => decide (maxMb s.cfg ≤ mbi.toNat)
  | .codeMb mbi => decide (s.tiles ≤ mbi.toNat)
  | .reconMb mbi => decide (s.tiles ≤ mbi.toNat)
  | .codePic => false
  | .reconPic => false

/-- The blocks of integers a quantizing command computes (41_quantizer R199, R201; 43_macroblock R250; 44_picture_coder
R265). -/
def quantizedBlocks (s : State) : Instr → List (Block Int)
  | .nop => []
  | .fdct _ _ => []
  | .idct _ _ => []
  | .quant _ rs => [quantize s.cfg s.p.toInt.toNat s.rb[rs].vals]
  | .deq _ _ => []
  | .c2q _ rs => [quantize s.cfg s.p.toInt.toNat (fwd s.cfg s.draws 0 s.rb[rs].vals)]
  | .q2c _ _ => []
  | .ldblk _ _ _ => []
  | .stblk _ _ _ => []
  | .ldq _ _ _ => []
  | .stq _ _ _ => []
  | .codeMb mbi => s.codeMacroblock mbi.toNat
  | .reconMb _ => []
  | .codePic => s.codePicture
  | .reconPic => []

/-- The condition of each command error (60_exceptions R302 (c), R304–R308). -/
def failsCheck (i : Instr) (s : State) : CmdError → Bool
  | .illegalCommand => !i.wellFormed
  | .invalidDimensions => !dimsValid s.cfg s.width.toNat s.height.toNat
  | .invalidParameter => decide (s.p.toInt ≤ 0)
  | .lengthMismatch => decide (s.mbCount.toNat ≠ s.tiles)
  | .indexRange => indexOutOfRange s i
  | .coefOverflow =>
    (quantizedBlocks s i).any fun q => !allBlock (fun e => decide (-2147483648 ≤ e ∧ e ≤ 2147483647)) q

/-- The command error of a command: the first check that applies (46_control R288; 60_exceptions R303). -/
def firstError (i : Instr) (s : State) : Option CmdError := (checksOf i).find? (failsCheck i s)

/-- The command makes the dimension check: it reads the picture geometry (60_exceptions R304). -/
abbrev readsDims (i : Instr) : Prop := .invalidDimensions ∈ checksOf i

/-- The command makes the parameter check: it reads p (60_exceptions R305). -/
abbrev readsP (i : Instr) : Prop := .invalidParameter ∈ checksOf i

/-! ## Block registers -/

/-- Every element of RB[r] has been set by a write since reset (10_state R66). -/
def rbWritten (s : State) (r : Fin 4) : Prop := ∀ i j, elem s.rb[r].written i j = true

/-- Every element of QB[r] has been set by a write since reset (10_state R66). -/
def qbWritten (s : State) (r : Fin 4) : Prop := ∀ i j, elem s.qb[r].written i j = true

/-- The block register a command reads, if any, holds no element that was never written (46_control R297). -/
def sourceWritten (s : State) : Instr → Prop
  | .nop => True
  | .fdct _ rs => rbWritten s rs
  | .idct _ rs => rbWritten s rs
  | .quant _ rs => rbWritten s rs
  | .deq _ rs => qbWritten s rs
  | .c2q _ rs => rbWritten s rs
  | .q2c _ rs => qbWritten s rs
  | .ldblk _ _ _ => True
  | .stblk rs _ _ => rbWritten s rs
  | .ldq _ _ _ => True
  | .stq rs _ _ => qbWritten s rs
  | .codeMb _ => True
  | .reconMb _ => True
  | .codePic => True
  | .reconPic => True

/-- The record of UNINIT naming a command; the first since reset is kept (10_state R66; 60_exceptions R329, log 5). -/
def uninitRead (name : String) (s : State) : State :=
  { s with uninit := if s.uninit = none then some name else s.uninit }

/-- `RB[r] <- b` followed by a completion without error (00_scope R23; 46_control R289). -/
def loadRb (r : Fin 4) (b : Block B64) (s : State) : State :=
  succeed { s with rb := s.rb.set r.val { vals := b, written := Vector.replicate 64 true } }

/-- `QB[r] <- b` followed by a completion without error (00_scope R23; 46_control R289). -/
def loadQb (r : Fin 4) (b : Block Word) (s : State) : State :=
  succeed { s with qb := s.qb.set r.val { vals := b, written := Vector.replicate 64 true } }

/-! ## Real values and roundings -/

/-- `real(v)` (00_scope R20). -/
def realValue (v : B64) : Rat := (scaled v : Rat) / (unit64 : Rat)

/-- `q = RHE(r)`: no integer is nearer, and an exact half goes to the even integer (00_scope R21). -/
structure IsRhe (q : Int) (r : Rat) : Prop where
  near : |(q : Rat) - r| ≤ 1 / 2
  even : |(q : Rat) - r| = 1 / 2 → q % 2 = 0

/-- `v = RNE64(r)`: v is finite, no binary64 value is nearer, and a tie goes to the value with an even significand
(00_scope R20). -/
structure IsRne64 (v : B64) (r : Rat) : Prop where
  finite : isFinite v = true
  near   : ∀ w, isFinite w = true → |realValue v - r| ≤ |realValue w - r|
  even   : ∀ w, isFinite w = true → realValue w ≠ realValue v → |realValue w - r| = |realValue v - r| →
    fracField v % 2 = 0

/-- Half an ulp of a finite v: half of the spacing of the binary64 values at v and beyond it (41_quantizer R194). -/
def halfUlp (v : B64) : Rat := (pow2 (expField v - 1) : Rat) / (2 * (unit64 : Rat))

/-- `v` is the finite binary64 value exactly equal to the natural number n (42_region R225). -/
def IsExactly (v : B64) (n : Nat) : Prop := isFinite v = true ∧ realValue v = n

/-- The matrix M of 40_transform R171 and R172, in the formulas of the spec: the DCT-II matrix, and the Walsh–Hadamard
matrix with `h(k) = bitrev3(k XOR (k >> 1))`. -/
noncomputable def transformMatrix : XformKind → Fin 8 → Fin 8 → ℝ
  | .dct2, k, n => (if k = 0 then √(1 / 8) else 1 / 2) * Real.cos (Real.pi * (2 * (n.val : ℝ) + 1) * (k.val : ℝ) / 16)
  | .wht, k, n =>
    let g := k.val ^^^ (k.val >>> 1)
    let a := (4 * (g % 2) + 2 * (g / 2 % 2) + g / 4) &&& n.val
    √(1 / 8) * (-1) ^ (a % 2 + a / 2 % 2 + a / 4)

/-- `c` is a finite value with `|real(c) - t| <= EPS·(1 + S)` for the block x that is transformed (40_transform R176). -/
def Admitted (eps : Rat) (x : Block B64) (t : ℝ) (c : B64) : Prop :=
  isFinite c = true ∧
    |((realValue c : Rat) : ℝ) - t| ≤ (eps : ℝ) * (1 + ∑ i, ∑ j, |((realValue (elem x i j) : Rat) : ℝ)|)

/-- An XFORM_IMPL whose transforms keep coded samples in int32: REF64, or BOUNDED(EPS) with EPS at most 2^-20 (41_quantizer R203). -/
def accurate : XformImpl → Prop
  | .ref64 => True
  | .bounded eps => eps ≤ 1 / 2 ^ 20

/-! ## Programs of commands -/

/-- The commands of a list executed one after the other, each completing (46_control R294); nothing when one of them
stops. -/
def runAll : List Instr → State → Option State
  | [], s => some s
  | i :: is, s =>
    match exec i s with
    | .next t => runAll is t
    | .fault _ => none
    | .refused _ => none

/-- `ldblk rb r, m, b`, `c2q qb q, rb r`, `stq qb q, m, b` for each block b (43_macroblock R256). -/
def codeMbSequence (r q : Fin 4) (m : BitVec 16) : List Instr :=
  (List.range 6).flatMap fun b =>
    [.ldblk r (BitVec.ofNat 3 b) m, .c2q q r, .stq q (BitVec.ofNat 3 b) m]

/-- `ldq qb q, m, b`, `q2c rb r, qb q`, `stblk rb r, m, b` for each block b (43_macroblock R256). -/
def reconMbSequence (r q : Fin 4) (m : BitVec 16) : List Instr :=
  (List.range 6).flatMap fun b =>
    [.ldq q (BitVec.ofNat 3 b) m, .q2c r q, .stblk r (BitVec.ofNat 3 b) m]

/-! ## Bus conditions -/

/-- 20_memory R110 (a): the access is not wholly inside one mapped region. -/
def badPlace (c : Params) (a : Nat) (n : Width) : Prop :=
  ¬ ∃ r, ∀ i < widthBytes n, regionOf c (a + i) = some r

/-- 20_memory R110 (b): the width or the alignment is not allowed for the region (R106–R109). -/
def badWidth (c : Params) (a : Nat) (n : Width) : Prop :=
  ∃ r, regionOf c a = some r ∧ (widthAllowed r n = false ∨ a % widthBytes n ≠ 0)

/-- 20_memory R110 (c): a read-only location: ID, VERSION, MAXDIM, the QTABLE window or RBWIN. -/
def isReadOnly (a : Nat) : Prop :=
  a = 0x000 ∨ a = 0x004 ∨ a = 0x024 ∨ (0x100 ≤ a ∧ a < 0x200) ∨ (0x001000 ≤ a ∧ a < 0x001800)

/-- The state after a host access that got a bus error (60_exceptions R315, R316): its response (log 3), and the model's
draw count advanced (log 4). -/
def busErrored (r : Response) (s : State) : State :=
  { s with busErr := true, resp := some r, draws := s.draws + 1 }

/-- The state after a host access with response `r` (log 3) that changed nothing else but the model's draw count (log 4). -/
def answered (r : Response) (s : State) : State := { s with resp := some r, draws := s.draws + 1 }

end Sys2Proof
end

