-- ==== Sys2Proof/Certificates/Slice0/Obligations.lean ====
section
/-! DEFINITION. The statements about BTQ8, one `def Obligations.<Name> : Prop` each, with the rule of spec/ it formalises. -/

open Sys2Proof Sys2Proof.Machine

/-! ## Encoding -/

/-- 30_encoding R158: the encoding examples, from the source line to the word and back, and the four illegal words. -/
def Obligations.EncodingExamples : Prop :=
  (assemble "fdct" [.rb 1, .rb 0] = some (.fdct 1 0) ∧ encode (.fdct 1 0) = 0x00000101 ∧
    decode 0x00000101 = .ok (.fdct 1 0)) ∧
  (assemble "idct" [.rb 0, .rb 1] = some (.idct 0 1) ∧ encode (.idct 0 1) = 0x00000402 ∧
    decode 0x00000402 = .ok (.idct 0 1)) ∧
  (assemble "c2q" [.qb 2, .rb 3] = some (.c2q 2 3) ∧ encode (.c2q 2 3) = 0x00000E05 ∧
    decode 0x00000E05 = .ok (.c2q 2 3)) ∧
  (assemble "q2c" [.rb 3, .qb 2] = some (.q2c 3 2) ∧ encode (.q2c 3 2) = 0x00000B06 ∧
    decode 0x00000B06 = .ok (.q2c 3 2)) ∧
  (assemble "ldblk" [.rb 0, .num 3, .num 4] = some (.ldblk 0 4 3) ∧ encode (.ldblk 0 4 3) = 0x00034008 ∧
    decode 0x00034008 = .ok (.ldblk 0 4 3)) ∧
  (assemble "stq" [.qb 1, .num 5, .num 3] = some (.stq 1 3 5) ∧ encode (.stq 1 3 5) = 0x0005340B ∧
    decode 0x0005340B = .ok (.stq 1 3 5)) ∧
  (assemble "code_mb" [.num 17] = some (.codeMb 17) ∧ encode (.codeMb 17) = 0x00110010 ∧
    decode 0x00110010 = .ok (.codeMb 17)) ∧
  (assemble "recon_pic" [] = some .reconPic ∧ encode .reconPic = 0x00000013 ∧ decode 0x00000013 = .ok .reconPic) ∧
  decode (0x00000101 ||| 0x8000) = .error (.reservedBits "FDCT") ∧
  decode 0x00006008 = .error (.blockSelector "LDBLK" 6) ∧
  decode 0x00000007 = .error (.reservedOpcode 0x07) ∧
  decode 0x00010012 = .error (.reservedBits "CODE_PIC")

/-- 30_encoding R141, R149: decoding an encoded well-formed command gives it back, at every value of every operand. -/
def Obligations.DecodeEncode : Prop :=
  ∀ i : Instr, i.WellFormed → decode (encode i) = .ok i

/-- 30_encoding R149, R150: every word that decodes is the one word of its command, and the command is well-formed. -/
def Obligations.EncodeDecode : Prop :=
  ∀ (w : Word) (i : Instr), decode w = .ok i → encode i = w ∧ i.WellFormed

/-- 60_exceptions R302: a word is Illegal exactly when (a) its OPC is reserved, (b) a reserved bit of its OPC's format is
1, or (c) it is LDBLK, STBLK, LDQ or STQ with BSEL 6 or 7; and then the engine step changes nothing but STATUS (and the
model's draw count), whatever the state, so CMD keeps the word. -/
def Obligations.IllegalCommand : Prop :=
  ∀ s : State,
    ((∃ e, decode s.lc = .error e) ↔
      (s.lc.toNat % 256 = 0x07 ∨ (0x0C ≤ s.lc.toNat % 256 ∧ s.lc.toNat % 256 ≤ 0x0F) ∨ 0x14 ≤ s.lc.toNat % 256) ∨
      (∃ r ∈ opcodeMap, opcOf r.pattern = opcOf s.lc ∧ s.lc &&& r.mask ≠ r.pattern) ∨
      ((s.lc &&& 0x00008CFF = 0x00000008 ∨ s.lc &&& 0x000083FF = 0x00000009 ∨ s.lc &&& 0x00008CFF = 0x0000000A ∨
          s.lc &&& 0x000083FF = 0x0000000B) ∧ 6 ≤ s.lc.toNat / 4096 % 8)) ∧
    ((∃ e, decode s.lc = .error e) → engineStep s = .next (failWith 4 s))

/-! ## The step -/

/-- 46_control R286, R295: when LC decodes to a well-formed command and the engine moves, the step is `exec` of that
command; also when the outside world makes no more moves, and when the word was placed by `withFetchWord` (log 2). -/
def Obligations.StepRunsDecodedCommand : Prop :=
  ∀ (s : State) (i : Instr),
    (decode s.lc = .ok i → i.WellFormed → s.phase = .busy →
      (∀ ms, s.moves = .engine :: ms → step s = exec i { s with moves := ms }) ∧ (s.moves = [] → step s = exec i s)) ∧
    (∀ nbits w, decodeTableWord nbits w = some i →
      step (s.withFetchWord nbits w) =
        exec i { s with cmd := tableWord nbits w, lc := tableWord nbits w, phase := .busy })

/-- 46_control R286, 70_reset R360: a host that makes only accesses while BUSY = 1 delays the engine step and no more.
After its last access the running command and every one of its inputs are as they were, and the next step is the engine
step owed (log 2). -/
def Obligations.EngineStepOwed : Prop :=
  ∀ s : State, s.phase = .busy → (∀ m ∈ s.moves, isAccess m = true) →
    ∃ t, Sys2Proof.core.run s.moves.length s = .next t ∧ t.moves = [] ∧ t.phase = .busy ∧ t.lc = s.lc ∧ t.cfg = s.cfg ∧
      t.cmd = s.cmd ∧ t.p = s.p ∧ t.width = s.width ∧ t.height = s.height ∧ t.mbCount = s.mbCount ∧ t.rb = s.rb ∧
      t.qb = s.qb ∧ t.mem = s.mem ∧ step t = engineStep t

/-- 20_memory R123: while BUSY = 1 no host access changes an input of the running command. -/
def Obligations.BusyInputsKept : Prop :=
  ∀ (s : State) (addr : Offset) (n : Width) (v : BitVec 64), s.phase = .busy →
    ∀ t, (t = s.hostRead addr n ∨ t = s.hostWrite addr n v) →
      t.phase = .busy ∧ t.lc = s.lc ∧ t.cfg = s.cfg ∧ t.cmd = s.cmd ∧ t.p = s.p ∧ t.width = s.width ∧
        t.height = s.height ∧ t.mbCount = s.mbCount ∧ t.rb = s.rb ∧ t.qb = s.qb ∧ t.mem = s.mem

/-- 70_reset R343: while no command has been accepted the engine's turn changes nothing (log 15). -/
def Obligations.IdleEngineDoesNothing : Prop :=
  ∀ s : State, s.phase = .idle →
    (s.moves = [] → step s = .next s) ∧ (∀ ms, s.moves = .engine :: ms → step s = .next { s with moves := ms })

/-! ## Reset and the invariant -/

/-- 70_reset R341: the values after reset, as the host reads them, for every choice of parameters; LC, RB and QB are
left out, since R341 gives them no value. -/
def Obligations.ResetValues : Prop :=
  ∀ c : Params,
    let s := State.resetWith c
    s.readReg 0x000 = 0x38515442 ∧ s.readReg 0x004 = 1 ∧ s.readReg 0x008 = 0 ∧ s.readReg 0x00C = 0 ∧
      s.readReg 0x010 = 0 ∧ s.readReg 0x014 = 0 ∧ s.readReg 0x018 = 0 ∧ s.readReg 0x01C = 0 ∧ s.readReg 0x020 = 0 ∧
      (s.readReg 0x024).toNat = c.maxH % 65536 * 65536 + c.maxW % 65536 ∧
      (∀ k : Fin 64, s.readReg (0x100 + 4 * k.val) = c.qtable[k].setWidth 32) ∧
      s.phase = .idle ∧ s.irq = false ∧ (∀ (r : Fin 4) i j, elem s.rb[r].written i j = false) ∧
      (∀ (r : Fin 4) i j, elem s.qb[r].written i j = false) ∧
      (∀ a, s.mem.lookup a = none)

/-- 70_reset R340, R341; 60_exceptions R329: the reset move gives the state after reset while BUSY = 0 (the moves, the
last response and the draw count are the model's own, log 8), and the model gives it no next state while BUSY = 1. -/
def Obligations.ResetMove : Prop :=
  ∀ (s : State) (ms : List Move), s.moves = .reset :: ms →
    (s.phase = .idle →
      step s = .next { State.resetWith s.cfg with moves := ms, resp := s.resp, draws := s.draws + 1 }) ∧
    (s.phase = .busy → step s = .fault .resetWhileBusy)

/-- 70_reset R341, 00_scope R11: the state after reset satisfies the invariant, for every legal choice of parameters,
the default among them. -/
def Obligations.ResetSatisfiesInvariant : Prop :=
  (∀ c : Params, c.Valid → Invariant (State.resetWith c)) ∧ Invariant State.reset

/-- Every step keeps the invariant: the parameters legal, RB finite once written while no command has read an element that
was never written (10_state R67), memory canonical and inside IN, OUT and COEF (20_memory R101), ERRCODE a code of
60_exceptions R301 and 0 exactly when ERR = 0 (10_state R50), and CMD the running command (R52, R80). -/
def Obligations.StepKeepsInvariant : Prop :=
  ∀ s t : State, Invariant s → step s = .next t → Invariant t

/-! ## Completion, errors and footprints -/

/-- 60_exceptions R303, R309, 46_control R288: for every command and every state, the first failing check of its row of R309
is its error, with the code of R301 and no effect but STATUS; with no failing check it completes, ERR and ERRCODE as they
were. The model's record of UNINIT changes only where a register that was never written has been read: not for an error
other than COEF_OVERFLOW (logs 5 and 20); and that the command completes also while the phase is IDLE, or reads a register
that was never written, is the model's choice (logs 5 and 16). -/
def Obligations.ChecksInOrder : Prop :=
  ∀ (i : Instr) (s : State),
    (∀ e, firstError i s = some e → ∃ t, exec i s = .next t ∧
      t = failWith (errorCode e) { s with uninit := t.uninit } ∧
      (sourceWritten s i ∨ e ≠ .coefOverflow → t.uninit = s.uninit)) ∧
    (firstError i s = none → ∃ t, exec i s = .next t ∧ t.phase = .idle ∧ t.done = true ∧ t.err = s.err ∧
      t.errCode = s.errCode ∧ (sourceWritten s i → t.uninit = s.uninit))

/-- 46_control R289, 10_state R49, R83: what every completion leaves as it was, and its record in STATUS. Three clauses are
the model's choices and no rule of the spec: that every command completes in every state, also when it reads a register
that was never written, where R66 and R329 have the model fault UNINIT (log 5), and also while the phase is IDLE (log 16);
and that the draw count advances by one (log 4). -/
def Obligations.CompletionRecord : Prop :=
  ∀ (i : Instr) (s : State), ∃ t, exec i s = .next t ∧
    t.phase = .idle ∧ t.done = true ∧ t.cfg = s.cfg ∧ t.ie = s.ie ∧ t.busErr = s.busErr ∧ t.cmd = s.cmd ∧ t.lc = s.lc ∧
      t.p = s.p ∧ t.width = s.width ∧ t.height = s.height ∧ t.moves = s.moves ∧ t.resp = s.resp ∧
      t.draws = s.draws + 1 ∧ (i ≠ .codePic → t.mbCount = s.mbCount) ∧
      ((t.err = s.err ∧ t.errCode = s.errCode) ∨ ∃ e, t = failWith (errorCode e) { s with uninit := t.uninit })

/-- 10_state R72: no command writes IN. -/
def Obligations.InPictureNeverWritten : Prop :=
  ∀ (i : Instr) (s t : State), exec i s = .next t →
    ∀ a, 0x100000 ≤ a → a < 0x400000 → t.mem.lookup a = s.mem.lookup a

/-- 10_state R72: no command reads OUT. Two states that differ in OUT bytes only give the same outcome, but for OUT. -/
def Obligations.OutPictureNeverRead : Prop :=
  ∀ (i : Instr) (s : State) (m : Memory), s.cfg.Valid →
    (∀ a, a < 0x400000 ∨ 0x700000 ≤ a → m.lookup a = s.mem.lookup a) →
    match exec i s, exec i { s with mem := m } with
    | .next t, .next t' => t' = { t with mem := t'.mem } ∧
        ∀ a, a < 0x400000 ∨ 0x700000 ≤ a → t'.mem.lookup a = t.mem.lookup a
    | .fault f, .fault f' => f = f'
    | .refused r, .refused r' => r = r'
    | _, _ => False

/-- 43_macroblock R255: CODE_MB, RECON_MB, CODE_PIC and RECON_PIC neither read nor write RB and QB: with any other block
registers they do the same and leave those. -/
def Obligations.CoarseCommandsIgnoreBlockRegisters : Prop :=
  ∀ (i : Instr), ((∃ m, i = .codeMb m) ∨ (∃ m, i = .reconMb m) ∨ i = .codePic ∨ i = .reconPic) →
    ∀ (s : State) (rb : RegFile B64) (qb : RegFile Word),
      (∃ t, exec i s = .next t ∧ t.rb = s.rb ∧ t.qb = s.qb ∧
        exec i { s with rb := rb, qb := qb } = .next { t with rb := rb, qb := qb })

/-- 46_control R297, 60_exceptions R309: NOP, FDCT, IDCT, LDBLK, STBLK, LDQ and STQ do not read P or MB_COUNT. -/
def Obligations.ParameterNotRead : Prop :=
  ∀ (i : Instr) (s t : State) (p n : Word), ¬ readsP i → exec i s = .next t →
    exec i { s with p := p, mbCount := n } = .next { t with p := p, mbCount := n }

/-- 60_exceptions R304: every command that reads the picture geometry raises INVALID_DIMENSIONS when WIDTH or HEIGHT is
not a multiple of 16 in 16..MAX_W or 16..MAX_H. -/
def Obligations.InvalidDimensions : Prop :=
  ∀ (i : Instr) (s : State), i.WellFormed → readsDims i →
    ¬ (s.width.toNat % 16 = 0 ∧ 16 ≤ s.width.toNat ∧ s.width.toNat ≤ s.cfg.maxW ∧
        s.height.toNat % 16 = 0 ∧ 16 ≤ s.height.toNat ∧ s.height.toNat ≤ s.cfg.maxH) →
    exec i s = .next (failWith 1 s)

/-- 60_exceptions R305: every command that reads p raises INVALID_PARAMETER when P <= 0, after the dimension check of the
commands that make it. -/
def Obligations.InvalidParameter : Prop :=
  ∀ (i : Instr) (s : State), readsP i →
    (readsDims i → dimsValid s.cfg s.width.toNat s.height.toNat = true) →
    s.p.toInt ≤ 0 → exec i s = .next (failWith 2 s)

/-- 60_exceptions R306, 45_picture_reconstructor R276: RECON_PIC raises LENGTH_MISMATCH when MB_COUNT is not TILES, after
the dimension and parameter checks. -/
def Obligations.LengthMismatch : Prop :=
  ∀ s : State, dimsValid s.cfg s.width.toNat s.height.toNat = true → 0 < s.p.toInt →
    s.mbCount.toNat ≠ (s.width.toNat / 16) * (s.height.toNat / 16) → exec .reconPic s = .next (failWith 3 s)

/-- 60_exceptions R307: INDEX_RANGE of LDBLK, STBLK, CODE_MB and RECON_MB when MBI >= TILES, and of LDQ and STQ when
MBI >= MAX_MB. -/
def Obligations.IndexRange : Prop :=
  ∀ (s : State) (r : Fin 4) (b : BitVec 3) (m : BitVec 16), b.toNat < 6 →
    (dimsValid s.cfg s.width.toNat s.height.toNat = true → (s.width.toNat / 16) * (s.height.toNat / 16) ≤ m.toNat →
      exec (.ldblk r b m) s = .next (failWith 5 s) ∧ exec (.stblk r b m) s = .next (failWith 5 s) ∧
        (0 < s.p.toInt → exec (.codeMb m) s = .next (failWith 5 s) ∧ exec (.reconMb m) s = .next (failWith 5 s))) ∧
    ((s.cfg.maxW / 16) * (s.cfg.maxH / 16) ≤ m.toNat →
      exec (.ldq r b m) s = .next (failWith 5 s) ∧ exec (.stq r b m) s = .next (failWith 5 s))

/-- 10_state R66, 60_exceptions R329: once its other checks pass, a command that reads an RB or QB register with an
element no write has set since reset computes with the bits the register holds, and leaves the record of UNINIT naming it,
unless one stands already. That it goes on where R66 gives the model a fault is the model's choice (log 5). And while
BUSY = 0 a host read of such an element gives a free value (log 4). -/
def Obligations.UninitNamesCommand : Prop :=
  ∀ (s : State) (rd rs : Fin 4),
    (¬ rbWritten s rs →
      let X := s.rb[rs].vals
      exec (.fdct rd rs) s = .next (loadRb rd (fwd s.cfg s.draws 0 X) (uninitRead "FDCT" s)) ∧
      exec (.idct rd rs) s = .next (loadRb rd (inv s.cfg s.draws 0 X) (uninitRead "IDCT" s)) ∧
      (0 < s.p.toInt →
        let q := quantize s.cfg s.p.toInt.toNat X
        let f := quantize s.cfg s.p.toInt.toNat (fwd s.cfg s.draws 0 X)
        exec (.quant rd rs) s = .next (if blockFits q then loadQb rd (toWords q) (uninitRead "QUANT" s)
          else failWith 6 (uninitRead "QUANT" s)) ∧
        exec (.c2q rd rs) s = .next (if blockFits f then loadQb rd (toWords f) (uninitRead "C2Q" s)
          else failWith 6 (uninitRead "C2Q" s))) ∧
      (∀ (b : BitVec 3) (m : BitVec 16), b.toNat < 6 → dimsValid s.cfg s.width.toNat s.height.toNat = true →
        m.toNat < s.tiles → exec (.stblk rs b m) s = .next (succeed { uninitRead "STBLK" s with
          mem := s.mem.writeRuns (blockOutRuns s m.toNat b.toNat X) }))) ∧
    (¬ qbWritten s rs →
      let Q := s.qb[rs].vals
      (0 < s.p.toInt →
        exec (.deq rd rs) s = .next (loadRb rd (dequantize s.cfg s.p.toInt.toNat Q) (uninitRead "DEQ" s)) ∧
        exec (.q2c rd rs) s = .next (loadRb rd
          (mapBlock clamp (inv s.cfg s.draws 0 (dequantize s.cfg s.p.toInt.toNat Q))) (uninitRead "Q2C" s))) ∧
      (∀ (b : BitVec 3) (m : BitVec 16), b.toNat < 6 → m.toNat < maxMb s.cfg →
        exec (.stq rs b m) s = .next (succeed { uninitRead "STQ" s with
          mem := s.mem.write (coefAddr m.toNat b.toNat) (blockBytes Q) }))) ∧
    (s.phase = .idle → ∀ i j : Fin 8,
      (elem s.rb[rs].written i j = false →
        s.hostRead (BitVec.ofNat 24 (0x001000 + 512 * rs.val + 8 * (8 * i.val + j.val))) .b8 =
          answered (.okData .b8 (Config.drawReal s.draws (64 * rs.val + (8 * i.val + j.val)))) s) ∧
      (elem s.qb[rs].written i j = false →
        s.hostRead (BitVec.ofNat 24 (0x002000 + 256 * rs.val + 4 * (8 * i.val + j.val))) .b4 =
          answered (.okData .b4 ((Config.drawInt s.draws (64 * rs.val + (8 * i.val + j.val))).setWidth 64)) s))

/-! ## NOP and the transform -/

/-- 46_control R290: NOP does nothing but complete; its one word is 0, and every other word of OPC 0x00 is Illegal; and from
the reset state with CTRL.IE = 1 it leaves STATUS = 0x00000002 and irq = 1. -/
def Obligations.NopOnlyCompletes : Prop :=
  (∀ s, exec .nop s = .next (succeed s)) ∧ (∀ w, decode w = .ok .nop ↔ w = 0) ∧
  (∀ w : Word, w.toNat % 256 = 0 → w ≠ 0 → ∃ e, decode w = .error e) ∧
  (∀ c, ∃ t, exec .nop { State.resetWith c with ie := true, phase := .busy } = .next t ∧ t.status = 0x00000002 ∧
    t.irq = true)

/-- 40_transform R174, R175 (FDCT of R178, IDCT of R179): under REF64, FDCT writes `FWD(RB[RS])` to RB[RD], and IDCT
`INV(RB[RS])`, rows first: each sum starts from its first product, runs from index 0 upward and rounds every product and
partial sum; nothing else changes but the completion. RD may equal RS. -/
def Obligations.TransformsRef64 : Prop :=
  ∀ (s : State) (rd rs : Fin 4), s.cfg.impl = .ref64 → rbWritten s rs →
    let sum := fun x y : Fin 8 → B64 =>
      ([1, 2, 3, 4, 5, 6, 7] : List (Fin 8)).foldl (fun acc k => add64 acc (mul64 (x k) (y k))) (mul64 (x 0) (y 0))
    exec (.fdct rd rs) s = .next (loadRb rd
      (mkBlock fun u v => sum (fun i => m64 s.cfg.kind u i)
        (fun i => sum (fun j => elem s.rb[rs].vals i j) (fun j => m64 s.cfg.kind v j))) s) ∧
    exec (.idct rd rs) s = .next (loadRb rd
      (mkBlock fun i j => sum (fun u => m64 s.cfg.kind u i)
        (fun u => sum (fun v => elem s.rb[rs].vals u v) (fun v => m64 s.cfg.kind v j))) s)

/-- 40_transform R176, R173: under BOUNDED(EPS), FDCT and IDCT of a finite block complete; each element satisfies the bound
against the exact transform of R173 wherever any binary64 value does; it is the draw, unless the draw is outside the bound
(log 10); and it is finite. -/
def Obligations.BoundedTransforms : Prop :=
  ∀ (s : State) (rd rs : Fin 4) (eps : Rat), s.cfg.impl = .bounded eps → rbWritten s rs →
    (∀ i j, isFinite (elem s.rb[rs].vals i j) = true) →
    let M := transformMatrix s.cfg.kind
    let X := s.rb[rs].vals
    (∃ f, exec (.fdct rd rs) s = .next (loadRb rd f s) ∧ ∀ u v : Fin 8,
      let t := ∑ i, ∑ j, M u i * M v j * ((realValue (elem X i j) : Rat) : ℝ)
      let draw := Config.drawXform s.draws 0 (8 * u.val + v.val)
      ((∃ w, Admitted eps X t w) → Admitted eps X t (elem f u v)) ∧ (elem f u v = draw ∨ ¬ Admitted eps X t draw) ∧
        isFinite (elem f u v) = true) ∧
    (∃ x, exec (.idct rd rs) s = .next (loadRb rd x s) ∧ ∀ i j : Fin 8,
      let t := ∑ u, ∑ v, M u i * M v j * ((realValue (elem X u v) : Rat) : ℝ)
      let draw := Config.drawXform s.draws 0 (8 * i.val + j.val)
      ((∃ w, Admitted eps X t w) → Admitted eps X t (elem x i j)) ∧ (elem x i j = draw ∨ ¬ Admitted eps X t draw) ∧
        isFinite (elem x i j) = true)

/-- 40_transform R171, R172, R173, R177: the matrices. Each entry of M64 is finite and a binary64 value nearest the entry of
the exact matrix M; M is orthonormal; and the exact inverse transform undoes the exact forward one, for every real block. -/
def Obligations.TransformMatrices : Prop :=
  ∀ kind : XformKind,
    let M := transformMatrix kind
    (∀ k n, isFinite (m64 kind k n) = true ∧ ∀ w, isFinite w = true →
      |((realValue (m64 kind k n) : Rat) : ℝ) - M k n| ≤ |((realValue w : Rat) : ℝ) - M k n|) ∧
    (∀ k n, ∑ i, M k i * M n i = if k = n then 1 else 0) ∧
    (∀ (X : Fin 8 → Fin 8 → ℝ) (i j : Fin 8),
      ∑ u, ∑ v, M u i * M v j * (∑ a, ∑ b, M u a * M v b * X a b) = X i j)

/-- 40_transform R183, 10_state R67: under REF64 a block whose elements are of magnitude at most 2^56 transforms, forward and
back, to finite values of magnitude at most 2^62: no overflow, no infinity, no NaN. And whatever the parameters, every block
a command writes to RB is finite, provided the RB block it transforms is: no other command that writes RB reads RB. And no
element of the exact transforms exceeds the norm of the block, or eight times its largest element. -/
def Obligations.TransformsStayFinite : Prop :=
  (∀ (kind : XformKind) (x : Block B64),
    (∀ i j, isFinite (elem x i j) = true ∧ |realValue (elem x i j)| ≤ 2 ^ 56) →
    ∀ i j, isFinite (elem (fwdRef64 kind x) i j) = true ∧ |realValue (elem (fwdRef64 kind x) i j)| ≤ 2 ^ 62 ∧
      isFinite (elem (invRef64 kind x) i j) = true ∧ |realValue (elem (invRef64 kind x) i j)| ≤ 2 ^ 62) ∧
  (∀ (i : Instr) (s t : State), exec i s = .next t →
    (∀ rd rs, (i = .fdct rd rs ∨ i = .idct rd rs) → ∀ a b, isFinite (elem s.rb[rs].vals a b) = true) →
    ∀ r : Fin 4, t.rb[r] = s.rb[r] ∨ ∀ a b, isFinite (elem t.rb[r].vals a b) = true) ∧
  (∀ (kind : XformKind) (X : Fin 8 → Fin 8 → ℝ) (B : ℝ) (k n : Fin 8), (∀ i j, |X i j| ≤ B) →
    let M := transformMatrix kind
    |∑ i, ∑ j, M k i * M n j * X i j| ≤ √(∑ i, ∑ j, X i j ^ 2) ∧
      |∑ u, ∑ v, M u k * M v n * X u v| ≤ √(∑ i, ∑ j, X i j ^ 2) ∧ √(∑ i, ∑ j, X i j ^ 2) ≤ 8 * B)

/-- 00_scope R20: RNE64 of ±n/d is the nearest binary64 value, ties to the even significand, short of overflow; and the sum
and product of finite values of magnitude at most 2^500 are the exact results rounded once. -/
def Obligations.RoundingNearestEven : Prop :=
  (∀ (neg : Bool) (n d : Nat), 0 < d → n ≤ d * 2 ^ 1023 →
    IsRne64 (rne64 neg n d) ((if neg then -1 else 1) * ((n : Rat) / (d : Rat)))) ∧
  (∀ a b : B64, isFinite a = true → isFinite b = true → |realValue a| ≤ 2 ^ 500 → |realValue b| ≤ 2 ^ 500 →
    IsRne64 (add64 a b) (realValue a + realValue b) ∧ IsRne64 (mul64 a b) (realValue a * realValue b))

/-! ## The quantizer -/

/-- 41_quantizer R191, R192, R199: QUANT of finite elements computes `RHE(16·c·2^16/(t·P))` of each, rounded once, and
writes them to QB[RD] without change of value, or, if one is outside int32, raises COEF_OVERFLOW and writes none. -/
def Obligations.QuantRoundsOnce : Prop :=
  ∀ (s : State) (rd rs : Fin 4), 0 < s.p.toInt → rbWritten s rs →
    (∀ i j, isFinite (elem s.rb[rs].vals i j) = true) → (∀ k : Fin 64, s.cfg.qtable[k] ≠ 0#8) →
    ∃ q : Fin 8 → Fin 8 → Int,
      (∀ i j, IsRhe (q i j) (16 * realValue (elem s.rb[rs].vals i j) * 2 ^ 16 /
        (((elem s.cfg.qtable i j).toNat : Rat) * (s.p.toInt : Rat)))) ∧
      ((∀ i j, -2 ^ 31 ≤ q i j ∧ q i j ≤ 2 ^ 31 - 1) →
        exec (.quant rd rs) s = .next (loadQb rd (mkBlock fun i j => BitVec.ofInt 32 (q i j)) s)) ∧
      (¬ (∀ i j, -2 ^ 31 ≤ q i j ∧ q i j ≤ 2 ^ 31 - 1) → exec (.quant rd rs) s = .next (failWith 6 s))

/-- 41_quantizer R193, R197, R200: DEQ writes to RB[RD] the binary64 value nearest each `q·t·P/2^20`, +0.0 where q = 0;
each is finite and below 2^50 in magnitude. -/
def Obligations.DeqRoundsOnce : Prop :=
  ∀ (s : State) (rd rs : Fin 4), 0 < s.p.toInt → qbWritten s rs →
    ∃ x, exec (.deq rd rs) s = .next (loadRb rd x s) ∧
      ∀ i j, IsRne64 (elem x i j) (((elem s.qb[rs].vals i j).toInt : Rat) * ((elem s.cfg.qtable i j).toNat : Rat) *
          (s.p.toInt : Rat) / 2 ^ 20) ∧
        |realValue (elem x i j)| < 2 ^ 50 ∧ (elem s.qb[rs].vals i j = 0 → elem x i j = 0)

/-- 41_quantizer R201: C2Q writes `QUANTIZE(FWD(RB[RS]))` to QB[RD] when every element of it is an int32; and it is FDCT
into a scratch register and QUANT from it, bit for bit, without the write to the scratch register, also when the result
overflows. (Under BOUNDED(EPS) FWD is the same draw in both, log 10.) -/
def Obligations.C2qIsFdctThenQuant : Prop :=
  ∀ (s : State) (rd rs scratch : Fin 4), 0 < s.p.toInt → rbWritten s rs →
    (let q := fun i j => quant1 (elem (fwd s.cfg s.draws 0 s.rb[rs].vals) i j) (elem s.cfg.qtable i j).toNat s.p.toInt.toNat
     (∀ i j, -2 ^ 31 ≤ q i j ∧ q i j ≤ 2 ^ 31 - 1) →
      exec (.c2q rd rs) s = .next (loadQb rd (mkBlock fun i j => BitVec.ofInt 32 (q i j)) s)) ∧
    ∃ a b, exec (.fdct scratch rs) s = .next a ∧ exec (.quant rd scratch) a = .next b ∧
      exec (.c2q rd rs) s = .next { b with rb := s.rb, draws := s.draws + 1 }

/-- 41_quantizer R203: when every element of X lies in [0, 255], every element of `QUANTIZE(FWD(X))` lies within
±2139111361, for REF64 and for any BOUNDED(EPS) with EPS <= 2^-20; so C2Q of such a block, CODE_MB and CODE_PIC never raise
COEF_OVERFLOW. -/
def Obligations.PixelsNeverOverflow : Prop :=
  ∀ s : State, s.cfg.Valid → accurate s.cfg.impl → 0 < s.p.toInt →
    (∀ (X : Block B64) (draws site : Nat),
      (∀ i j, isFinite (elem X i j) = true ∧ 0 ≤ realValue (elem X i j) ∧ realValue (elem X i j) ≤ 255) →
      ∀ i j, -2139111361 ≤ elem (quantize s.cfg s.p.toInt.toNat (fwd s.cfg draws site X)) i j ∧
        elem (quantize s.cfg s.p.toInt.toNat (fwd s.cfg draws site X)) i j ≤ 2139111361) ∧
    (∀ rd rs : Fin 4, rbWritten s rs → (∀ i j, isFinite (elem s.rb[rs].vals i j) = true ∧
        0 ≤ realValue (elem s.rb[rs].vals i j) ∧ realValue (elem s.rb[rs].vals i j) ≤ 255) →
      exec (.c2q rd rs) s = .next (loadQb rd (mapBlock (BitVec.ofInt 32)
        (quantize s.cfg s.p.toInt.toNat (fwd s.cfg s.draws 0 s.rb[rs].vals))) s)) ∧
    (dimsValid s.cfg s.width.toNat s.height.toNat = true →
      (∀ m : BitVec 16, m.toNat < s.tiles → ∃ t, exec (.codeMb m) s = .next t ∧ t.err = s.err ∧ t.errCode = s.errCode) ∧
      ∃ t, exec .codePic s = .next t ∧ t.err = s.err ∧ t.errCode = s.errCode)

/-- 41_quantizer R202, R198: for every XFORM_IMPL, Q2C writes `CLAMP(INV(DEQUANTIZE(QB[RS])))` to RB[RD], each element finite
in [0, 255]; and under REF64 that is IDCT of DEQ, clamped. -/
def Obligations.Q2cClamps : Prop :=
  ∀ (s : State) (rd rs : Fin 4), 0 < s.p.toInt → qbWritten s rs →
    let x := mapBlock clamp (inv s.cfg s.draws 0 (dequantize s.cfg s.p.toInt.toNat s.qb[rs].vals))
    exec (.q2c rd rs) s = .next (loadRb rd x s) ∧
    (∀ i j, isFinite (elem x i j) = true ∧ 0 ≤ realValue (elem x i j) ∧ realValue (elem x i j) ≤ 255) ∧
    (s.cfg.impl = .ref64 → ∃ a b, exec (.deq rd rs) s = .next a ∧ exec (.idct rd rd) a = .next b ∧
      ∀ i j, elem x i j =
        (if realValue (elem b.rb[rd].vals i j) < 0 then 0
         else if 255 < realValue (elem b.rb[rd].vals i j) then 0x406FE00000000000 else elem b.rb[rd].vals i j))

/-- 41_quantizer R196: re-quantization is exact: quantizing a dequantized integer gives it back, so a second pass of
quantizing and dequantizing a block changes nothing. -/
def Obligations.RequantizationExact : Prop :=
  (∀ (q : Int) (t p : Nat), q.natAbs ≤ 2 ^ 31 → 1 ≤ t → t ≤ 255 → 1 ≤ p → p < 2 ^ 31 → quant1 (deq1 q t p) t p = q) ∧
  (∀ (c : Params) (p : Nat) (x : Block B64), (∀ k : Fin 64, c.qtable[k] ≠ 0#8) → 1 ≤ p → p < 2 ^ 31 →
    (∀ i j, -2 ^ 31 ≤ elem (quantize c p x) i j ∧ elem (quantize c p x) i j ≤ 2 ^ 31 - 1) →
    let d := dequantize c p (toWords (quantize c p x))
    dequantize c p (toWords (quantize c p d)) = d)

/-- 41_quantizer R194: the error of quantizing and dequantizing a value is at most half the local step `t·p/16`, plus half
an ulp of the result. -/
def Obligations.QuantizationError : Prop :=
  ∀ (c : B64) (t p : Nat), isFinite c = true → 1 ≤ t → t ≤ 255 → 1 ≤ p → p < 2 ^ 31 →
    (quant1 c t p).natAbs ≤ 2 ^ 31 →
    let result := deq1 (quant1 c t p) t p
    |realValue result - realValue c| ≤ (t : Rat) * ((p : Rat) / 2 ^ 16) / 32 + halfUlp result

/-- 41_quantizer R195: a larger quality parameter never gives a larger quantized magnitude. -/
def Obligations.QuantizationMonotone : Prop :=
  ∀ (c : B64) (t p1 p2 : Nat), isFinite c = true → 1 ≤ t → 1 ≤ p1 → p1 < p2 →
    (quant1 c t p2).natAbs ≤ (quant1 c t p1).natAbs

/-- 41_quantizer R204: QUANT1 and DEQ1 are odd-symmetric (as real values: −0.0 and +0.0 are the same one). -/
def Obligations.QuantizerOdd : Prop :=
  ∀ (c : B64) (q : Int) (t p : Nat), isFinite c = true → 1 ≤ t → t ≤ 255 → 1 ≤ p → p < 2 ^ 31 → q.natAbs ≤ 2 ^ 31 →
    quant1 (negate c) t p = - quant1 c t p ∧ realValue (deq1 (-q) t p) = - realValue (deq1 q t p)

/-- 42_region R224: PIX of a finite value is its clamp to [0, 255] rounded half to even, or truncated. -/
def Obligations.PixelRounding : Prop :=
  ∀ v : B64, isFinite v = true →
    let r := max 0 (min 255 (realValue v))
    IsRhe ((pix .rhe v).toNat : Int) r ∧
      ((pix .trunc v).toNat : Rat) ≤ r ∧ r < ((pix .trunc v).toNat : Rat) + 1

/-! ## Block moves -/

/-- 42_region R221, R222, R225, R227: LDBLK of a luma block loads the 64 samples of its quadrant, and of a chroma block the
mean of each 2×2 square of the tile's plane rounded half up, as the binary64 values equal to them. -/
def Obligations.LdblkLoadsBlock : Prop :=
  ∀ (s : State) (rd : Fin 4) (b : BitVec 3) (m : BitVec 16), b.toNat < 6 →
    dimsValid s.cfg s.width.toNat s.height.toNat = true → m.toNat < s.tiles →
    ∃ x, exec (.ldblk rd b m) s = .next (loadRb rd x s) ∧
      (b.toNat ≤ 3 → ∀ i j : Fin 8,
        IsExactly (elem x i j) (s.byteAt (0x100000 +
          (16 * (m.toNat / (s.width.toNat / 16)) + 8 * (b.toNat / 2) + i.val) * s.cfg.maxW +
          (16 * (m.toNat % (s.width.toNat / 16)) + 8 * (b.toNat % 2) + j.val))).toNat) ∧
      (4 ≤ b.toNat → ∀ i j : Fin 8,
        let a := 0x100000 + (b.toNat - 3) * 0x100000 +
          (16 * (m.toNat / (s.width.toNat / 16)) + 2 * i.val) * s.cfg.maxW +
          (16 * (m.toNat % (s.width.toNat / 16)) + 2 * j.val)
        IsExactly (elem x i j) (((s.byteAt a).toNat + (s.byteAt (a + 1)).toNat + (s.byteAt (a + s.cfg.maxW)).toNat +
          (s.byteAt (a + s.cfg.maxW + 1)).toNat + 2) / 4))

/-- 42_region R224, R226, R228: STBLK of a luma block writes the pixels of RB[RS] to the 64 samples of its quadrant of OUT
and leaves every other byte of memory. -/
def Obligations.StblkLuma : Prop :=
  ∀ (s : State) (rs : Fin 4) (b : BitVec 3) (m : BitVec 16), b.toNat ≤ 3 →
    dimsValid s.cfg s.width.toNat s.height.toNat = true → m.toNat < s.tiles → rbWritten s rs →
    ∃ mem, exec (.stblk rs b m) s = .next (succeed { s with mem := mem }) ∧
      let at' := fun i j : Fin 8 => outAddr s.cfg 0 (tileX s.tpr m.toNat + lumaX b.toNat + j.val)
        (tileY s.tpr m.toNat + lumaY b.toNat + i.val)
      (∀ i j, mem.lookup (at' i j) = some (pix s.cfg.pixRound (elem s.rb[rs].vals i j))) ∧
      (∀ a, (∀ i j, a ≠ at' i j) → mem.lookup a = s.mem.lookup a)

/-- 42_region R223, R226, R228: STBLK of a chroma block writes each pixel of RB[RS] to its 2×2 square of the tile's 16×16
region of the OUT plane and leaves every other byte of memory. -/
def Obligations.StblkChroma : Prop :=
  ∀ (s : State) (rs : Fin 4) (b : BitVec 3) (m : BitVec 16), 4 ≤ b.toNat → b.toNat ≤ 5 →
    dimsValid s.cfg s.width.toNat s.height.toNat = true → m.toNat < s.tiles → rbWritten s rs →
    ∃ mem, exec (.stblk rs b m) s = .next (succeed { s with mem := mem }) ∧
      let at' := fun (i j : Fin 8) (e a : Fin 2) => outAddr s.cfg (b.toNat - 3)
        (tileX s.tpr m.toNat + 2 * j.val + a.val) (tileY s.tpr m.toNat + 2 * i.val + e.val)
      (∀ i j e a, mem.lookup (at' i j e a) = some (pix s.cfg.pixRound (elem s.rb[rs].vals i j))) ∧
      (∀ x, (∀ i j e a, x ≠ at' i j e a) → mem.lookup x = s.mem.lookup x)

/-- 42_region R229, 10_state R76: LDQ copies `Coef[MBI][BSEL]`, little-endian, into QB[RD], whatever WIDTH, HEIGHT and P. -/
def Obligations.LdqCopies : Prop :=
  ∀ (s : State) (rd : Fin 4) (b : BitVec 3) (m : BitVec 16), b.toNat < 6 →
    m.toNat < (s.cfg.maxW / 16) * (s.cfg.maxH / 16) →
    ∃ q, exec (.ldq rd b m) s = .next (loadQb rd q s) ∧ ∀ i j : Fin 8,
      let a := 0x800000 + 1536 * m.toNat + 256 * b.toNat + 4 * (8 * i.val + j.val)
      (elem q i j).toNat = (s.byteAt a).toNat + 256 * (s.byteAt (a + 1)).toNat + 65536 * (s.byteAt (a + 2)).toNat +
        16777216 * (s.byteAt (a + 3)).toNat

/-- 42_region R230, 10_state R76: STQ copies QB[RS] to the 256 bytes of `Coef[MBI][BSEL]`, little-endian, and leaves every
other byte of memory. -/
def Obligations.StqCopies : Prop :=
  ∀ (s : State) (rs : Fin 4) (b : BitVec 3) (m : BitVec 16), b.toNat < 6 →
    m.toNat < (s.cfg.maxW / 16) * (s.cfg.maxH / 16) → qbWritten s rs →
    ∃ mem, exec (.stq rs b m) s = .next (succeed { s with mem := mem }) ∧
      let base := 0x800000 + 1536 * m.toNat + 256 * b.toNat
      (∀ (i j : Fin 8) (n : Fin 4), mem.lookup (base + 4 * (8 * i.val + j.val) + n.val) =
        some (BitVec.ofNat 8 ((elem s.qb[rs].vals i j).toNat / 256 ^ n.val))) ∧
      (∀ a, a < base ∨ base + 256 ≤ a → mem.lookup a = s.mem.lookup a)

/-- 42_region R231: for valid dimensions every sample of the picture lies in exactly one tile of 0..TILES−1, and within a
tile in exactly one quadrant; and the tiles lie inside the picture. -/
def Obligations.TilesPartition : Prop :=
  ∀ (c : Params) (w h x y : Nat), dimsValid c w h = true → x < w → y < h →
    (∃! m, m < (w / 16) * (h / 16) ∧ tileX (w / 16) m ≤ x ∧ x < tileX (w / 16) m + 16 ∧ tileY (w / 16) m ≤ y ∧
      y < tileY (w / 16) m + 16) ∧
    (∀ m, m < (w / 16) * (h / 16) → tileX (w / 16) m + 16 ≤ w ∧ tileY (w / 16) m + 16 ≤ h) ∧
    (x < 16 → y < 16 → ∃! b, b < 4 ∧ lumaX b ≤ x ∧ x < lumaX b + 8 ∧ lumaY b ≤ y ∧ y < lumaY b + 8)

/-! ## Macroblocks and pictures -/

/-- 43_macroblock R250, R251: for every XFORM_IMPL, if every element of `QUANTIZE(FWD(BLOCK_IN(m, b)))` of the six blocks b is
an int32, CODE_MB puts those blocks in order into slot m, and leaves every byte of memory outside the slot's 1536, and
everything else but the completion. Under REF64, and under BOUNDED(EPS) with EPS <= 2^-20, every element is an int32
(41_quantizer R203). -/
def Obligations.CodeMbFillsSlot : Prop :=
  ∀ (s : State) (m : BitVec 16), s.cfg.Valid →
    dimsValid s.cfg s.width.toNat s.height.toNat = true → 0 < s.p.toInt → m.toNat < s.tiles →
    let q := fun b => quantize s.cfg s.p.toInt.toNat (fwd s.cfg s.draws (6 * m.toNat + b) (s.blockIn m.toNat b))
    let fits := ∀ b < 6, ∀ i j, -2 ^ 31 ≤ elem (q b) i j ∧ elem (q b) i j ≤ 2 ^ 31 - 1
    (accurate s.cfg.impl → fits) ∧
    (fits → ∃ t, exec (.codeMb m) s = .next t ∧ t = succeed { s with mem := t.mem } ∧
      (∀ b < 6, t.coef m.toNat b = toWords (q b)) ∧
      (∀ a, a < 0x800000 + 1536 * m.toNat ∨ 0x800000 + 1536 * m.toNat + 1536 ≤ a →
        t.mem.lookup a = s.mem.lookup a))

/-- 43_macroblock R252, R253: RECON_MB rebuilds the 16×16 tile of each OUT plane from slot m: luma from its
four quadrant blocks, each chroma plane from its block with every sample doubled both ways; every other byte of memory, and
everything else but the completion, stays. -/
def Obligations.ReconMbRebuildsTile : Prop :=
  ∀ (s : State) (m : BitVec 16), s.cfg.Valid →
    dimsValid s.cfg s.width.toNat s.height.toNat = true → 0 < s.p.toInt → m.toNat < s.tiles →
    ∃ t, exec (.reconMb m) s = .next t ∧ t = succeed { s with mem := t.mem } ∧
      let X := fun b => mapBlock clamp
        (inv s.cfg s.draws (6 * m.toNat + b) (dequantize s.cfg s.p.toInt.toNat (s.coef m.toNat b)))
      let at' := fun c (x y : Fin 16) => outAddr s.cfg c (tileX s.tpr m.toNat + x.val) (tileY s.tpr m.toNat + y.val)
      (∀ x y : Fin 16, t.mem.lookup (at' 0 x y) = some (pix s.cfg.pixRound
        (elem (X (2 * (y.val / 8) + x.val / 8)) ⟨y.val % 8, Nat.mod_lt _ (Nat.zero_lt_succ 7)⟩
          ⟨x.val % 8, Nat.mod_lt _ (Nat.zero_lt_succ 7)⟩))) ∧
      (∀ c, 1 ≤ c → c ≤ 2 → ∀ x y : Fin 16, t.mem.lookup (at' c x y) = some (pix s.cfg.pixRound
        (elem (X (3 + c)) ⟨y.val / 2 % 8, Nat.mod_lt _ (Nat.zero_lt_succ 7)⟩
          ⟨x.val / 2 % 8, Nat.mod_lt _ (Nat.zero_lt_succ 7)⟩))) ∧
      (∀ a, (∀ c, c ≤ 2 → ∀ x y, a ≠ at' c x y) → t.mem.lookup a = s.mem.lookup a)

/-- 44_picture_coder R265, R266, R267, R270: for every XFORM_IMPL, if every element that the coding of the tiles gives is an
int32, CODE_PIC codes the tile of every macroblock m < TILES into slot m, sets MB_COUNT to TILES, and leaves every other
byte of memory, and everything else but the completion. Under REF64, and under BOUNDED(EPS) with EPS <= 2^-20, every element
is an int32 (41_quantizer R203). -/
def Obligations.CodePicCodesPicture : Prop :=
  ∀ s : State, s.cfg.Valid → dimsValid s.cfg s.width.toNat s.height.toNat = true → 0 < s.p.toInt →
    let q := fun m b => quantize s.cfg s.p.toInt.toNat (fwd s.cfg s.draws (6 * m + b) (s.blockIn m b))
    let fits := ∀ m < s.tiles, ∀ b < 6, ∀ i j, -2 ^ 31 ≤ elem (q m b) i j ∧ elem (q m b) i j ≤ 2 ^ 31 - 1
    (accurate s.cfg.impl → fits) ∧
    (fits → ∃ t, exec .codePic s = .next t ∧ t = succeed { s with mem := t.mem, mbCount := t.mbCount } ∧
      t.mbCount.toNat = (s.width.toNat / 16) * (s.height.toNat / 16) ∧
      (∀ m < s.tiles, ∀ b < 6, t.coef m b = toWords (q m b)) ∧
      (∀ a, a < 0x800000 ∨ 0x800000 + 1536 * s.tiles ≤ a → t.mem.lookup a = s.mem.lookup a))

/-- 45_picture_reconstructor R275, R277, R278, R279, R281: RECON_PIC writes every sample (c, x, y) with x < W
and y < H from the slot of its tile, and leaves every other byte of memory, and everything else but the completion. -/
def Obligations.ReconPicRebuildsPicture : Prop :=
  ∀ s : State, s.cfg.Valid → dimsValid s.cfg s.width.toNat s.height.toNat = true →
    0 < s.p.toInt → s.mbCount.toNat = s.tiles →
    ∃ t, exec .reconPic s = .next t ∧ t = succeed { s with mem := t.mem } ∧
      let X := fun m b => mapBlock clamp
        (inv s.cfg s.draws (6 * m + b) (dequantize s.cfg s.p.toInt.toNat (s.coef m b)))
      let slot := fun x y => y / 16 * (s.width.toNat / 16) + x / 16
      (∀ x y, x < s.width.toNat → y < s.height.toNat →
        t.mem.lookup (outAddr s.cfg 0 x y) = some (pix s.cfg.pixRound
          (elem (X (slot x y) (2 * (y / 8 % 2) + x / 8 % 2)) ⟨y % 8, Nat.mod_lt _ (Nat.zero_lt_succ 7)⟩
            ⟨x % 8, Nat.mod_lt _ (Nat.zero_lt_succ 7)⟩)) ∧
        ∀ c, 1 ≤ c → c ≤ 2 → t.mem.lookup (outAddr s.cfg c x y) = some (pix s.cfg.pixRound
          (elem (X (slot x y) (3 + c)) ⟨y / 2 % 8, Nat.mod_lt _ (Nat.zero_lt_succ 7)⟩
            ⟨x / 2 % 8, Nat.mod_lt _ (Nat.zero_lt_succ 7)⟩))) ∧
      (∀ a, (∀ c x y, c ≤ 2 → x < s.width.toNat → y < s.height.toNat → a ≠ outAddr s.cfg c x y) →
        t.mem.lookup a = s.mem.lookup a)

/-- 43_macroblock R256: under REF64, CODE_MB leaves memory as LDBLK, C2Q and STQ of each of its blocks do, once the samples
of the tile have been written, and RECON_MB as LDQ, Q2C and STBLK of each of its blocks do, once the slot has been written;
in any registers. -/
def Obligations.MacroblockIsItsBlockSequence : Prop :=
  ∀ (s : State) (m : BitVec 16) (r q : Fin 4), s.cfg.Valid → s.cfg.impl = .ref64 →
    dimsValid s.cfg s.width.toNat s.height.toNat = true → 0 < s.p.toInt → m.toNat < s.tiles →
    ((∀ c ≤ 2, ∀ x y : Fin 16,
        s.mem.lookup (inAddr s.cfg c (tileX s.tpr m.toNat + x.val) (tileY s.tpr m.toNat + y.val)) ≠ none) →
      ∃ t u, exec (.codeMb m) s = .next t ∧ runAll (codeMbSequence r q m) s = some u ∧
        ∀ a, u.mem.lookup a = t.mem.lookup a) ∧
    ((∀ k < 1536, s.mem.lookup (0x800000 + 1536 * m.toNat + k) ≠ none) →
      ∃ t u, exec (.reconMb m) s = .next t ∧ runAll (reconMbSequence r q m) s = some u ∧
        ∀ a, u.mem.lookup a = t.mem.lookup a)

/-! ## Host accesses -/

/-- 20_memory R110, 60_exceptions R315, R316, 70_reset R353: a host write gets a bus error exactly under (a)–(d), and a host
read exactly under (a)–(b), whatever BUSY is (log 9); then nothing changes but STATUS.BUSERR, and a read's data is 0.
Otherwise a read changes nothing and answers OK, a register giving its current value also while BUSY = 1. -/
def Obligations.BusErrors : Prop :=
  ∀ (s : State) (addr : Offset) (n : Width) (v : BitVec 64),
    (badPlace s.cfg addr.toNat n ∨ badWidth s.cfg addr.toNat n →
      s.hostRead addr n = busErrored (.busErrorData n 0) s) ∧
    (¬ (badPlace s.cfg addr.toNat n ∨ badWidth s.cfg addr.toNat n) →
      (∃ d, s.hostRead addr n = answered (.okData n d) s) ∧
      (regionOf s.cfg addr.toNat = some .regs →
        s.hostRead addr n = answered (.okData n ((s.readReg addr.toNat).setWidth 64)) s)) ∧
    (badPlace s.cfg addr.toNat n ∨ badWidth s.cfg addr.toNat n ∨ isReadOnly addr.toNat ∨
        (s.phase = .busy ∧ addr.toNat ≠ 0x008 ∧ addr.toNat ≠ 0x00C) →
      s.hostWrite addr n v = busErrored .busError s) ∧
    (¬ (badPlace s.cfg addr.toNat n ∨ badWidth s.cfg addr.toNat n ∨ isReadOnly addr.toNat ∨
        (s.phase = .busy ∧ addr.toNat ≠ 0x008 ∧ addr.toNat ≠ 0x00C)) →
      (s.hostWrite addr n v).resp = some .ok ∧
        (addr.toNat ≠ 0x00C → (s.hostWrite addr n v).busErr = s.busErr))

/-- 10_state R44, R45, R53, R59, R60: ID, VERSION, MAXDIM and the QTABLE window read as their constants in every state and
a write to them is a bus error; every access to 0x028–0x0FF and 0x200–0xFFF is a bus error. -/
def Obligations.ReadOnlyRegisters : Prop :=
  ∀ (s : State) (v : BitVec 64), s.cfg.Valid →
    s.hostRead 0x000000 .b4 = answered (.okData .b4 0x38515442) s ∧
    s.hostRead 0x000004 .b4 = answered (.okData .b4 0x00000001) s ∧
    s.hostRead 0x000024 .b4 = answered (.okData .b4 (BitVec.ofNat 64 (s.cfg.maxH * 65536 + s.cfg.maxW))) s ∧
    (∀ a : Offset, (a = 0x000000 ∨ a = 0x000004 ∨ a = 0x000024) → s.hostWrite a .b4 v = busErrored .busError s) ∧
    (∀ k : Fin 64,
      s.hostRead (BitVec.ofNat 24 (0x100 + 4 * k.val)) .b4 =
        answered (.okData .b4 (BitVec.ofNat 64 (s.cfg.qtable[k]).toNat)) s ∧
      s.hostWrite (BitVec.ofNat 24 (0x100 + 4 * k.val)) .b4 v = busErrored .busError s) ∧
    (∀ (a : Offset) (n : Width), (0x028 ≤ a.toNat ∧ a.toNat < 0x100) ∨ (0x200 ≤ a.toNat ∧ a.toNat < 0x1000) →
      s.hostRead a n = busErrored (.busErrorData n 0) s ∧ s.hostWrite a n v = busErrored .busError s)

/-- 10_state R46, R61: a write to CTRL, also while BUSY = 1, stores IE and nothing else; a read gives IE and 0 elsewhere;
irq is IE and (DONE or ERR); and after reset CTRL and irq are 0. -/
def Obligations.CtrlRegister : Prop :=
  ∀ (s : State) (v : BitVec 64),
    s.hostWrite 0x000008 .b4 v = answered .ok { s with ie := v.getLsbD 0 } ∧
    (s.hostWrite 0x000008 .b4 v).hostRead 0x000008 .b4 =
      answered (.okData .b4 (v &&& 1)) (answered .ok { s with ie := v.getLsbD 0 }) ∧
    (s.irq = true ↔ s.ie = true ∧ (s.done = true ∨ s.err = true)) ∧
    (∀ c, (State.resetWith c).ctrl = 0 ∧ (State.resetWith c).irq = false)

/-- 10_state R47: the layout of STATUS as the host reads it, and its write: 1 clears DONE, ERR with ERRCODE, or BUSERR,
and every other bit is ignored; never a bus error, also while BUSY = 1. -/
def Obligations.StatusRegister : Prop :=
  ∀ (s : State) (v : BitVec 64),
    s.hostRead 0x00000C .b4 = answered (.okData .b4 (BitVec.ofNat 64
      ((if s.phase = .busy then 1 else 0) + (if s.done then 2 else 0) + (if s.err then 4 else 0) +
        (if s.busErr then 8 else 0) + 256 * s.errCode.toNat))) s ∧
    s.hostWrite 0x00000C .b4 v = answered .ok { s with
      done := if v.getLsbD 1 then false else s.done
      err := if v.getLsbD 2 then false else s.err
      errCode := if v.getLsbD 2 then 0 else s.errCode
      busErr := if v.getLsbD 3 then false else s.busErr }

/-- 46_control R285, 10_state R52, R54, R56, R57, R58, 70_reset R351, R352: while BUSY = 0 a write to CMD is accepted,
whatever the word, and changes CMD, LC and the phase only; P, WIDTH, HEIGHT and MB_COUNT store all 32 bits; each reads
back as written; and while BUSY = 1 every such write is ignored and is a bus error. -/
def Obligations.CommandAndConfigurationRegisters : Prop :=
  ∀ (s : State) (v : BitVec 64),
    (s.phase = .idle →
      s.hostWrite 0x000010 .b4 v =
        answered .ok { s with cmd := v.setWidth 32, lc := v.setWidth 32, phase := .busy } ∧
      s.hostWrite 0x000014 .b4 v = answered .ok { s with p := v.setWidth 32 } ∧
      s.hostWrite 0x000018 .b4 v = answered .ok { s with width := v.setWidth 32 } ∧
      s.hostWrite 0x00001C .b4 v = answered .ok { s with height := v.setWidth 32 } ∧
      s.hostWrite 0x000020 .b4 v = answered .ok { s with mbCount := v.setWidth 32 }) ∧
    (∀ a : Offset, (a = 0x000010 ∨ a = 0x000014 ∨ a = 0x000018 ∨ a = 0x00001C ∨ a = 0x000020) →
      (s.phase = .idle →
        ((s.hostWrite a .b4 v).hostRead a .b4).resp = some (.okData .b4 ((v.setWidth 32).setWidth 64))) ∧
      (s.phase = .busy → s.hostWrite a .b4 v = busErrored .busError s))

/-- 10_state R63, 20_memory R105, R110: while BUSY = 0, an 8-byte read of RBWIN gives the bits of a written element, and a
4-byte read at its lower or upper half bits 31:0 or 63:32; and a write at any offset 0x001000–0x0017FF, of any width,
whatever has been written and whatever BUSY is, is a bus error. -/
def Obligations.RbWindow : Prop :=
  ∀ s : State,
    (∀ (r : Fin 4) (i j : Fin 8), s.phase = .idle → elem s.rb[r].written i j = true →
      let a := 0x001000 + 512 * r.val + 8 * (8 * i.val + j.val)
      s.hostRead (BitVec.ofNat 24 a) .b8 = answered (.okData .b8 (elem s.rb[r].vals i j)) s ∧
      s.hostRead (BitVec.ofNat 24 a) .b4 = answered (.okData .b4 (elem s.rb[r].vals i j &&& 0xFFFFFFFF)) s ∧
      s.hostRead (BitVec.ofNat 24 (a + 4)) .b4 = answered (.okData .b4 (elem s.rb[r].vals i j >>> 32)) s) ∧
    (∀ (a : Offset) (n : Width) (v : BitVec 64), 0x001000 ≤ a.toNat → a.toNat < 0x001800 →
      s.hostWrite a n v = busErrored .busError s)

/-- 10_state R65, 20_memory R105: while BUSY = 0, a 4-byte write of QBWIN sets one element and no other, and a read gives it
back; an 8-byte write sets two elements and no other, the lower one from bits 31:0, and reads back whole; and an 8-byte read
of two written elements gives both. -/
def Obligations.QbWindow : Prop :=
  ∀ (s : State) (r : Fin 4) (i j : Fin 8) (v : BitVec 64), s.phase = .idle →
    let a := 0x002000 + 256 * r.val + 4 * (8 * i.val + j.val)
    (let t := s.hostWrite (BitVec.ofNat 24 a) .b4 v
     t = answered .ok { s with qb := t.qb } ∧
     (∀ r' i' j', elem t.qb[r'].vals i' j' =
        if r' = r ∧ i' = i ∧ j' = j then v.setWidth 32 else elem s.qb[r'].vals i' j') ∧
     (∀ r' i' j', elem t.qb[r'].written i' j' =
        if r' = r ∧ i' = i ∧ j' = j then true else elem s.qb[r'].written i' j') ∧
     (t.hostRead (BitVec.ofNat 24 a) .b4).resp = some (.okData .b4 ((v.setWidth 32).setWidth 64))) ∧
    (∀ j1 : Fin 8, j.val % 2 = 0 → j1.val = j.val + 1 →
      (let t := s.hostWrite (BitVec.ofNat 24 a) .b8 v
       t = answered .ok { s with qb := t.qb } ∧
       (∀ r' i' j', elem t.qb[r'].vals i' j' =
          if r' = r ∧ i' = i ∧ j' = j then v.setWidth 32
          else if r' = r ∧ i' = i ∧ j' = j1 then (v >>> 32).setWidth 32 else elem s.qb[r'].vals i' j') ∧
       (∀ r' i' j', elem t.qb[r'].written i' j' =
          if r' = r ∧ i' = i ∧ (j' = j ∨ j' = j1) then true else elem s.qb[r'].written i' j') ∧
       (t.hostRead (BitVec.ofNat 24 a) .b8).resp = some (.okData .b8 v)) ∧
      (elem s.qb[r].written i j = true → elem s.qb[r].written i j1 = true →
        s.hostRead (BitVec.ofNat 24 a) .b8 =
          answered (.okData .b8 (elem s.qb[r].vals i j1 ++ elem s.qb[r].vals i j)) s))

/-- 10_state R71, 20_memory R103, R105, R109: while BUSY = 0, sample (c, x, y) of IN or OUT is the byte at its address, and
an access of 1, 2, 4 or 8 bytes takes the samples from x on: a write stores the bytes of its value, lowest first, and no
other byte, and reads back; and a read gives each byte that is stored, or the draw of one that is not. -/
def Obligations.PictureSamples : Prop :=
  ∀ (s : State) (base c x y : Nat) (n : Width) (v : BitVec 64), s.cfg.Valid → s.phase = .idle → c ≤ 2 →
    x < s.cfg.maxW → y < s.cfg.maxH → x % widthBytes n = 0 → (base = 0x100000 ∨ base = 0x400000) →
    let a := base + c * 0x100000 + y * s.cfg.maxW + x
    let t := s.hostWrite (BitVec.ofNat 24 a) n v
    t = answered .ok { s with mem := t.mem } ∧
    (∀ b, t.mem.lookup b = if a ≤ b ∧ b < a + widthBytes n then some (BitVec.ofNat 8 (v.toNat / 256 ^ (b - a)))
      else s.mem.lookup b) ∧
    (t.hostRead (BitVec.ofNat 24 a) n).resp = some (.okData n (BitVec.ofNat 64 (v.toNat % 256 ^ widthBytes n))) ∧
    (∃ d, s.hostRead (BitVec.ofNat 24 a) n = answered (.okData n d) s ∧ d.toNat < 256 ^ widthBytes n ∧
      ∀ i < widthBytes n, BitVec.ofNat 8 (d.toNat / 256 ^ i) =
        (s.mem.lookup (a + i)).getD (Config.drawByte s.draws (a + i)))

/-- 10_state R76, 20_memory R103, R105, R108: while BUSY = 0, a 4-byte write at the address of `Coef[m][b][i][j]` stores that
element, and an 8-byte one it and its neighbour, little-endian; no other byte of memory changes, and the write reads back;
and a read gives each byte that is stored, or the draw of one that is not. -/
def Obligations.CoefficientElements : Prop :=
  ∀ (s : State) (m b : Nat) (i j : Fin 8) (n : Width) (v : BitVec 64), s.cfg.Valid → s.phase = .idle →
    m < (s.cfg.maxW / 16) * (s.cfg.maxH / 16) → b < 6 → (n = .b4 ∨ (n = .b8 ∧ j.val % 2 = 0)) →
    let a := 0x800000 + 1536 * m + 256 * b + 4 * (8 * i.val + j.val)
    let t := s.hostWrite (BitVec.ofNat 24 a) n v
    t = answered .ok { s with mem := t.mem } ∧ elem (t.coef m b) i j = v.setWidth 32 ∧
    (∀ j1 : Fin 8, n = .b8 → j1.val = j.val + 1 → elem (t.coef m b) i j1 = (v >>> 32).setWidth 32) ∧
    (∀ x, t.mem.lookup x = if a ≤ x ∧ x < a + widthBytes n then some (BitVec.ofNat 8 (v.toNat / 256 ^ (x - a)))
      else s.mem.lookup x) ∧
    (t.hostRead (BitVec.ofNat 24 a) n).resp = some (.okData n (BitVec.ofNat 64 (v.toNat % 256 ^ widthBytes n))) ∧
    (∃ d, s.hostRead (BitVec.ofNat 24 a) n = answered (.okData n d) s ∧ d.toNat < 256 ^ widthBytes n ∧
      ∀ k < widthBytes n, BitVec.ofNat 8 (d.toNat / 256 ^ k) =
        (s.mem.lookup (a + k)).getD (Config.drawByte s.draws (a + k)))

/-- 70_reset R354: a host's clear of DONE and the completion of a command, in either order: clear first leaves DONE = 1,
completion first loses it. -/
def Obligations.DoneRace : Prop :=
  ∀ (s t : State) (i : Instr), s.phase = .busy → decode s.lc = .ok i → exec i s = .next t →
    (t.hostWrite 0x00000C .b4 2).done = false ∧
    ∃ u, engineStep (s.hostWrite 0x00000C .b4 2) = .next u ∧ u.done = true
end

