-- ==== Sys2Proof/Laws/Memory.lean ====
section
/-! SUPPORT. Memory: what a read sees after a write, that every write keeps the canonical form, and the little-endian
round trip. -/

namespace Sys2Proof.Machine

theorem pow2_eq (e : Nat) : pow2 e = 2 ^ e := by simp [pow2, Nat.shiftLeft_eq]

/-! ## Little-endian bytes -/

@[simp] theorem length_leBytes (n v : Nat) : (leBytes n v).length = n := by
  induction n generalizing v with
  | zero => rfl
  | succ n ih => simp [leBytes, ih]

theorem leNat_leBytes (n v : Nat) : leNat (leBytes n v) = v % 256 ^ n := by
  induction n generalizing v with
  | zero => simp [leBytes, leNat, Nat.mod_one]
  | succ n ih =>
    simp only [leBytes, leNat, ih, BitVec.toNat_ofNat]
    rw [show 256 ^ (n + 1) = 256 * 256 ^ n by ring, Nat.mod_mul]

/-! ## Cells -/

@[simp] theorem length_cellsFrom (a : Nat) (bs : List Byte) : (cellsFrom a bs).length = bs.length := by
  induction bs generalizing a with
  | nil => rfl
  | cons b bs ih => simp [cellsFrom, ih]

theorem mem_cellsFrom {a : Nat} {bs : List Byte} {x : Host.Cell} (h : x ∈ cellsFrom a bs) :
    a ≤ x.1 ∧ x.1 < a + bs.length := by
  induction bs generalizing a with
  | nil => simp [cellsFrom] at h
  | cons b bs ih =>
    simp only [cellsFrom, List.mem_cons] at h
    rcases h with rfl | h
    · simp
    · have := ih h
      simp only [List.length_cons]
      omega

theorem pairwise_cellsFrom (a : Nat) (bs : List Byte) : (cellsFrom a bs).Pairwise fun x y => x.1 < y.1 := by
  induction bs generalizing a with
  | nil => simp [cellsFrom]
  | cons b bs ih =>
    simp only [cellsFrom, List.pairwise_cons]
    exact ⟨fun y hy => (mem_cellsFrom hy).1, ih _⟩

theorem lookup_cellsFrom (a : Nat) (bs : List Byte) (x : Nat) :
    Memory.lookup (cellsFrom a bs) x = if a ≤ x then bs[x - a]? else none := by
  induction bs generalizing a with
  | nil => simp [cellsFrom, Memory.lookup]
  | cons b bs ih =>
    have step : Memory.lookup (cellsFrom a (b :: bs)) x =
        if a = x then some b else Memory.lookup (cellsFrom (a + 1) bs) x := by
      by_cases h : a = x <;> simp [cellsFrom, Memory.lookup, h]
    rw [step, ih]
    rcases Nat.lt_trichotomy a x with h | rfl | h
    · have h1 : a ≠ x := by omega
      have h2 : a + 1 ≤ x := h
      have h3 : a ≤ x := by omega
      have h4 : x - a = (x - (a + 1)) + 1 := by omega
      simp [h1, h2, h3, h4]
    · simp
    · have h1 : a ≠ x := by omega
      have h2 : ¬ a + 1 ≤ x := by omega
      have h3 : ¬ a ≤ x := by omega
      simp [h1, h2, h3]

/-! ## Reads after writes -/

@[simp] theorem lookup_nil (x : Nat) : Memory.lookup [] x = none := rfl

theorem lookup_append (m n : Memory) (x : Nat) :
    Memory.lookup (m ++ n) x = (Memory.lookup m x).or (Memory.lookup n x) := by
  unfold Memory.lookup
  rw [List.find?_append]
  cases List.find? (fun y => y.1 == x) m <;> simp

theorem lookup_filter_of (m : Memory) (p : Host.Cell → Bool) (x : Nat)
    (h : ∀ y : Host.Cell, y.1 = x → p y = true) :
    Memory.lookup (m.filter p) x = Memory.lookup m x := by
  unfold Memory.lookup
  rw [List.find?_filter]
  congr 2
  funext y
  by_cases hy : y.1 = x
  · simp [hy, h y hy]
  · simp [hy]

theorem lookup_filter_none (m : Memory) (p : Host.Cell → Bool) (x : Nat)
    (h : ∀ y : Host.Cell, y.1 = x → p y = false) :
    Memory.lookup (m.filter p) x = none := by
  unfold Memory.lookup
  rw [List.find?_filter, Option.map_eq_none_iff, List.find?_eq_none]
  intro y _
  by_cases hy : y.1 = x
  · simp [h y hy]
  · simp [hy]

/-- A read after a write of consecutive bytes: the bytes written where they lie, everything else as before. -/
theorem lookup_write (m : Memory) (a : Nat) (bs : List Byte) (x : Nat) :
    (m.write a bs).lookup x =
      if a ≤ x ∧ x < a + bs.length then bs[x - a]? else m.lookup x := by
  unfold Memory.write
  rw [lookup_append, lookup_append, lookup_cellsFrom]
  by_cases h1 : x < a
  · have : ¬ a ≤ x := by omega
    rw [lookup_filter_of m _ x (by rintro y rfl; simpa using h1),
      lookup_filter_none m _ x (by rintro y rfl; simp; omega)]
    simp [this]
  · have h2 : a ≤ x := by omega
    rw [lookup_filter_none m _ x (by rintro y rfl; simpa using h1)]
    by_cases h3 : x < a + bs.length
    · rw [lookup_filter_none m _ x (by rintro y rfl; simpa using h3)]
      simp [h2, h3]
    · rw [lookup_filter_of m _ x (by rintro y rfl; simp; omega)]
      have : bs[x - a]? = none := by rw [List.getElem?_eq_none_iff]; omega
      simp [h2, h3, this]

theorem lookup_write_ne {m : Memory} {a x : Nat} {bs : List Byte} (h : x < a ∨ a + bs.length ≤ x) :
    (m.write a bs).lookup x = m.lookup x := by
  rw [lookup_write, if_neg]; omega

/-- A run of bytes that covers a window offset. -/
def covers (r : Nat × List Byte) (x : Nat) : Prop := r.1 ≤ x ∧ x < r.1 + r.2.length

/-- A window offset that no run covers reads as before. -/
theorem lookup_writeRuns_of_not_covered (runs : List (Nat × List Byte)) (m : Memory) (x : Nat)
    (h : ∀ r ∈ runs, ¬ covers r x) : (m.writeRuns runs).lookup x = m.lookup x := by
  induction runs generalizing m with
  | nil => rfl
  | cons r rs ih =>
    have h0 := h r (by simp)
    unfold covers at h0
    simp only [Memory.writeRuns, List.foldl_cons] at ih ⊢
    rw [ih _ (fun q hq => h q (by simp [hq])), lookup_write_ne (by omega)]

/-- Where every run that covers a window offset writes the byte `v` there, and one does, `v` is read. -/
theorem lookup_writeRuns_of_covered (runs : List (Nat × List Byte)) (m : Memory) (x : Nat) (v : Byte)
    (hex : ∃ r ∈ runs, covers r x) (hval : ∀ r ∈ runs, covers r x → r.2[x - r.1]? = some v) :
    (m.writeRuns runs).lookup x = some v := by
  induction runs generalizing m with
  | nil => simp at hex
  | cons r rs ih =>
    simp only [Memory.writeRuns, List.foldl_cons] at ih ⊢
    by_cases hrest : ∃ q ∈ rs, covers q x
    · exact ih _ hrest fun q hq => hval q (by simp [hq])
    · push Not at hrest
      have := lookup_writeRuns_of_not_covered rs (m.write r.1 r.2) x hrest
      simp only [Memory.writeRuns] at this
      rw [this]
      obtain ⟨q, hq, hc⟩ := hex
      rcases List.mem_cons.mp hq with rfl | hq'
      · have hv := hval q (by simp) hc
        unfold covers at hc
        rw [lookup_write, if_pos hc, hv]
      · exact absurd hc (hrest q hq')

/-! ## Canonical form -/

theorem wf_iff {m : Memory} : m.wf = true ↔ m.Pairwise fun x y => x.1 < y.1 := by simp [Memory.wf]

/-- A write keeps the canonical form. -/
theorem wf_write {m : Memory} (h : m.wf = true) (a : Nat) (bs : List Byte) : (m.write a bs).wf = true := by
  rw [wf_iff] at h ⊢
  unfold Memory.write
  rw [List.pairwise_append, List.pairwise_append]
  refine ⟨⟨h.filter _, pairwise_cellsFrom a bs, ?_⟩, h.filter _, ?_⟩
  · intro x hx y hy
    have := mem_cellsFrom hy
    simp at hx
    omega
  · intro x hx y hy
    simp only [List.mem_filter, decide_eq_true_eq, List.mem_append] at hx hy
    rcases hx with hx | hx
    · omega
    · have := mem_cellsFrom hx; omega

/-- Several writes keep the canonical form. -/
theorem wf_writeRuns {m : Memory} (h : m.wf = true) (runs : List (Nat × List Byte)) :
    (m.writeRuns runs).wf = true := by
  induction runs generalizing m with
  | nil => exact h
  | cons r rs ih => exact ih (wf_write h r.1 r.2)

/-- What a write lists lies in memory already or in the bytes written. -/
theorem mem_write {m : Memory} {a : Nat} {bs : List Byte} {x : Host.Cell} (h : x ∈ m.write a bs) :
    x ∈ m ∨ (a ≤ x.1 ∧ x.1 < a + bs.length) := by
  simp only [Memory.write, List.mem_append, List.mem_filter] at h
  rcases h with (h | h) | h
  · exact .inl h.1
  · exact .inr (mem_cellsFrom h)
  · exact .inl h.1

theorem mem_writeRuns {m : Memory} {runs : List (Nat × List Byte)} {x : Host.Cell} (h : x ∈ m.writeRuns runs) :
    x ∈ m ∨ ∃ r ∈ runs, covers r x.1 := by
  induction runs generalizing m with
  | nil => exact .inl h
  | cons r rs ih =>
    rcases ih (m := m.write r.1 r.2) h with h | ⟨q, hq, hc⟩
    · rcases mem_write h with h | h
      · exact .inl h
      · exact .inr ⟨r, by simp, h⟩
    · exact .inr ⟨q, by simp [hq], hc⟩

end Sys2Proof.Machine
end

