-- ==== Sys2Proof/Laws/Binary64.lean ====
section
/-! SUPPORT. The roundings of 00_scope R20 and R21: the fast logarithm is the logarithm, half-even rounding is
nearest, and the fields of a rounded binary64 value are what the rounding says. -/

namespace Sys2Proof.Machine

theorem unit64_pos : 0 < unit64 := by rw [unit64, pow2_eq]; positivity

theorem pow2_pos (e : Nat) : 0 < pow2 e := by rw [pow2_eq]; positivity

/-! ## The logarithm -/

theorem log2Steps_eq (k n : Nat) (hn : n ≠ 0) (hlt : n < 2 ^ 2 ^ k) :
    log2Steps ((List.range k).reverse.map fun i => 2 ^ i) n = n.log2 := by
  induction k generalizing n with
  | zero =>
    have : n = 1 := by simp at hlt; omega
    subst this; decide
  | succ k ih =>
    rw [List.range_succ]
    simp only [List.reverse_append, List.reverse_cons, List.reverse_nil, List.nil_append,
      List.map_cons, List.cons_append, log2Steps, pow2_eq]
    split
    · next h => exact ih n hn h
    · next h =>
      have hle : 2 ^ 2 ^ k ≤ n := by omega
      have hpos : n / 2 ^ 2 ^ k ≠ 0 := by
        have := Nat.div_pos hle (by positivity); omega
      have hlt' : n / 2 ^ 2 ^ k < 2 ^ 2 ^ k := by
        apply Nat.div_lt_of_lt_mul
        calc n < 2 ^ 2 ^ (k + 1) := hlt
          _ = 2 ^ 2 ^ k * 2 ^ 2 ^ k := by rw [← pow_add]; congr 1; ring
      rw [ih _ hpos hlt']
      symm
      rw [Nat.log2_eq_iff hn]
      have h1 : 2 ^ (n / 2 ^ 2 ^ k).log2 ≤ n / 2 ^ 2 ^ k := Nat.log2_self_le hpos
      have h2 : n / 2 ^ 2 ^ k < 2 ^ ((n / 2 ^ 2 ^ k).log2 + 1) := Nat.lt_log2_self
      constructor
      · rw [pow_add, Nat.mul_comm]
        exact (Nat.le_div_iff_mul_le (by positivity)).mp h1
      · have := (Nat.div_lt_iff_lt_mul (by positivity)).mp h2
        exact lt_of_lt_of_eq this (by rw [← pow_add]; congr 1; ring)

theorem floorLog2_eq (n : Nat) : floorLog2 n = n.log2 := by
  unfold floorLog2
  split
  · next h =>
    by_cases hn : n = 0
    · subst hn; decide
    · have h' : n < pow2 (2 ^ 12) := h
      exact log2Steps_eq 12 n hn (by rwa [pow2_eq] at h')
  · rfl

/-! ## Half-even rounding -/

/-- RHE is the quotient or the one above. -/
theorem roundHalfEven_bounds (n d : Nat) : n / d ≤ roundHalfEven n d ∧ roundHalfEven n d ≤ n / d + 1 := by
  unfold roundHalfEven; split_ifs <;> omega

/-- RHE errs by at most one half. -/
theorem roundHalfEven_error {n d : Nat} (hd : 0 < d) :
    2 * n ≤ 2 * (roundHalfEven n d * d) + d ∧ 2 * (roundHalfEven n d * d) ≤ 2 * n + d := by
  have h1 := Nat.div_add_mod n d
  have h2 := Nat.mod_lt n hd
  have h3 : n / d * d = d * (n / d) := Nat.mul_comm ..
  have h4 : (n / d + 1) * d = d * (n / d) + d := by ring
  unfold roundHalfEven
  split_ifs <;> simp only [h3, h4] <;> omega

/-- RHE is at least as near as any other integer. -/
theorem roundHalfEven_nearest {n d : Nat} (hd : 0 < d) (j : Nat) :
    |((roundHalfEven n d * d : Nat) : Int) - n| ≤ |((j * d : Nat) : Int) - n| := by
  have herr := roundHalfEven_error (n := n) hd
  rcases Nat.lt_trichotomy j (roundHalfEven n d) with h | h | h
  · have : (j + 1) * d ≤ roundHalfEven n d * d := Nat.mul_le_mul_right d h
    have h4 : (j + 1) * d = j * d + d := by ring
    rw [abs_le]
    have := le_abs_self (((j * d : Nat) : Int) - n)
    have := neg_abs_le (((j * d : Nat) : Int) - n)
    constructor <;> omega
  · rw [h]
  · have : (roundHalfEven n d + 1) * d ≤ j * d := Nat.mul_le_mul_right d h
    have h4 : (roundHalfEven n d + 1) * d = roundHalfEven n d * d + d := by ring
    rw [abs_le]
    have := le_abs_self (((j * d : Nat) : Int) - n)
    have := neg_abs_le (((j * d : Nat) : Int) - n)
    constructor <;> omega

/-- A tie goes to the even integer. -/
theorem roundHalfEven_tie {n d : Nat} (hd : 0 < d) {j : Nat} (hj : j ≠ roundHalfEven n d)
    (h : |((roundHalfEven n d * d : Nat) : Int) - n| = |((j * d : Nat) : Int) - n|) :
    roundHalfEven n d % 2 = 0 := by
  have h1 := Nat.div_add_mod n d
  have h2 := Nat.mod_lt n hd
  have herr := roundHalfEven_error (n := n) hd
  have htie : 2 * (n % d) = d := by
    have hb := roundHalfEven_bounds n d
    have h3 : n / d * d = d * (n / d) := Nat.mul_comm ..
    have hr : roundHalfEven n d * d = d * (n / d) ∨ roundHalfEven n d * d = d * (n / d) + d := by
      rcases (by omega : roundHalfEven n d = n / d ∨ roundHalfEven n d = n / d + 1) with e | e <;> rw [e]
      · exact .inl h3
      · right; ring
    rcases Nat.lt_or_gt_of_ne hj with hlt | hgt
    · have : (j + 1) * d ≤ roundHalfEven n d * d := Nat.mul_le_mul_right d hlt
      have h4 : (j + 1) * d = j * d + d := by ring
      rcases abs_cases (((roundHalfEven n d * d : Nat) : Int) - n) with ⟨e1, _⟩ | ⟨e1, _⟩ <;>
        rcases abs_cases (((j * d : Nat) : Int) - n) with ⟨e2, _⟩ | ⟨e2, _⟩ <;> omega
    · have : (roundHalfEven n d + 1) * d ≤ j * d := Nat.mul_le_mul_right d hgt
      have h4 : (roundHalfEven n d + 1) * d = roundHalfEven n d * d + d := by ring
      rcases abs_cases (((roundHalfEven n d * d : Nat) : Int) - n) with ⟨e1, _⟩ | ⟨e1, _⟩ <;>
        rcases abs_cases (((j * d : Nat) : Int) - n) with ⟨e2, _⟩ | ⟨e2, _⟩ <;> omega
  unfold roundHalfEven
  split_ifs <;> omega

/-- RHE is monotone in the rational, given as fractions of one denominator each. -/
theorem roundHalfEven_mono {n d n' d' : Nat} (hd : 0 < d) (hd' : 0 < d') (h : n * d' ≤ n' * d) :
    roundHalfEven n d ≤ roundHalfEven n' d' := by
  by_contra hlt
  push Not at hlt
  have e1 := roundHalfEven_error (n := n) hd
  have e2 := roundHalfEven_error (n := n') hd'
  have b1 := roundHalfEven_bounds n d
  have b2 := roundHalfEven_bounds n' d'
  have hfloor : n / d ≤ n' / d' := by
    rw [Nat.le_div_iff_mul_le hd']
    have : n / d * d ≤ n := Nat.div_mul_le_self n d
    have h1 : n / d * d' * d ≤ n' * d := by
      calc n / d * d' * d = n / d * d * d' := by ring
        _ ≤ n * d' := Nat.mul_le_mul_right d' this
        _ ≤ n' * d := h
    exact Nat.le_of_mul_le_mul_right h1 hd
  have hq : n / d = n' / d' := by omega
  have hr : roundHalfEven n d = n / d + 1 := by omega
  have hr' : roundHalfEven n' d' = n' / d' := by omega
  have m1 := Nat.div_add_mod n d
  have m2 := Nat.div_add_mod n' d'
  have l1 := Nat.mod_lt n hd
  have l2 := Nat.mod_lt n' hd'
  have up : d ≤ 2 * (n % d) := by
    unfold roundHalfEven at hr; split_ifs at hr <;> omega
  have down : 2 * (n' % d') ≤ d' := by
    unfold roundHalfEven at hr'; split_ifs at hr' <;> omega
  have hmod : n % d * d' ≤ n' % d' * d := by
    have h1 : n * d' = n / d * (d * d') + n % d * d' := by
      conv_lhs => rw [← m1]
      ring
    have h2 : n' * d = n / d * (d * d') + n' % d' * d := by
      conv_lhs => rw [← m2]
      rw [hq]; ring
    omega
  have k1 : d * d' ≤ 2 * (n % d) * d' := Nat.mul_le_mul_right d' up
  have k2 : 2 * (n' % d') * d ≤ d' * d := Nat.mul_le_mul_right d down
  have k3 : 2 * (n % d) * d' = 2 * (n % d * d') := by ring
  have k4 : 2 * (n' % d') * d = 2 * (n' % d' * d) := by ring
  have k5 : d' * d = d * d' := Nat.mul_comm ..
  have t1 : 2 * (n % d * d') = d * d' := by omega
  have t2 : 2 * (n' % d' * d) = d * d' := by omega
  have u1 : 2 * (n % d) = d := Nat.eq_of_mul_eq_mul_right hd' (by rw [k3, t1])
  have u2 : 2 * (n' % d') = d' := Nat.eq_of_mul_eq_mul_right hd (by rw [k4, t2, k5])
  unfold roundHalfEven at hr hr'
  split_ifs at hr hr' <;> omega

theorem roundHalfEven_mul_self (q : Nat) {d : Nat} (hd : 0 < d) : roundHalfEven (q * d) d = q := by
  unfold roundHalfEven
  simp [Nat.mul_mod_left, Nat.mul_div_cancel q hd, hd]

/-! ## Fields of a binary64 value -/

theorem fields_lt (v : B64) : expField v < 2048 ∧ fracField v < 2 ^ 52 := by
  simp only [expField, fracField, pow2_eq]
  constructor <;> omega

/-- The magnitude that 63 low bits stand for, in units of 2^-1074. -/
def patternMag (p : Nat) : Nat :=
  if p / 2 ^ 52 = 0 then p % 2 ^ 52 else (2 ^ 52 + p % 2 ^ 52) * 2 ^ (p / 2 ^ 52 - 1)

theorem toNat_withSign {neg : Bool} {p : Nat} (hp : p < 2 ^ 63) :
    (withSign neg p).toNat = if neg then 2 ^ 63 + p else p := by
  unfold withSign
  rw [BitVec.toNat_ofNat, pow2_eq]
  cases neg <;> simp <;> omega

theorem expField_withSign {neg : Bool} {p : Nat} (hp : p < 2 ^ 63) : expField (withSign neg p) = p / 2 ^ 52 := by
  rw [expField, toNat_withSign hp, pow2_eq, pow2_eq]
  cases neg <;> simp <;> omega

theorem fracField_withSign {neg : Bool} {p : Nat} (hp : p < 2 ^ 63) : fracField (withSign neg p) = p % 2 ^ 52 := by
  rw [fracField, toNat_withSign hp, pow2_eq]
  cases neg <;> simp <;> omega

theorem signBit_withSign {neg : Bool} {p : Nat} (hp : p < 2 ^ 63) : signBit (withSign neg p) = neg := by
  rw [signBit, BitVec.msb_eq_decide, toNat_withSign hp]
  cases neg
  · simpa using hp
  · simp

theorem mag_withSign {neg : Bool} {p : Nat} (hp : p < 2 ^ 63) : mag (withSign neg p) = patternMag p := by
  simp only [mag, expField_withSign hp, fracField_withSign hp, patternMag, pow2_eq]

/-- A pattern of exponent e·2^52 and significand m stands for m·2^e units (also when m has been rounded up to 2^53). -/
theorem patternMag_compose {e m : Nat} (hm : m ≤ 2 ^ 53) (hlow : e = 0 ∨ 2 ^ 52 ≤ m) :
    patternMag (e * 2 ^ 52 + m) = m * 2 ^ e := by
  unfold patternMag
  by_cases hsmall : m < 2 ^ 52
  · have he : e = 0 := by omega
    subst he
    have h1 : (0 * 2 ^ 52 + m) / 2 ^ 52 = 0 := by omega
    rw [if_pos h1]
    simp; omega
  · by_cases hm' : m = 2 ^ 53
    · have h1 : (e * 2 ^ 52 + m) / 2 ^ 52 = e + 2 := by omega
      have h2 : (e * 2 ^ 52 + m) % 2 ^ 52 = 0 := by omega
      rw [if_neg (by omega), h1, h2, hm']
      have : e + 2 - 1 = e + 1 := by omega
      rw [this, pow_succ]; ring
    · have h1 : (e * 2 ^ 52 + m) / 2 ^ 52 = e + 1 := by omega
      have h2 : (e * 2 ^ 52 + m) % 2 ^ 52 = m - 2 ^ 52 := by omega
      rw [if_neg (by omega), h1, h2]
      have h3 : 2 ^ 52 + (m - 2 ^ 52) = m := by omega
      rw [h3]; simp

/-! ## RNE64 -/

/-- Where the significand of a rounding lies. -/
theorem significand_bounds {n d : Nat} (_hd : 0 < d) :
    roundHalfEven (n * unit64) (d * pow2 (spacingExponent n d)) ≤ 2 ^ 53 ∧
      (spacingExponent n d = 0 ∨
        (2 ^ 52 ≤ roundHalfEven (n * unit64) (d * pow2 (spacingExponent n d)) ∧
          2 ^ 52 * (d * pow2 (spacingExponent n d)) ≤ n * unit64)) := by
  have hb := roundHalfEven_bounds (n * unit64) (d * pow2 (spacingExponent n d))
  have hdiv : n * unit64 / (d * pow2 (spacingExponent n d)) = n * unit64 / d / 2 ^ spacingExponent n d := by
    rw [pow2_eq, Nat.div_div_eq_div_mul]
  set t := n * unit64 / d with ht
  have he : spacingExponent n d = t.log2 - 52 := by rw [spacingExponent, floorLog2_eq]
  have hlt : t / 2 ^ spacingExponent n d < 2 ^ 53 := by
    apply Nat.div_lt_of_lt_mul
    have h1 : t < 2 ^ (t.log2 + 1) := Nat.lt_log2_self
    rw [← pow_add]
    exact lt_of_lt_of_le h1 (Nat.pow_le_pow_right (by norm_num) (by omega))
  refine ⟨by omega, ?_⟩
  by_cases h0 : spacingExponent n d = 0
  · exact .inl h0
  · right
    have ht0 : t ≠ 0 := by
      intro h; rw [h] at he; simp at he; exact h0 he
    have h1 : 2 ^ t.log2 ≤ t := Nat.log2_self_le ht0
    have h2 : t.log2 = 52 + spacingExponent n d := by omega
    have hge : 2 ^ 52 ≤ t / 2 ^ spacingExponent n d := by
      rw [Nat.le_div_iff_mul_le (by positivity), ← pow_add, ← h2]; exact h1
    refine ⟨by omega, ?_⟩
    rw [pow2_eq]
    calc 2 ^ 52 * (d * 2 ^ spacingExponent n d) = 2 ^ (52 + spacingExponent n d) * d := by rw [pow_add]; ring
      _ ≤ t * d := Nat.mul_le_mul_right d (by rw [← h2]; exact h1)
      _ ≤ n * unit64 := Nat.div_mul_le_self _ _

/-- What RNE64 gives below the overflow bound: sign, finiteness, and the rounded significand times its spacing. -/
theorem rne64_spec {neg : Bool} {n d : Nat} (hd : 0 < d) (hov : roundPattern n d < 2047 * 2 ^ 52) :
    isFinite (rne64 neg n d) = true ∧ signBit (rne64 neg n d) = neg ∧
      (rne64 neg n d).toNat % 2 ^ 63 = roundPattern n d ∧
      mag (rne64 neg n d) =
        roundHalfEven (n * unit64) (d * pow2 (spacingExponent n d)) * pow2 (spacingExponent n d) := by
  have hp : roundPattern n d < 2 ^ 63 := by omega
  have hr : rne64 neg n d = withSign neg (roundPattern n d) := by
    rw [rne64, if_pos]; rw [pow2_eq]; exact hov
  rw [hr]
  refine ⟨?_, signBit_withSign hp, ?_, ?_⟩
  · have : roundPattern n d / 2 ^ 52 ≠ 2047 := by omega
    rw [isFinite, expField_withSign hp, bne_iff_ne]; exact this
  · rw [toNat_withSign hp]; cases neg <;> simp <;> omega
  · rw [mag_withSign hp, roundPattern, pow2_eq 52]
    have := significand_bounds (n := n) hd
    rw [patternMag_compose this.1 (this.2.imp id (·.1)), pow2_eq]

theorem scaled_rne64 {neg : Bool} {n d : Nat} (hd : 0 < d) (hov : roundPattern n d < 2047 * 2 ^ 52) :
    scaled (rne64 neg n d) =
      if neg then -((roundHalfEven (n * unit64) (d * pow2 (spacingExponent n d)) *
        pow2 (spacingExponent n d) : Nat) : Int)
      else ((roundHalfEven (n * unit64) (d * pow2 (spacingExponent n d)) * pow2 (spacingExponent n d) : Nat) : Int) := by
  have h := rne64_spec (neg := neg) hd hov
  rw [scaled, h.2.1, h.2.2.2]

end Sys2Proof.Machine
end

