-- ==== Sys2Proof/Laws/Rounding.lean ====
section
/-! SUPPORT. RNE64 as nearest-even rounding of rationals, exactly representable values, and the bounds that rounding
keeps (00_scope R20). -/

namespace Sys2Proof

open Machine

/-! ## Magnitudes -/

/-- A value whose exponent is at least e is a multiple of 2^e units. -/
theorem mag_multiple {w : B64} {e : Nat} (h : e ≤ expField w - 1) : ∃ j, mag w = j * 2 ^ e := by
  unfold mag
  split
  · next h0 => exact ⟨fracField w, by rw [h0] at h; simp at h; simp [h]⟩
  · refine ⟨(pow2 52 + fracField w) * 2 ^ (expField w - 1 - e), ?_⟩
    rw [pow2_eq (expField w - 1), Nat.mul_assoc, ← pow_add]
    congr 2; omega

/-- A value whose exponent is below e is below 2^(52+e) units. -/
theorem mag_small {w : B64} {e : Nat} (h : expField w - 1 < e) : mag w < 2 ^ 52 * 2 ^ e := by
  have hf := (fields_lt w).2
  unfold mag
  split
  · calc fracField w < 2 ^ 52 * 1 := by omega
      _ ≤ 2 ^ 52 * 2 ^ e := Nat.mul_le_mul_left _ Nat.one_le_two_pow
  · rw [pow2_eq, pow2_eq]
    calc (2 ^ 52 + fracField w) * 2 ^ (expField w - 1) < 2 ^ 53 * 2 ^ (expField w - 1) :=
          Nat.mul_lt_mul_of_pos_right (by omega) (by positivity)
      _ = 2 ^ 52 * 2 ^ (expField w - 1 + 1) := by rw [pow_succ]; ring
      _ ≤ 2 ^ 52 * 2 ^ e := Nat.mul_le_mul_left _ (Nat.pow_le_pow_right (by norm_num) (by omega))

/-- A number below A, itself at most T, is farther from T than A is. -/
theorem below_is_farther {A B M T : Int} (h1 : A ≤ T) (h2 : M < A) (h3 : |B - T| ≤ |A - T|) : |B - T| < |M - T| := by
  rw [abs_of_nonpos (show A - T ≤ 0 by omega)] at h3
  rw [abs_of_neg (show M - T < 0 by omega)]
  omega

/-- A non-negative A is no farther from a non-negative T than -A is, and as far only when one of them is 0. -/
theorem neg_is_farther {A T : Int} (hA : 0 ≤ A) (hT : 0 ≤ T) :
    |A - T| ≤ |-A - T| ∧ (|A - T| = |-A - T| → A = 0 ∨ T = 0) := by
  rw [abs_of_nonpos (show -A - T ≤ 0 by omega)]
  rcases abs_cases (A - T) with ⟨e, _⟩ | ⟨e, _⟩ <;> rw [e] <;> omega

/-- No magnitude is nearer to n/d units than the rounded one. -/
theorem rounded_nearest {n d : Nat} (hd : 0 < d) (w : B64) :
    |((roundHalfEven (n * unit64) (d * pow2 (spacingExponent n d)) * (d * pow2 (spacingExponent n d)) : Nat) : Int) -
        (n * unit64 : Nat)| ≤ |((mag w * d : Nat) : Int) - (n * unit64 : Nat)| := by
  have hD : 0 < d * pow2 (spacingExponent n d) := Nat.mul_pos hd (pow2_pos _)
  rcases Nat.lt_or_ge (expField w - 1) (spacingExponent n d) with h | h
  · have hs := mag_small h
    have hb := (significand_bounds (n := n) hd).2
    rcases hb with h0 | ⟨_, h2⟩
    · omega
    · have hn := roundHalfEven_nearest (n := n * unit64) hD (2 ^ 52)
      have h3 : mag w * d < 2 ^ 52 * (d * pow2 (spacingExponent n d)) := by
        calc mag w * d < 2 ^ 52 * 2 ^ spacingExponent n d * d := Nat.mul_lt_mul_of_pos_right hs hd
          _ = 2 ^ 52 * (d * pow2 (spacingExponent n d)) := by rw [pow2_eq]; ring
      exact (below_is_farther (Int.ofNat_le.mpr h2) (Int.ofNat_lt.mpr h3) hn).le
  · obtain ⟨j, hj⟩ := mag_multiple h
    have hn := roundHalfEven_nearest (n := n * unit64) hD j
    have : j * (d * pow2 (spacingExponent n d)) = mag w * d := by rw [hj, pow2_eq]; ring
    rwa [this] at hn

/-- When another magnitude is as near, the rounded significand is even. -/
theorem rounded_tie {n d : Nat} (hd : 0 < d) {w : B64}
    (hne : mag w * d ≠ roundHalfEven (n * unit64) (d * pow2 (spacingExponent n d)) * (d * pow2 (spacingExponent n d)))
    (h : |((roundHalfEven (n * unit64) (d * pow2 (spacingExponent n d)) * (d * pow2 (spacingExponent n d)) : Nat) : Int) -
        (n * unit64 : Nat)| = |((mag w * d : Nat) : Int) - (n * unit64 : Nat)|) :
    roundHalfEven (n * unit64) (d * pow2 (spacingExponent n d)) % 2 = 0 := by
  have hD : 0 < d * pow2 (spacingExponent n d) := Nat.mul_pos hd (pow2_pos _)
  rcases Nat.lt_or_ge (expField w - 1) (spacingExponent n d) with hlt | hge
  · exfalso
    have hs := mag_small hlt
    have hb := (significand_bounds (n := n) hd).2
    rcases hb with h0 | ⟨_, h2⟩
    · omega
    · have hn := roundHalfEven_nearest (n := n * unit64) hD (2 ^ 52)
      have h3 : mag w * d < 2 ^ 52 * (d * pow2 (spacingExponent n d)) := by
        calc mag w * d < 2 ^ 52 * 2 ^ spacingExponent n d * d := Nat.mul_lt_mul_of_pos_right hs hd
          _ = 2 ^ 52 * (d * pow2 (spacingExponent n d)) := by rw [pow2_eq]; ring
      exact (below_is_farther (Int.ofNat_le.mpr h2) (Int.ofNat_lt.mpr h3) hn).ne h
  · obtain ⟨j, hj⟩ := mag_multiple hge
    have e : j * (d * pow2 (spacingExponent n d)) = mag w * d := by rw [hj, pow2_eq]; ring
    apply roundHalfEven_tie hD (j := j)
    · rintro rfl; exact hne e.symm
    · rw [e]; exact h

/-! ## Real values -/

theorem unit64_rat_pos : (0 : Rat) < (unit64 : Rat) := by exact_mod_cast unit64_pos

theorem realValue_eq_iff {v w : B64} : realValue v = realValue w ↔ scaled v = scaled w := by
  unfold realValue
  rw [div_left_inj' unit64_rat_pos.ne']
  exact Int.cast_inj

theorem abs_realValue (v : B64) : |realValue v| = (mag v : Rat) / unit64 := by
  unfold realValue scaled
  rw [abs_div, abs_of_pos unit64_rat_pos]
  congr 1
  split <;> simp

/-- The distance of a value to ±n/d, in units of 2^-1074 / d. -/
theorem distance_eq (x : Int) (neg : Bool) {n d : Nat} (hd : 0 < d) :
    |(x : Rat) / (unit64 : Rat) - (if neg then -1 else 1) * ((n : Rat) / (d : Rat))| =
      (|(if neg then -x else x) * d - (n * unit64 : Nat)| : Int) / ((unit64 : Rat) * d) := by
  have hd' : (0 : Rat) < d := by exact_mod_cast hd
  have hu := unit64_rat_pos
  have hud : (0 : Rat) < (unit64 : Rat) * d := mul_pos hu hd'
  have key : ∀ r : Rat, |r| = |r * ((unit64 : Rat) * d)| / ((unit64 : Rat) * d) := by
    intro r
    rw [abs_mul, abs_of_pos hud, mul_div_cancel_right₀ _ hud.ne']
  rw [key, Int.cast_abs]
  congr 1
  generalize unit64 = U at *
  cases neg
  · congr 1
    simp only [Bool.false_eq_true, if_false]
    push_cast
    field_simp
  · rw [← abs_neg]
    congr 1
    simp only [if_true]
    push_cast
    field_simp
    ring

/-- RNE64 short of overflow: the value of ±n/d rounded once. -/
theorem rne64_rounds (neg : Bool) {n d : Nat} (hd : 0 < d) (hov : roundPattern n d < 2047 * 2 ^ 52) :
    IsRne64 (rne64 neg n d) ((if neg then -1 else 1) * ((n : Rat) / (d : Rat))) := by
  have hsp := rne64_spec (neg := neg) hd hov
  have hsc := scaled_rne64 (neg := neg) hd hov
  have hu := unit64_rat_pos
  have hd' : (0 : Rat) < d := by exact_mod_cast hd
  have hud : (0 : Rat) < (unit64 : Rat) * d := mul_pos hu hd'
  have hm : (if neg then -scaled (rne64 neg n d) else scaled (rne64 neg n d)) * d =
      ((roundHalfEven (n * unit64) (d * pow2 (spacingExponent n d)) * (d * pow2 (spacingExponent n d)) : Nat) : Int) := by
    rw [hsc]; cases neg <;> simp <;> ring
  -- the distance of any value, from its magnitude
  have far : ∀ w, |((mag w * d : Nat) : Int) - (n * unit64 : Nat)| ≤
      |(if neg then -scaled w else scaled w) * d - (n * unit64 : Nat)| ∧
      (|((mag w * d : Nat) : Int) - (n * unit64 : Nat)| =
        |(if neg then -scaled w else scaled w) * d - (n * unit64 : Nat)| →
        (if neg then -scaled w else scaled w) * d = ((mag w * d : Nat) : Int) ∨ n = 0) := by
    intro w
    have hs : (if neg then -scaled w else scaled w) * (d : Int) = ((mag w * d : Nat) : Int) ∨
        (if neg then -scaled w else scaled w) * (d : Int) = -((mag w * d : Nat) : Int) := by
      unfold scaled
      cases neg <;> cases signBit w <;> simp
    have hupos := unit64_pos
    rcases hs with hs | hs
    · exact ⟨by rw [hs], fun _ => .inl hs⟩
    · rw [hs]
      obtain ⟨h1, h2⟩ := neg_is_farther (Int.natCast_nonneg (mag w * d)) (Int.natCast_nonneg (n * unit64))
      refine ⟨h1, fun h => (h2 h).elim (fun h => .inl (by rw [h]; rfl)) (fun h => .inr ?_)⟩
      have := Int.natCast_eq_zero.mp h
      exact (Nat.mul_eq_zero.mp this).resolve_right hupos.ne'
  refine ⟨hsp.1, ?_, ?_⟩
  · intro w _
    unfold realValue
    rw [distance_eq _ _ hd, distance_eq _ _ hd]
    refine div_le_div_of_nonneg_right ?_ hud.le
    rw [hm]
    exact_mod_cast (rounded_nearest (n := n) hd w).trans (far w).1
  · intro w _ hne htie
    unfold realValue at htie
    rw [distance_eq _ _ hd, distance_eq _ _ hd, div_left_inj' hud.ne'] at htie
    have htie' : |(if neg then -scaled w else scaled w) * d - (n * unit64 : Nat)| =
        |(if neg then -scaled (rne64 neg n d) else scaled (rne64 neg n d)) * d - (n * unit64 : Nat)| := by
      exact_mod_cast htie
    rw [hm] at htie'
    have hnear := rounded_nearest (n := n) hd w
    have hfar := far w
    have heq : |((mag w * d : Nat) : Int) - (n * unit64 : Nat)| =
        |(if neg then -scaled w else scaled w) * d - (n * unit64 : Nat)| := le_antisymm hfar.1 (htie' ▸ hnear)
    have hfrac : fracField (rne64 neg n d) % 2 =
        roundHalfEven (n * unit64) (d * pow2 (spacingExponent n d)) % 2 := by
      have h63 := hsp.2.2.1
      rw [roundPattern, pow2_eq 52] at h63
      rw [fracField, pow2_eq 52]
      omega
    rw [hfrac]
    rcases hfar.2 heq with hs | hn
    · apply rounded_tie hd (w := w)
      · intro e
        apply hne
        rw [realValue_eq_iff]
        have : (if neg then -scaled w else scaled w) * (d : Int) =
            (if neg then -scaled (rne64 neg n d) else scaled (rne64 neg n d)) * (d : Int) := by
          rw [hs, hm, e]
        have hdz : (d : Int) ≠ 0 := by exact_mod_cast hd.ne'
        have := mul_right_cancel₀ hdz this
        cases neg <;> simpa using this
      · rw [heq, htie']
    · subst hn
      have : roundHalfEven (0 * unit64) (d * pow2 (spacingExponent 0 d)) = 0 := by
        have := roundHalfEven_mul_self 0 (Nat.mul_pos hd (pow2_pos (spacingExponent 0 d)))
        simpa using this
      rw [this]

/-! ## The other sign -/

theorem negate_negate (w : B64) : negate (negate w) = w := by
  unfold negate
  rw [BitVec.xor_assoc, BitVec.xor_self, BitVec.xor_zero]

theorem toNat_negate_of_lt {w : B64} (h : w.toNat < 2 ^ 63) : (negate w).toNat = 2 ^ 63 + w.toNat := by
  have e : (negate w).toNat = w.toNat ^^^ 2 ^ 63 := by
    rw [negate, BitVec.toNat_xor]; rfl
  rw [e]
  apply Nat.eq_of_testBit_eq
  intro i
  rw [Nat.testBit_xor, Nat.testBit_two_pow]
  rcases Nat.lt_trichotomy i 63 with hi | hi | hi
  · rw [Nat.testBit_two_pow_add_gt hi]; rw [decide_eq_false (by omega : (63:Nat) ≠ i)]; simp
  · subst hi; rw [Nat.testBit_two_pow_add_eq]; simp
  · have hp : 2 ^ 64 ≤ 2 ^ i := Nat.pow_le_pow_right (by norm_num) hi
    rw [Nat.testBit_lt_two_pow (x := w.toNat) (by omega), Nat.testBit_lt_two_pow (x := 2 ^ 63 + w.toNat) (by omega)]
    simp; omega

theorem toNat_negate (w : B64) :
    (negate w).toNat = if w.toNat < 2 ^ 63 then w.toNat + 2 ^ 63 else w.toNat - 2 ^ 63 := by
  have hlt := w.isLt
  split
  · next h => rw [toNat_negate_of_lt h, Nat.add_comm]
  · next h =>
    have e : w = negate (BitVec.ofNat 64 (w.toNat - 2 ^ 63)) := by
      apply BitVec.eq_of_toNat_eq
      have hs : (BitVec.ofNat 64 (w.toNat - 2 ^ 63)).toNat = w.toNat - 2 ^ 63 := by
        rw [BitVec.toNat_ofNat]; omega
      rw [toNat_negate_of_lt (by rw [hs]; omega), hs]
      omega
    have := congrArg (fun x => (negate x).toNat) e
    simp only [negate_negate] at this
    rw [this, BitVec.toNat_ofNat]
    omega

theorem expField_negate (w : B64) : expField (negate w) = expField w := by
  have hlt := w.isLt
  rw [expField, expField, toNat_negate, pow2_eq, pow2_eq]
  split <;> omega

theorem fracField_negate (w : B64) : fracField (negate w) = fracField w := by
  have hlt := w.isLt
  rw [fracField, fracField, toNat_negate, pow2_eq]
  split <;> omega

theorem mag_negate (w : B64) : mag (negate w) = mag w := by
  rw [mag, mag, expField_negate, fracField_negate]

theorem isFinite_negate (w : B64) : isFinite (negate w) = isFinite w := by
  rw [isFinite, isFinite, expField_negate]

theorem signBit_negate (w : B64) : signBit (negate w) = !signBit w := by
  have h : (9223372036854775808#64).msb = true := by decide
  simp [signBit, negate, BitVec.msb_xor, h]

theorem scaled_negate (w : B64) : scaled (negate w) = -scaled w := by
  rw [scaled, scaled, mag_negate, signBit_negate]
  cases signBit w <;> simp

theorem realValue_negate (w : B64) : realValue (negate w) = -realValue w := by
  rw [realValue, realValue, scaled_negate]
  push_cast
  rw [neg_div]

/-! ## Exactly representable values -/

/-- Every k·2^e units with k up to 2^53 is a binary64 value. -/
theorem representable {k e : Nat} (hk : k ≤ 2 ^ 53) (he : e ≤ 2040) :
    ∃ w, isFinite w = true ∧ signBit w = false ∧ mag w = k * 2 ^ e := by
  have direct : ∀ k e, k ≤ 2 ^ 53 → e ≤ 2040 → (e = 0 ∨ 2 ^ 52 ≤ k) →
      ∃ w, isFinite w = true ∧ signBit w = false ∧ mag w = k * 2 ^ e := by
    intro k e hk he hlow
    have hp : e * 2 ^ 52 + k < 2 ^ 63 := by omega
    refine ⟨withSign false (e * 2 ^ 52 + k), ?_, signBit_withSign hp, ?_⟩
    · rw [isFinite, expField_withSign hp, bne_iff_ne]; omega
    · rw [mag_withSign hp, patternMag_compose hk hlow]
  induction e generalizing k with
  | zero => exact direct k 0 hk (by omega) (.inl rfl)
  | succ e ih =>
    by_cases hlow : 2 ^ 52 ≤ k
    · exact direct k (e + 1) hk he (.inr hlow)
    · obtain ⟨w, h1, h2, h3⟩ := ih (k := 2 * k) (by omega) (by omega)
      exact ⟨w, h1, h2, by rw [h3, pow_succ]; ring⟩

/-- Every k/2^f with k up to 2^53 and f up to 1074 is a binary64 value, and so is its negation. -/
theorem representable_real (neg : Bool) {k : Nat} (f : Nat) (hk : k ≤ 2 ^ 53) (hf : f ≤ 1074) :
    ∃ w, isFinite w = true ∧ realValue w = (if neg then -1 else 1) * ((k : Rat) / 2 ^ f) := by
  have key : ∀ w, isFinite w = true → signBit w = false → mag w = k * 2 ^ (1074 - f) →
      realValue w = (k : Rat) / 2 ^ f := by
    intro w _ h2 h3
    have : unit64 = 2 ^ (1074 - f) * 2 ^ f := by
      rw [unit64, pow2_eq, ← pow_add, Nat.sub_add_cancel hf]
    rw [realValue, scaled, h2, h3, this]
    simp only [Bool.false_eq_true, if_false]
    push_cast
    generalize 1074 - f = g
    field_simp
  obtain ⟨w, h1, h2, h3⟩ := representable hk (show 1074 - f ≤ 2040 by omega)
  cases neg
  · exact ⟨w, h1, by rw [key w h1 h2 h3]; simp⟩
  · refine ⟨negate w, ?_, ?_⟩
    · rw [isFinite_negate]; exact h1
    · rw [realValue_negate, key w h1 h2 h3]; simp
end Sys2Proof
end

