-- ==== Sys2Proof/Laws/Arithmetic.lean ====
section
/-! SUPPORT. What one rounding gives: no overflow below 2^1023, representable values and bounds kept, the relative
error, and the sum and product of binary64 values as roundings of the exact ones (00_scope R20; 40_transform R174). -/

namespace Sys2Proof

open Machine

/-! ## No overflow -/

theorem roundPattern_lt {n d : Nat} (hd : 0 < d) (h : n ≤ d * 2 ^ 1023) : roundPattern n d < 2047 * 2 ^ 52 := by
  have hle : n * unit64 ≤ d * (2 ^ 52 * 2 ^ 2045) := by
    have e : 52 + 2045 = 1023 + 1074 := rfl
    rw [← pow_add, e, pow_add, unit64, pow2_eq, ← Nat.mul_assoc]
    exact Nat.mul_le_mul_right _ h
  have hq : n * unit64 / d ≤ 2 ^ 2097 := by
    have e : 2097 = 52 + 2045 := rfl
    rw [e, pow_add]
    exact Nat.div_le_of_le_mul hle
  have hlog : (n * unit64 / d).log2 < 2098 := by
    rcases Nat.eq_zero_or_pos (n * unit64 / d) with h0 | h0
    · rw [h0]; decide
    · rw [Nat.log2_lt h0.ne']
      exact lt_of_le_of_lt hq (Nat.pow_lt_pow_right (by norm_num) (Nat.lt_succ_self 2097))
  have he : spacingExponent n d ≤ 2045 := by
    rw [spacingExponent, floorLog2_eq]; omega
  have hb := (significand_bounds (n := n) hd).1
  rw [roundPattern, pow2_eq 52]
  rcases Nat.lt_or_ge (spacingExponent n d) 2045 with h1 | h1
  · omega
  · have e : spacingExponent n d = 2045 := by omega
    have hm : roundHalfEven (n * unit64) (d * pow2 (spacingExponent n d)) ≤ 2 ^ 52 := by
      have hD : 0 < d * pow2 (spacingExponent n d) := Nat.mul_pos hd (pow2_pos _)
      rw [← roundHalfEven_mul_self (2 ^ 52) hD]
      refine roundHalfEven_mono hD hD (Nat.mul_le_mul_right _ ?_)
      rw [e, pow2_eq]
      rw [Nat.mul_left_comm]
      exact hle
    rw [e] at hm ⊢
    omega

/-- Every ±n/d of magnitude at most 2^1023 is rounded to the nearest binary64 value (00_scope R20). -/
theorem rne64_isRne64 (neg : Bool) {n d : Nat} (hd : 0 < d) (h : n ≤ d * 2 ^ 1023) :
    IsRne64 (rne64 neg n d) ((if neg then -1 else 1) * ((n : Rat) / (d : Rat))) :=
  rne64_rounds neg hd (roundPattern_lt hd h)

/-! ## Bounds and exactness -/

/-- A rounding never leaves an interval [−K, K] whose ends are binary64 values. -/
theorem IsRne64.bounded {v w : B64} {r : Rat} (h : IsRne64 v r) (hw : isFinite w = true) (hr : |r| ≤ realValue w) :
    |realValue v| ≤ realValue w := by
  have h1 := h.near w hw
  have h2 := h.near (negate w) (by rw [isFinite_negate]; exact hw)
  rw [realValue_negate] at h2
  obtain ⟨h3, h4⟩ := abs_le.mp hr
  rw [abs_of_nonneg (sub_nonneg.mpr h4)] at h1
  rw [abs_of_nonpos (sub_nonpos.mpr h3)] at h2
  have h5 := abs_le.mp h1
  have h6 := abs_le.mp h2
  exact abs_le.mpr ⟨by linarith, by linarith⟩

/-- A rounding of a binary64 value is that value. -/
theorem IsRne64.exact {v w : B64} {r : Rat} (h : IsRne64 v r) (hw : isFinite w = true) (hr : realValue w = r) :
    realValue v = r := by
  have h1 := h.near w hw
  rw [hr, sub_self, abs_zero] at h1
  have h2 := abs_nonpos_iff.mp h1
  linarith

theorem isRne64_zero (neg : Bool) : IsRne64 (withSign neg 0) 0 := by
  have hz : realValue (withSign neg 0) = 0 := by
    have h : mag (withSign neg 0) = 0 := by rw [mag_withSign (by norm_num)]; rfl
    rw [realValue, scaled, h]
    simp
  refine ⟨?_, ?_, ?_⟩
  · cases neg <;> decide
  · intro w _
    rw [hz, sub_self, abs_zero]
    exact abs_nonneg _
  · intro _ _ _ _
    rw [fracField_withSign (by norm_num)]; rfl

/-- A ratio of magnitude at most K, cross-multiplied. -/
theorem natAbs_le_of_abs {x : Int} {d K : Nat} (hd : 0 < d) (h : |(x : Rat) / (d : Rat)| ≤ (K : Rat)) :
    x.natAbs ≤ d * K := by
  have hd' : (0 : Rat) < d := by exact_mod_cast hd
  rw [abs_div, abs_of_pos hd', div_le_iff₀ hd', ← Int.cast_abs, Int.abs_eq_natAbs] at h
  have : x.natAbs ≤ K * d := by exact_mod_cast h
  rwa [Nat.mul_comm]

/-- `a ⊕ b` is the exact sum rounded once (00_scope R20). -/
theorem add64_isRne64 {a b : B64} {K : Nat} (ha : isFinite a = true) (hb : isFinite b = true) (hK : K ≤ 2 ^ 1023)
    (h : |realValue a + realValue b| ≤ (K : Rat)) : IsRne64 (add64 a b) (realValue a + realValue b) := by
  have e : realValue a + realValue b = ((scaled a + scaled b : Int) : Rat) / (unit64 : Rat) := by
    unfold realValue
    push_cast
    ring
  rw [e] at h ⊢
  unfold add64
  rw [ha, hb]
  simp only [Bool.and_self, if_true]
  split
  · next h0 => rw [h0]; simpa using isRne64_zero (signBit a && signBit b)
  · have := rne64_isRne64 (decide (scaled a + scaled b < 0)) unit64_pos
      ((natAbs_le_of_abs unit64_pos h).trans (Nat.mul_le_mul_left _ hK))
    convert this using 1
    generalize scaled a + scaled b = x
    rw [← mul_div_assoc]
    congr 1
    by_cases hx : x < 0
    · rw [decide_eq_true hx, Nat.cast_natAbs, abs_of_neg hx]
      simp
    · rw [decide_eq_false hx, Nat.cast_natAbs, abs_of_nonneg (by omega)]
      simp

/-- `a ⊗ b` is the exact product rounded once (00_scope R20). -/
theorem mul64_isRne64 {a b : B64} {K : Nat} (ha : isFinite a = true) (hb : isFinite b = true) (hK : K ≤ 2 ^ 1023)
    (h : |realValue a * realValue b| ≤ (K : Rat)) : IsRne64 (mul64 a b) (realValue a * realValue b) := by
  have hU : (0 : Rat) < unit64 := unit64_rat_pos
  have hpos : 0 < unit64 * unit64 := Nat.mul_pos unit64_pos unit64_pos
  have hle : mag a * mag b ≤ unit64 * unit64 * K := by
    have := natAbs_le_of_abs (x := ((mag a * mag b : Nat) : Int)) (d := unit64 * unit64) (K := K) hpos
    rw [Int.natAbs_natCast] at this
    apply this
    rw [abs_mul, abs_realValue, abs_realValue, div_mul_div_comm] at h
    rw [Int.cast_natCast, abs_of_nonneg (div_nonneg (Nat.cast_nonneg _) (Nat.cast_nonneg _))]
    push_cast at h ⊢
    exact h
  unfold mul64
  rw [ha, hb]
  simp only [Bool.and_self, if_true]
  have := rne64_isRne64 (signBit a != signBit b) hpos
    (le_trans hle (Nat.mul_le_mul_left (unit64 * unit64) hK))
  convert this using 1
  unfold realValue scaled
  push_cast
  cases signBit a <;> cases signBit b <;> simp <;> ring

/-! ## Half an ulp -/

/-- The magnitude of a value as a significand times its spacing. -/
theorem mag_significand (v : B64) : ∃ m, m < 2 ^ 53 ∧ mag v = m * 2 ^ (expField v - 1) := by
  have hf := (fields_lt v).2
  unfold mag
  split
  · next h => exact ⟨fracField v, by omega, by rw [h]; simp⟩
  · exact ⟨pow2 52 + fracField v, by rw [pow2_eq]; omega, by rw [pow2_eq (expField v - 1)]⟩

/-- The values at the spacing of v above and below it, when the spacing is not the top one. -/
theorem neighbours {v : B64} (he : expField v ≤ 2040) :
    (∃ w, isFinite w = true ∧ realValue w = realValue v + 2 * halfUlp v) ∧
      ∃ w, isFinite w = true ∧ realValue w = realValue v - 2 * halfUlp v := by
  obtain ⟨m, hm, hmag⟩ := mag_significand v
  have hu := unit64_rat_pos
  have hulp : 2 * halfUlp v = ((2 ^ (expField v - 1) : Nat) : Rat) / unit64 := by
    rw [halfUlp, pow2_eq]
    field_simp
  -- a value one spacing farther from zero, and one nearer or past it, on the positive side
  have up : ∃ w, isFinite w = true ∧ realValue w = (mag v : Rat) / unit64 + 2 * halfUlp v := by
    obtain ⟨w, h1, h2, h3⟩ := representable (k := m + 1) (e := expField v - 1) hm (by omega)
    refine ⟨w, h1, ?_⟩
    rw [realValue, scaled, h2, h3, hulp, hmag]
    push_cast
    ring
  have down : ∃ w, isFinite w = true ∧ realValue w = (mag v : Rat) / unit64 - 2 * halfUlp v := by
    rcases Nat.eq_zero_or_pos m with h0 | h0
    · obtain ⟨w, h1, h2, h3⟩ := representable (k := 1) (e := expField v - 1) (by norm_num) (by omega)
      refine ⟨negate w, by rw [isFinite_negate]; exact h1, ?_⟩
      rw [realValue_negate, realValue, scaled, h2, h3, hulp, hmag, h0]
      push_cast
      ring
    · obtain ⟨w, h1, h2, h3⟩ := representable (k := m - 1) (e := expField v - 1) (by omega) (by omega)
      refine ⟨w, h1, ?_⟩
      rw [realValue, scaled, h2, h3, hulp, hmag]
      push_cast [Nat.cast_sub h0]
      ring
  have hval : realValue v = (if signBit v then -1 else 1) * ((mag v : Rat) / unit64) := by
    rw [realValue, scaled]
    cases signBit v
    · simp
    · simp; ring
  rw [hval]
  cases signBit v
  · simpa using ⟨up, down⟩
  · obtain ⟨w, h1, h2⟩ := up
    obtain ⟨w', h1', h2'⟩ := down
    refine ⟨⟨negate w', by rw [isFinite_negate]; exact h1', ?_⟩, ⟨negate w, by rw [isFinite_negate]; exact h1, ?_⟩⟩
    · rw [realValue_negate, h2']; simp; ring
    · rw [realValue_negate, h2]; simp; ring

/-- A rounded value errs by at most half an ulp of itself. -/
theorem IsRne64.half_ulp {v : B64} {r : Rat} (h : IsRne64 v r) (he : expField v ≤ 2040) :
    |realValue v - r| ≤ halfUlp v := by
  obtain ⟨⟨w, h1, h2⟩, w', h1', h2'⟩ := neighbours he
  have a := h.near w h1
  have b := h.near w' h1'
  rw [h2] at a
  rw [h2'] at b
  have hpos : 0 < halfUlp v := by
    rw [halfUlp]
    exact div_pos (by exact_mod_cast pow2_pos _) (mul_pos (by norm_num) unit64_rat_pos)
  rcases abs_cases (realValue v - r) with ⟨e, e'⟩ | ⟨e, e'⟩ <;> rw [e] at a b ⊢
  · rcases abs_cases (realValue v - 2 * halfUlp v - r) with ⟨f, f'⟩ | ⟨f, f'⟩ <;> rw [f] at b <;> linarith
  · rcases abs_cases (realValue v + 2 * halfUlp v - r) with ⟨f, f'⟩ | ⟨f, f'⟩ <;> rw [f] at a <;> linarith

/-! ## Sizes -/

/-- A finite value of magnitude at most k·2^e units of 2^-1074. -/
def Below (v : B64) (k e : Nat) : Prop := isFinite v = true ∧ mag v ≤ k * 2 ^ e

theorem Below.mono {v : B64} {k k' e : Nat} (h : Below v k e) (hk : k ≤ k') : Below v k' e :=
  ⟨h.1, h.2.trans (Nat.mul_le_mul_right _ hk)⟩

theorem Below.abs_le {v : B64} {k e : Nat} (h : Below v k e) : |realValue v| ≤ ((k * 2 ^ e : Nat) : Rat) / unit64 := by
  rw [abs_realValue]
  exact div_le_div_of_nonneg_right (by exact_mod_cast h.2) unit64_rat_pos.le

/-- A rounding of a value of magnitude at most k·2^e units is no larger. -/
theorem IsRne64.below {v : B64} {r : Rat} {k e : Nat} (h : IsRne64 v r) (hk : k ≤ 2 ^ 53) (he : e ≤ 1500)
    (hr : |r| ≤ ((k * 2 ^ e : Nat) : Rat) / unit64) : Below v k e := by
  obtain ⟨w, h1, h2, h3⟩ := representable hk (he.trans (by norm_num))
  have hw : realValue w = ((k * 2 ^ e : Nat) : Rat) / unit64 := by
    rw [realValue, scaled, h2, h3]; simp
  have hb := h.bounded h1 (by rw [hw]; exact hr)
  rw [hw, abs_realValue, div_le_div_iff_of_pos_right unit64_rat_pos] at hb
  exact ⟨h.finite, by exact_mod_cast hb⟩

theorem units_le {k e : Nat} (hk : k ≤ 2 ^ 53) (he : e ≤ 1500) :
    ((k * 2 ^ e : Nat) : Rat) / unit64 ≤ ((2 ^ 479 : Nat) : Rat) := by
  rw [div_le_iff₀ unit64_rat_pos]
  have h : k * 2 ^ e ≤ 2 ^ 479 * unit64 := by
    have e' : 479 + 1074 = 53 + 1500 := rfl
    rw [unit64, pow2_eq, ← pow_add, e', pow_add]
    exact Nat.mul_le_mul hk (Nat.pow_le_pow_right (by norm_num) he)
  exact_mod_cast h

theorem small_pow : 2 ^ 479 ≤ 2 ^ 1023 := Nat.pow_le_pow_right (by norm_num) (by norm_num)

theorem Below.add {a b : B64} {j k e : Nat} (ha : Below a j e) (hb : Below b k e) (hk : j + k ≤ 2 ^ 53)
    (he : e ≤ 1500) :
    Below (add64 a b) (j + k) e ∧ IsRne64 (add64 a b) (realValue a + realValue b) := by
  have hr : |realValue a + realValue b| ≤ (((j + k) * 2 ^ e : Nat) : Rat) / unit64 := by
    refine (abs_add_le _ _).trans ((add_le_add ha.abs_le hb.abs_le).trans_eq ?_)
    push_cast
    ring
  have h := add64_isRne64 ha.1 hb.1 small_pow (hr.trans (units_le hk he))
  exact ⟨h.below hk he hr, h⟩

theorem Below.mul {a b : B64} {j k e f g : Nat} (ha : Below a j e) (hb : Below b k f) (hk : j * k ≤ 2 ^ 53)
    (hg : e + f = g + 1074) (he : g ≤ 1500) :
    Below (mul64 a b) (j * k) g ∧ IsRne64 (mul64 a b) (realValue a * realValue b) := by
  have hr : |realValue a * realValue b| ≤ ((j * k * 2 ^ g : Nat) : Rat) / unit64 := by
    rw [abs_mul]
    refine (mul_le_mul ha.abs_le hb.abs_le (abs_nonneg _)
      (div_nonneg (Nat.cast_nonneg _) (Nat.cast_nonneg _))).trans_eq ?_
    rw [div_mul_div_comm, div_eq_div_iff (mul_pos unit64_rat_pos unit64_rat_pos).ne' unit64_rat_pos.ne']
    have h : j * 2 ^ e * (k * 2 ^ f) * unit64 = j * k * 2 ^ g * (unit64 * unit64) := by
      have h1 : 2 ^ e * 2 ^ f = 2 ^ g * unit64 := by rw [unit64, pow2_eq, ← pow_add, ← pow_add, hg]
      calc j * 2 ^ e * (k * 2 ^ f) * unit64 = j * k * (2 ^ e * 2 ^ f) * unit64 := by ring
        _ = j * k * 2 ^ g * (unit64 * unit64) := by rw [h1]; ring
    exact_mod_cast h
  have h := mul64_isRne64 ha.1 hb.1 small_pow (hr.trans (units_le hk he))
  exact ⟨h.below hk he hr, h⟩

/-- The dot product of 40_transform R174 of values below x_i·2^e and y_i·2^f units. -/
theorem Below.dot8 {x y : Fin 8 → B64} {p q : Fin 8 → Nat} {e f g : Nat} (hx : ∀ i, Below (x i) (p i) e)
    (hy : ∀ i, Below (y i) (q i) f) (hg : e + f = g + 1074) (he : g ≤ 1500)
    (hs : p 0 * q 0 + p 1 * q 1 + p 2 * q 2 + p 3 * q 3 + p 4 * q 4 + p 5 * q 5 + p 6 * q 6 + p 7 * q 7 ≤ 2 ^ 53) :
    Below (dot8 x y)
      (p 0 * q 0 + p 1 * q 1 + p 2 * q 2 + p 3 * q 3 + p 4 * q 4 + p 5 * q 5 + p 6 * q 6 + p 7 * q 7) g := by
  have h : ∀ i, p i * q i ≤ 2 ^ 53 → Below (mul64 (x i) (y i)) (p i * q i) g := fun i hi =>
    ((hx i).mul (hy i) hi hg he).1
  unfold Machine.dot8
  have m0 := h 0 (by omega)
  have m1 := (m0.add (h 1 (by omega)) (by omega) he).1
  have m2 := (m1.add (h 2 (by omega)) (by omega) he).1
  have m3 := (m2.add (h 3 (by omega)) (by omega) he).1
  have m4 := (m3.add (h 4 (by omega)) (by omega) he).1
  have m5 := (m4.add (h 5 (by omega)) (by omega) he).1
  have m6 := (m5.add (h 6 (by omega)) (by omega) he).1
  exact (m6.add (h 7 (by omega)) (by omega) he).1

/-! ## Natural numbers -/

theorem unit64_eq : unit64 = 2 ^ 1074 := by rw [unit64, pow2_eq]

/-- A natural number up to 2^53 enters binary64 exactly (42_region R225). -/
theorem b64OfNat_exact {n : Nat} (h : n ≤ 2 ^ 53) : IsExactly (b64OfNat n) n := by
  obtain ⟨w, h1, h2, h3⟩ := representable (k := n) (e := 1074) h (by norm_num)
  have hr := rne64_isRne64 false (n := n) (d := 1) Nat.one_pos
    (by
      rw [Nat.one_mul]
      exact h.trans (Nat.pow_le_pow_right (by norm_num) (by norm_num)))
  refine ⟨hr.finite, ?_⟩
  have e := hr.exact h1 (by
    rw [realValue, scaled, h2, if_neg Bool.false_ne_true, h3, ← unit64_eq]
    have := unit64_rat_pos
    generalize unit64 = U at *
    push_cast
    simp
    field_simp)
  rw [b64OfNat, e]
  simp

theorem b64OfNat_below {n k : Nat} (h : n ≤ k) (hk : k ≤ 2 ^ 53) : Below (b64OfNat n) k 1074 := by
  have hx := b64OfNat_exact (h.trans hk)
  refine ⟨hx.1, ?_⟩
  have h1 := abs_realValue (b64OfNat n)
  rw [hx.2, Nat.abs_cast, eq_div_iff unit64_rat_pos.ne'] at h1
  have h2 : n * unit64 = mag (b64OfNat n) := by exact_mod_cast h1
  rw [← h2, ← unit64_eq]
  exact Nat.mul_le_mul_right _ h

end Sys2Proof
end

