-- ==== Sys2Proof/Laws/Blocks.lean ====
section
/-! SUPPORT. Elements of blocks, and what reading and writing a block register gives. -/

namespace Sys2Proof.Machine

variable {α β : Type}

@[simp] theorem elem_mkBlock (f : Fin 8 → Fin 8 → α) (i j : Fin 8) : elem (mkBlock f) i j = f i j := by
  have hi : (8 * i.val + j.val) / 8 = i.val := by omega
  have hj : (8 * i.val + j.val) % 8 = j.val := by omega
  simp only [elem, mkBlock, Vector.getElem_ofFn, hi, hj, Fin.eta]

@[simp] theorem elem_mapBlock (f : α → β) (b : Block α) (i j : Fin 8) : elem (mapBlock f b) i j = f (elem b i j) := by
  simp [mapBlock]

/-- Two blocks are equal when their elements are. -/
theorem block_ext {a b : Block α} (h : ∀ i j, elem a i j = elem b i j) : a = b := by
  apply Vector.ext
  intro k hk
  have := h ⟨k / 8, by omega⟩ ⟨k % 8, by omega⟩
  simpa [elem, Nat.div_add_mod] using this

theorem mkBlock_congr {f g : Fin 8 → Fin 8 → α} (h : ∀ i j, f i j = g i j) : mkBlock f = mkBlock g :=
  block_ext fun i j => by simp [h]

/-- `allBlock` says its predicate of every element. -/
theorem allBlock_iff {p : α → Bool} {b : Block α} : allBlock p b = true ↔ ∀ i j, p (elem b i j) = true := by
  simp only [allBlock, List.all_eq_true, Vector.mem_toList_iff, Vector.mem_iff_getElem]
  constructor
  · intro h i j
    exact h _ ⟨8 * i.val + j.val, by omega, rfl⟩
  · rintro h x ⟨k, hk, rfl⟩
    have := h ⟨k / 8, by omega⟩ ⟨k % 8, by omega⟩
    simpa [elem, Nat.div_add_mod] using this

@[simp] theorem allBlock_replicate_true : allBlock id (Vector.replicate 64 true) = true := by decide

/-- What the engine reads of RB after a write of a register: the block written, or what it read before. -/
theorem readRb_writeRb (s : State) (r r' : Fin 4) (b : Block B64) :
    (s.writeRb r b).readRb r' = if r' = r then b else s.readRb r' := by
  by_cases h : r' = r
  · subst h; simp [State.readRb, State.writeRb, BlockReg.full]
  · have : r.val ≠ r'.val := fun e => h (Fin.ext e.symm)
    simp [State.readRb, State.writeRb, h, this]

/-- What the engine reads of QB after a write of a register: the block written, or what it read before. -/
theorem readQb_writeQb (s : State) (r r' : Fin 4) (b : Block Word) :
    (s.writeQb r b).readQb r' = if r' = r then b else s.readQb r' := by
  by_cases h : r' = r
  · subst h; simp [State.readQb, State.writeQb, BlockReg.full]
  · have : r.val ≠ r'.val := fun e => h (Fin.ext e.symm)
    simp [State.readQb, State.writeQb, h, this]

end Sys2Proof.Machine
end

