-- ==== Sys2Proof/Laws/State.lean ====
section
/-! SUPPORT. Each field after each named update of the state: one lemma per field per update, true by rfl. -/

namespace Sys2Proof.Machine.State

variable (s : State)

/-! ## completeOk -/

@[simp] theorem completeOk_cfg : s.completeOk.cfg = s.cfg := rfl
@[simp] theorem completeOk_ie : s.completeOk.ie = s.ie := rfl
@[simp] theorem completeOk_phase : s.completeOk.phase = .idle := rfl
@[simp] theorem completeOk_done : s.completeOk.done = true := rfl
@[simp] theorem completeOk_err : s.completeOk.err = s.err := rfl
@[simp] theorem completeOk_busErr : s.completeOk.busErr = s.busErr := rfl
@[simp] theorem completeOk_errCode : s.completeOk.errCode = s.errCode := rfl
@[simp] theorem completeOk_cmd : s.completeOk.cmd = s.cmd := rfl
@[simp] theorem completeOk_lc : s.completeOk.lc = s.lc := rfl
@[simp] theorem completeOk_p : s.completeOk.p = s.p := rfl
@[simp] theorem completeOk_width : s.completeOk.width = s.width := rfl
@[simp] theorem completeOk_height : s.completeOk.height = s.height := rfl
@[simp] theorem completeOk_mbCount : s.completeOk.mbCount = s.mbCount := rfl
@[simp] theorem completeOk_rb : s.completeOk.rb = s.rb := rfl
@[simp] theorem completeOk_qb : s.completeOk.qb = s.qb := rfl
@[simp] theorem completeOk_mem : s.completeOk.mem = s.mem := rfl
@[simp] theorem completeOk_moves : s.completeOk.moves = s.moves := rfl
@[simp] theorem completeOk_resp : s.completeOk.resp = s.resp := rfl
@[simp] theorem completeOk_draws : s.completeOk.draws = s.draws + 1 := rfl
@[simp] theorem completeOk_uninit : s.completeOk.uninit = s.uninit := rfl

/-! ## completeErr -/

@[simp] theorem completeErr_cfg (e : CmdError) : (s.completeErr e).cfg = s.cfg := rfl
@[simp] theorem completeErr_ie (e : CmdError) : (s.completeErr e).ie = s.ie := rfl
@[simp] theorem completeErr_phase (e : CmdError) : (s.completeErr e).phase = .idle := rfl
@[simp] theorem completeErr_done (e : CmdError) : (s.completeErr e).done = true := rfl
@[simp] theorem completeErr_err (e : CmdError) : (s.completeErr e).err = true := rfl
@[simp] theorem completeErr_busErr (e : CmdError) : (s.completeErr e).busErr = s.busErr := rfl
@[simp] theorem completeErr_errCode (e : CmdError) : (s.completeErr e).errCode = if s.err then s.errCode else errorCode e := rfl
@[simp] theorem completeErr_cmd (e : CmdError) : (s.completeErr e).cmd = s.cmd := rfl
@[simp] theorem completeErr_lc (e : CmdError) : (s.completeErr e).lc = s.lc := rfl
@[simp] theorem completeErr_p (e : CmdError) : (s.completeErr e).p = s.p := rfl
@[simp] theorem completeErr_width (e : CmdError) : (s.completeErr e).width = s.width := rfl
@[simp] theorem completeErr_height (e : CmdError) : (s.completeErr e).height = s.height := rfl
@[simp] theorem completeErr_mbCount (e : CmdError) : (s.completeErr e).mbCount = s.mbCount := rfl
@[simp] theorem completeErr_rb (e : CmdError) : (s.completeErr e).rb = s.rb := rfl
@[simp] theorem completeErr_qb (e : CmdError) : (s.completeErr e).qb = s.qb := rfl
@[simp] theorem completeErr_mem (e : CmdError) : (s.completeErr e).mem = s.mem := rfl
@[simp] theorem completeErr_moves (e : CmdError) : (s.completeErr e).moves = s.moves := rfl
@[simp] theorem completeErr_resp (e : CmdError) : (s.completeErr e).resp = s.resp := rfl
@[simp] theorem completeErr_draws (e : CmdError) : (s.completeErr e).draws = s.draws + 1 := rfl
@[simp] theorem completeErr_uninit (e : CmdError) : (s.completeErr e).uninit = s.uninit := rfl

/-! ## clearStatus -/

@[simp] theorem clearStatus_cfg (v : Word) : (s.clearStatus v).cfg = s.cfg := rfl
@[simp] theorem clearStatus_ie (v : Word) : (s.clearStatus v).ie = s.ie := rfl
@[simp] theorem clearStatus_phase (v : Word) : (s.clearStatus v).phase = s.phase := rfl
@[simp] theorem clearStatus_done (v : Word) : (s.clearStatus v).done = (s.done && !v.getLsbD 1) := rfl
@[simp] theorem clearStatus_err (v : Word) : (s.clearStatus v).err = (s.err && !v.getLsbD 2) := rfl
@[simp] theorem clearStatus_busErr (v : Word) : (s.clearStatus v).busErr = (s.busErr && !v.getLsbD 3) := rfl
@[simp] theorem clearStatus_errCode (v : Word) : (s.clearStatus v).errCode = if v.getLsbD 2 then 0 else s.errCode := rfl
@[simp] theorem clearStatus_cmd (v : Word) : (s.clearStatus v).cmd = s.cmd := rfl
@[simp] theorem clearStatus_lc (v : Word) : (s.clearStatus v).lc = s.lc := rfl
@[simp] theorem clearStatus_p (v : Word) : (s.clearStatus v).p = s.p := rfl
@[simp] theorem clearStatus_width (v : Word) : (s.clearStatus v).width = s.width := rfl
@[simp] theorem clearStatus_height (v : Word) : (s.clearStatus v).height = s.height := rfl
@[simp] theorem clearStatus_mbCount (v : Word) : (s.clearStatus v).mbCount = s.mbCount := rfl
@[simp] theorem clearStatus_rb (v : Word) : (s.clearStatus v).rb = s.rb := rfl
@[simp] theorem clearStatus_qb (v : Word) : (s.clearStatus v).qb = s.qb := rfl
@[simp] theorem clearStatus_mem (v : Word) : (s.clearStatus v).mem = s.mem := rfl
@[simp] theorem clearStatus_moves (v : Word) : (s.clearStatus v).moves = s.moves := rfl
@[simp] theorem clearStatus_resp (v : Word) : (s.clearStatus v).resp = s.resp := rfl
@[simp] theorem clearStatus_draws (v : Word) : (s.clearStatus v).draws = s.draws := rfl
@[simp] theorem clearStatus_uninit (v : Word) : (s.clearStatus v).uninit = s.uninit := rfl

/-! ## noteRead -/

@[simp] theorem noteRead_cfg {α : Type} (n : String) (r : BlockReg α) : (s.noteRead n r).cfg = s.cfg := rfl
@[simp] theorem noteRead_ie {α : Type} (n : String) (r : BlockReg α) : (s.noteRead n r).ie = s.ie := rfl
@[simp] theorem noteRead_phase {α : Type} (n : String) (r : BlockReg α) : (s.noteRead n r).phase = s.phase := rfl
@[simp] theorem noteRead_done {α : Type} (n : String) (r : BlockReg α) : (s.noteRead n r).done = s.done := rfl
@[simp] theorem noteRead_err {α : Type} (n : String) (r : BlockReg α) : (s.noteRead n r).err = s.err := rfl
@[simp] theorem noteRead_busErr {α : Type} (n : String) (r : BlockReg α) : (s.noteRead n r).busErr = s.busErr := rfl
@[simp] theorem noteRead_errCode {α : Type} (n : String) (r : BlockReg α) : (s.noteRead n r).errCode = s.errCode := rfl
@[simp] theorem noteRead_cmd {α : Type} (n : String) (r : BlockReg α) : (s.noteRead n r).cmd = s.cmd := rfl
@[simp] theorem noteRead_lc {α : Type} (n : String) (r : BlockReg α) : (s.noteRead n r).lc = s.lc := rfl
@[simp] theorem noteRead_p {α : Type} (n : String) (r : BlockReg α) : (s.noteRead n r).p = s.p := rfl
@[simp] theorem noteRead_width {α : Type} (n : String) (r : BlockReg α) : (s.noteRead n r).width = s.width := rfl
@[simp] theorem noteRead_height {α : Type} (n : String) (r : BlockReg α) : (s.noteRead n r).height = s.height := rfl
@[simp] theorem noteRead_mbCount {α : Type} (n : String) (r : BlockReg α) : (s.noteRead n r).mbCount = s.mbCount := rfl
@[simp] theorem noteRead_rb {α : Type} (n : String) (r : BlockReg α) : (s.noteRead n r).rb = s.rb := rfl
@[simp] theorem noteRead_qb {α : Type} (n : String) (r : BlockReg α) : (s.noteRead n r).qb = s.qb := rfl
@[simp] theorem noteRead_mem {α : Type} (n : String) (r : BlockReg α) : (s.noteRead n r).mem = s.mem := rfl
@[simp] theorem noteRead_moves {α : Type} (n : String) (r : BlockReg α) : (s.noteRead n r).moves = s.moves := rfl
@[simp] theorem noteRead_resp {α : Type} (n : String) (r : BlockReg α) : (s.noteRead n r).resp = s.resp := rfl
@[simp] theorem noteRead_draws {α : Type} (n : String) (r : BlockReg α) : (s.noteRead n r).draws = s.draws := rfl
@[simp] theorem noteRead_uninit {α : Type} (n : String) (r : BlockReg α) :
    (s.noteRead n r).uninit = s.uninit.or (if allBlock id r.written then none else some n) := rfl

/-- Reading a register whose every element is written leaves no record. -/
theorem noteRead_written {α : Type} {n : String} {r : BlockReg α} (h : allBlock id r.written = true) :
    s.noteRead n r = s := by
  simp [State.noteRead, h]

/-! ## writeRb -/

@[simp] theorem writeRb_cfg (r : Fin 4) (b : Block B64) : (s.writeRb r b).cfg = s.cfg := rfl
@[simp] theorem writeRb_ie (r : Fin 4) (b : Block B64) : (s.writeRb r b).ie = s.ie := rfl
@[simp] theorem writeRb_phase (r : Fin 4) (b : Block B64) : (s.writeRb r b).phase = s.phase := rfl
@[simp] theorem writeRb_done (r : Fin 4) (b : Block B64) : (s.writeRb r b).done = s.done := rfl
@[simp] theorem writeRb_err (r : Fin 4) (b : Block B64) : (s.writeRb r b).err = s.err := rfl
@[simp] theorem writeRb_busErr (r : Fin 4) (b : Block B64) : (s.writeRb r b).busErr = s.busErr := rfl
@[simp] theorem writeRb_errCode (r : Fin 4) (b : Block B64) : (s.writeRb r b).errCode = s.errCode := rfl
@[simp] theorem writeRb_cmd (r : Fin 4) (b : Block B64) : (s.writeRb r b).cmd = s.cmd := rfl
@[simp] theorem writeRb_lc (r : Fin 4) (b : Block B64) : (s.writeRb r b).lc = s.lc := rfl
@[simp] theorem writeRb_p (r : Fin 4) (b : Block B64) : (s.writeRb r b).p = s.p := rfl
@[simp] theorem writeRb_width (r : Fin 4) (b : Block B64) : (s.writeRb r b).width = s.width := rfl
@[simp] theorem writeRb_height (r : Fin 4) (b : Block B64) : (s.writeRb r b).height = s.height := rfl
@[simp] theorem writeRb_mbCount (r : Fin 4) (b : Block B64) : (s.writeRb r b).mbCount = s.mbCount := rfl
@[simp] theorem writeRb_rb (r : Fin 4) (b : Block B64) : (s.writeRb r b).rb = s.rb.set r.val (BlockReg.full b) := rfl
@[simp] theorem writeRb_qb (r : Fin 4) (b : Block B64) : (s.writeRb r b).qb = s.qb := rfl
@[simp] theorem writeRb_mem (r : Fin 4) (b : Block B64) : (s.writeRb r b).mem = s.mem := rfl
@[simp] theorem writeRb_moves (r : Fin 4) (b : Block B64) : (s.writeRb r b).moves = s.moves := rfl
@[simp] theorem writeRb_resp (r : Fin 4) (b : Block B64) : (s.writeRb r b).resp = s.resp := rfl
@[simp] theorem writeRb_draws (r : Fin 4) (b : Block B64) : (s.writeRb r b).draws = s.draws := rfl
@[simp] theorem writeRb_uninit (r : Fin 4) (b : Block B64) : (s.writeRb r b).uninit = s.uninit := rfl

/-! ## writeQb -/

@[simp] theorem writeQb_cfg (r : Fin 4) (b : Block Word) : (s.writeQb r b).cfg = s.cfg := rfl
@[simp] theorem writeQb_ie (r : Fin 4) (b : Block Word) : (s.writeQb r b).ie = s.ie := rfl
@[simp] theorem writeQb_phase (r : Fin 4) (b : Block Word) : (s.writeQb r b).phase = s.phase := rfl
@[simp] theorem writeQb_done (r : Fin 4) (b : Block Word) : (s.writeQb r b).done = s.done := rfl
@[simp] theorem writeQb_err (r : Fin 4) (b : Block Word) : (s.writeQb r b).err = s.err := rfl
@[simp] theorem writeQb_busErr (r : Fin 4) (b : Block Word) : (s.writeQb r b).busErr = s.busErr := rfl
@[simp] theorem writeQb_errCode (r : Fin 4) (b : Block Word) : (s.writeQb r b).errCode = s.errCode := rfl
@[simp] theorem writeQb_cmd (r : Fin 4) (b : Block Word) : (s.writeQb r b).cmd = s.cmd := rfl
@[simp] theorem writeQb_lc (r : Fin 4) (b : Block Word) : (s.writeQb r b).lc = s.lc := rfl
@[simp] theorem writeQb_p (r : Fin 4) (b : Block Word) : (s.writeQb r b).p = s.p := rfl
@[simp] theorem writeQb_width (r : Fin 4) (b : Block Word) : (s.writeQb r b).width = s.width := rfl
@[simp] theorem writeQb_height (r : Fin 4) (b : Block Word) : (s.writeQb r b).height = s.height := rfl
@[simp] theorem writeQb_mbCount (r : Fin 4) (b : Block Word) : (s.writeQb r b).mbCount = s.mbCount := rfl
@[simp] theorem writeQb_rb (r : Fin 4) (b : Block Word) : (s.writeQb r b).rb = s.rb := rfl
@[simp] theorem writeQb_qb (r : Fin 4) (b : Block Word) : (s.writeQb r b).qb = s.qb.set r.val (BlockReg.full b) := rfl
@[simp] theorem writeQb_mem (r : Fin 4) (b : Block Word) : (s.writeQb r b).mem = s.mem := rfl
@[simp] theorem writeQb_moves (r : Fin 4) (b : Block Word) : (s.writeQb r b).moves = s.moves := rfl
@[simp] theorem writeQb_resp (r : Fin 4) (b : Block Word) : (s.writeQb r b).resp = s.resp := rfl
@[simp] theorem writeQb_draws (r : Fin 4) (b : Block Word) : (s.writeQb r b).draws = s.draws := rfl
@[simp] theorem writeQb_uninit (r : Fin 4) (b : Block Word) : (s.writeQb r b).uninit = s.uninit := rfl

/-! ## writeQbElem -/

@[simp] theorem writeQbElem_cfg (e : Nat) (v : Word) : (s.writeQbElem e v).cfg = s.cfg := rfl
@[simp] theorem writeQbElem_ie (e : Nat) (v : Word) : (s.writeQbElem e v).ie = s.ie := rfl
@[simp] theorem writeQbElem_phase (e : Nat) (v : Word) : (s.writeQbElem e v).phase = s.phase := rfl
@[simp] theorem writeQbElem_done (e : Nat) (v : Word) : (s.writeQbElem e v).done = s.done := rfl
@[simp] theorem writeQbElem_err (e : Nat) (v : Word) : (s.writeQbElem e v).err = s.err := rfl
@[simp] theorem writeQbElem_busErr (e : Nat) (v : Word) : (s.writeQbElem e v).busErr = s.busErr := rfl
@[simp] theorem writeQbElem_errCode (e : Nat) (v : Word) : (s.writeQbElem e v).errCode = s.errCode := rfl
@[simp] theorem writeQbElem_cmd (e : Nat) (v : Word) : (s.writeQbElem e v).cmd = s.cmd := rfl
@[simp] theorem writeQbElem_lc (e : Nat) (v : Word) : (s.writeQbElem e v).lc = s.lc := rfl
@[simp] theorem writeQbElem_p (e : Nat) (v : Word) : (s.writeQbElem e v).p = s.p := rfl
@[simp] theorem writeQbElem_width (e : Nat) (v : Word) : (s.writeQbElem e v).width = s.width := rfl
@[simp] theorem writeQbElem_height (e : Nat) (v : Word) : (s.writeQbElem e v).height = s.height := rfl
@[simp] theorem writeQbElem_mbCount (e : Nat) (v : Word) : (s.writeQbElem e v).mbCount = s.mbCount := rfl
@[simp] theorem writeQbElem_rb (e : Nat) (v : Word) : (s.writeQbElem e v).rb = s.rb := rfl
@[simp] theorem writeQbElem_mem (e : Nat) (v : Word) : (s.writeQbElem e v).mem = s.mem := rfl
@[simp] theorem writeQbElem_moves (e : Nat) (v : Word) : (s.writeQbElem e v).moves = s.moves := rfl
@[simp] theorem writeQbElem_resp (e : Nat) (v : Word) : (s.writeQbElem e v).resp = s.resp := rfl
@[simp] theorem writeQbElem_draws (e : Nat) (v : Word) : (s.writeQbElem e v).draws = s.draws := rfl
@[simp] theorem writeQbElem_uninit (e : Nat) (v : Word) : (s.writeQbElem e v).uninit = s.uninit := rfl

/-! ## withMem -/

@[simp] theorem withMem_cfg (m : Memory) : (s.withMem m).cfg = s.cfg := rfl
@[simp] theorem withMem_ie (m : Memory) : (s.withMem m).ie = s.ie := rfl
@[simp] theorem withMem_phase (m : Memory) : (s.withMem m).phase = s.phase := rfl
@[simp] theorem withMem_done (m : Memory) : (s.withMem m).done = s.done := rfl
@[simp] theorem withMem_err (m : Memory) : (s.withMem m).err = s.err := rfl
@[simp] theorem withMem_busErr (m : Memory) : (s.withMem m).busErr = s.busErr := rfl
@[simp] theorem withMem_errCode (m : Memory) : (s.withMem m).errCode = s.errCode := rfl
@[simp] theorem withMem_cmd (m : Memory) : (s.withMem m).cmd = s.cmd := rfl
@[simp] theorem withMem_lc (m : Memory) : (s.withMem m).lc = s.lc := rfl
@[simp] theorem withMem_p (m : Memory) : (s.withMem m).p = s.p := rfl
@[simp] theorem withMem_width (m : Memory) : (s.withMem m).width = s.width := rfl
@[simp] theorem withMem_height (m : Memory) : (s.withMem m).height = s.height := rfl
@[simp] theorem withMem_mbCount (m : Memory) : (s.withMem m).mbCount = s.mbCount := rfl
@[simp] theorem withMem_rb (m : Memory) : (s.withMem m).rb = s.rb := rfl
@[simp] theorem withMem_qb (m : Memory) : (s.withMem m).qb = s.qb := rfl
@[simp] theorem withMem_mem (m : Memory) : (s.withMem m).mem = m := rfl
@[simp] theorem withMem_moves (m : Memory) : (s.withMem m).moves = s.moves := rfl
@[simp] theorem withMem_resp (m : Memory) : (s.withMem m).resp = s.resp := rfl
@[simp] theorem withMem_draws (m : Memory) : (s.withMem m).draws = s.draws := rfl
@[simp] theorem withMem_uninit (m : Memory) : (s.withMem m).uninit = s.uninit := rfl

/-! ## withMbCount -/

@[simp] theorem withMbCount_cfg (v : Word) : (s.withMbCount v).cfg = s.cfg := rfl
@[simp] theorem withMbCount_ie (v : Word) : (s.withMbCount v).ie = s.ie := rfl
@[simp] theorem withMbCount_phase (v : Word) : (s.withMbCount v).phase = s.phase := rfl
@[simp] theorem withMbCount_done (v : Word) : (s.withMbCount v).done = s.done := rfl
@[simp] theorem withMbCount_err (v : Word) : (s.withMbCount v).err = s.err := rfl
@[simp] theorem withMbCount_busErr (v : Word) : (s.withMbCount v).busErr = s.busErr := rfl
@[simp] theorem withMbCount_errCode (v : Word) : (s.withMbCount v).errCode = s.errCode := rfl
@[simp] theorem withMbCount_cmd (v : Word) : (s.withMbCount v).cmd = s.cmd := rfl
@[simp] theorem withMbCount_lc (v : Word) : (s.withMbCount v).lc = s.lc := rfl
@[simp] theorem withMbCount_p (v : Word) : (s.withMbCount v).p = s.p := rfl
@[simp] theorem withMbCount_width (v : Word) : (s.withMbCount v).width = s.width := rfl
@[simp] theorem withMbCount_height (v : Word) : (s.withMbCount v).height = s.height := rfl
@[simp] theorem withMbCount_mbCount (v : Word) : (s.withMbCount v).mbCount = v := rfl
@[simp] theorem withMbCount_rb (v : Word) : (s.withMbCount v).rb = s.rb := rfl
@[simp] theorem withMbCount_qb (v : Word) : (s.withMbCount v).qb = s.qb := rfl
@[simp] theorem withMbCount_mem (v : Word) : (s.withMbCount v).mem = s.mem := rfl
@[simp] theorem withMbCount_moves (v : Word) : (s.withMbCount v).moves = s.moves := rfl
@[simp] theorem withMbCount_resp (v : Word) : (s.withMbCount v).resp = s.resp := rfl
@[simp] theorem withMbCount_draws (v : Word) : (s.withMbCount v).draws = s.draws := rfl
@[simp] theorem withMbCount_uninit (v : Word) : (s.withMbCount v).uninit = s.uninit := rfl

/-! ## withMoves -/

@[simp] theorem withMoves_cfg (ms : List Move) : (s.withMoves ms).cfg = s.cfg := rfl
@[simp] theorem withMoves_ie (ms : List Move) : (s.withMoves ms).ie = s.ie := rfl
@[simp] theorem withMoves_phase (ms : List Move) : (s.withMoves ms).phase = s.phase := rfl
@[simp] theorem withMoves_done (ms : List Move) : (s.withMoves ms).done = s.done := rfl
@[simp] theorem withMoves_err (ms : List Move) : (s.withMoves ms).err = s.err := rfl
@[simp] theorem withMoves_busErr (ms : List Move) : (s.withMoves ms).busErr = s.busErr := rfl
@[simp] theorem withMoves_errCode (ms : List Move) : (s.withMoves ms).errCode = s.errCode := rfl
@[simp] theorem withMoves_cmd (ms : List Move) : (s.withMoves ms).cmd = s.cmd := rfl
@[simp] theorem withMoves_lc (ms : List Move) : (s.withMoves ms).lc = s.lc := rfl
@[simp] theorem withMoves_p (ms : List Move) : (s.withMoves ms).p = s.p := rfl
@[simp] theorem withMoves_width (ms : List Move) : (s.withMoves ms).width = s.width := rfl
@[simp] theorem withMoves_height (ms : List Move) : (s.withMoves ms).height = s.height := rfl
@[simp] theorem withMoves_mbCount (ms : List Move) : (s.withMoves ms).mbCount = s.mbCount := rfl
@[simp] theorem withMoves_rb (ms : List Move) : (s.withMoves ms).rb = s.rb := rfl
@[simp] theorem withMoves_qb (ms : List Move) : (s.withMoves ms).qb = s.qb := rfl
@[simp] theorem withMoves_mem (ms : List Move) : (s.withMoves ms).mem = s.mem := rfl
@[simp] theorem withMoves_moves (ms : List Move) : (s.withMoves ms).moves = ms := rfl
@[simp] theorem withMoves_resp (ms : List Move) : (s.withMoves ms).resp = s.resp := rfl
@[simp] theorem withMoves_draws (ms : List Move) : (s.withMoves ms).draws = s.draws := rfl
@[simp] theorem withMoves_uninit (ms : List Move) : (s.withMoves ms).uninit = s.uninit := rfl

/-! ## issue -/

@[simp] theorem issue_cfg (w : Word) : (s.issue w).cfg = s.cfg := rfl
@[simp] theorem issue_ie (w : Word) : (s.issue w).ie = s.ie := rfl
@[simp] theorem issue_phase (w : Word) : (s.issue w).phase = .busy := rfl
@[simp] theorem issue_done (w : Word) : (s.issue w).done = s.done := rfl
@[simp] theorem issue_err (w : Word) : (s.issue w).err = s.err := rfl
@[simp] theorem issue_busErr (w : Word) : (s.issue w).busErr = s.busErr := rfl
@[simp] theorem issue_errCode (w : Word) : (s.issue w).errCode = s.errCode := rfl
@[simp] theorem issue_cmd (w : Word) : (s.issue w).cmd = w := rfl
@[simp] theorem issue_lc (w : Word) : (s.issue w).lc = w := rfl
@[simp] theorem issue_p (w : Word) : (s.issue w).p = s.p := rfl
@[simp] theorem issue_width (w : Word) : (s.issue w).width = s.width := rfl
@[simp] theorem issue_height (w : Word) : (s.issue w).height = s.height := rfl
@[simp] theorem issue_mbCount (w : Word) : (s.issue w).mbCount = s.mbCount := rfl
@[simp] theorem issue_rb (w : Word) : (s.issue w).rb = s.rb := rfl
@[simp] theorem issue_qb (w : Word) : (s.issue w).qb = s.qb := rfl
@[simp] theorem issue_mem (w : Word) : (s.issue w).mem = s.mem := rfl
@[simp] theorem issue_moves (w : Word) : (s.issue w).moves = s.moves := rfl
@[simp] theorem issue_resp (w : Word) : (s.issue w).resp = s.resp := rfl
@[simp] theorem issue_draws (w : Word) : (s.issue w).draws = s.draws := rfl
@[simp] theorem issue_uninit (w : Word) : (s.issue w).uninit = s.uninit := rfl

/-! ## respond -/

@[simp] theorem respond_cfg (r : Response) : (s.respond r).cfg = s.cfg := rfl
@[simp] theorem respond_ie (r : Response) : (s.respond r).ie = s.ie := rfl
@[simp] theorem respond_phase (r : Response) : (s.respond r).phase = s.phase := rfl
@[simp] theorem respond_done (r : Response) : (s.respond r).done = s.done := rfl
@[simp] theorem respond_err (r : Response) : (s.respond r).err = s.err := rfl
@[simp] theorem respond_busErr (r : Response) : (s.respond r).busErr = s.busErr := rfl
@[simp] theorem respond_errCode (r : Response) : (s.respond r).errCode = s.errCode := rfl
@[simp] theorem respond_cmd (r : Response) : (s.respond r).cmd = s.cmd := rfl
@[simp] theorem respond_lc (r : Response) : (s.respond r).lc = s.lc := rfl
@[simp] theorem respond_p (r : Response) : (s.respond r).p = s.p := rfl
@[simp] theorem respond_width (r : Response) : (s.respond r).width = s.width := rfl
@[simp] theorem respond_height (r : Response) : (s.respond r).height = s.height := rfl
@[simp] theorem respond_mbCount (r : Response) : (s.respond r).mbCount = s.mbCount := rfl
@[simp] theorem respond_rb (r : Response) : (s.respond r).rb = s.rb := rfl
@[simp] theorem respond_qb (r : Response) : (s.respond r).qb = s.qb := rfl
@[simp] theorem respond_mem (r : Response) : (s.respond r).mem = s.mem := rfl
@[simp] theorem respond_moves (r : Response) : (s.respond r).moves = s.moves := rfl
@[simp] theorem respond_resp (r : Response) : (s.respond r).resp = some r := rfl
@[simp] theorem respond_draws (r : Response) : (s.respond r).draws = s.draws + 1 := rfl
@[simp] theorem respond_uninit (r : Response) : (s.respond r).uninit = s.uninit := rfl

/-! ## raiseBusError -/

@[simp] theorem raiseBusError_cfg (r : Response) : (s.raiseBusError r).cfg = s.cfg := rfl
@[simp] theorem raiseBusError_ie (r : Response) : (s.raiseBusError r).ie = s.ie := rfl
@[simp] theorem raiseBusError_phase (r : Response) : (s.raiseBusError r).phase = s.phase := rfl
@[simp] theorem raiseBusError_done (r : Response) : (s.raiseBusError r).done = s.done := rfl
@[simp] theorem raiseBusError_err (r : Response) : (s.raiseBusError r).err = s.err := rfl
@[simp] theorem raiseBusError_busErr (r : Response) : (s.raiseBusError r).busErr = true := rfl
@[simp] theorem raiseBusError_errCode (r : Response) : (s.raiseBusError r).errCode = s.errCode := rfl
@[simp] theorem raiseBusError_cmd (r : Response) : (s.raiseBusError r).cmd = s.cmd := rfl
@[simp] theorem raiseBusError_lc (r : Response) : (s.raiseBusError r).lc = s.lc := rfl
@[simp] theorem raiseBusError_p (r : Response) : (s.raiseBusError r).p = s.p := rfl
@[simp] theorem raiseBusError_width (r : Response) : (s.raiseBusError r).width = s.width := rfl
@[simp] theorem raiseBusError_height (r : Response) : (s.raiseBusError r).height = s.height := rfl
@[simp] theorem raiseBusError_mbCount (r : Response) : (s.raiseBusError r).mbCount = s.mbCount := rfl
@[simp] theorem raiseBusError_rb (r : Response) : (s.raiseBusError r).rb = s.rb := rfl
@[simp] theorem raiseBusError_qb (r : Response) : (s.raiseBusError r).qb = s.qb := rfl
@[simp] theorem raiseBusError_mem (r : Response) : (s.raiseBusError r).mem = s.mem := rfl
@[simp] theorem raiseBusError_moves (r : Response) : (s.raiseBusError r).moves = s.moves := rfl
@[simp] theorem raiseBusError_resp (r : Response) : (s.raiseBusError r).resp = some r := rfl
@[simp] theorem raiseBusError_draws (r : Response) : (s.raiseBusError r).draws = s.draws + 1 := rfl
@[simp] theorem raiseBusError_uninit (r : Response) : (s.raiseBusError r).uninit = s.uninit := rfl

/-! ## Derived observations -/

@[simp] theorem completeOk_busy : s.completeOk.busy = false := rfl
@[simp] theorem completeErr_busy (e : CmdError) : (s.completeErr e).busy = false := rfl
@[simp] theorem clearStatus_busy (v : Word) : (s.clearStatus v).busy = s.busy := rfl
@[simp] theorem noteRead_busy {α : Type} (n : String) (r : BlockReg α) : (s.noteRead n r).busy = s.busy := rfl
@[simp] theorem writeRb_busy (r : Fin 4) (b : Block B64) : (s.writeRb r b).busy = s.busy := rfl
@[simp] theorem writeQb_busy (r : Fin 4) (b : Block Word) : (s.writeQb r b).busy = s.busy := rfl
@[simp] theorem writeQbElem_busy (e : Nat) (v : Word) : (s.writeQbElem e v).busy = s.busy := rfl
@[simp] theorem withMem_busy (m : Memory) : (s.withMem m).busy = s.busy := rfl
@[simp] theorem withMbCount_busy (v : Word) : (s.withMbCount v).busy = s.busy := rfl
@[simp] theorem withMoves_busy (ms : List Move) : (s.withMoves ms).busy = s.busy := rfl
@[simp] theorem issue_busy (w : Word) : (s.issue w).busy = true := rfl
@[simp] theorem respond_busy (r : Response) : (s.respond r).busy = s.busy := rfl
@[simp] theorem raiseBusError_busy (r : Response) : (s.raiseBusError r).busy = s.busy := rfl

/-- STATUS.BUSY is the phase (10_state R48). -/
theorem busy_iff : s.busy = true ↔ s.phase = .busy := by simp [State.busy]

theorem not_busy_iff : s.busy = false ↔ s.phase = .idle := by
  cases h : s.phase <;> simp [State.busy, h]

end Sys2Proof.Machine.State
end

