-- ==== Sys2Proof/Laws/Exec.lean ====
section
/-! SUPPORT. What each command's meaning answers, case by case, in the terms of Safety.lean: its errors, its completion
and what it leaves of UNINIT. -/

namespace Sys2Proof

open Machine

variable {s : State} {rd rs : Fin 4} {b : BitVec 3} {m : BitVec 16}

/-! ## Checks -/

theorem completeOk_eq (s : State) : s.completeOk = succeed s := rfl

theorem completeErr_eq (e : CmdError) (s : State) : s.completeErr e = failWith (errorCode e) s := rfl

/-- What reading a block register leaves: no record where every element is written, else UNINIT. -/
theorem noteRead_cases {α : Type} (n : String) (r : BlockReg α) (s : State) :
    ((∀ i j, elem r.written i j = true) → s.noteRead n r = s) ∧
      ((¬ ∀ i j, elem r.written i j = true) → s.noteRead n r = uninitRead n s) := by
  have key : allBlock id r.written = true ↔ ∀ i j, elem r.written i j = true := allBlock_iff
  rw [← key]
  refine ⟨s.noteRead_written, fun h => ?_⟩
  unfold State.noteRead uninitRead
  rw [if_neg h]
  cases s.uninit <;> rfl

theorem noteRb_written {n : String} (h : rbWritten s rs) : s.noteRead n s.rb[rs] = s := (noteRead_cases n _ s).1 h

theorem noteQb_written {n : String} (h : qbWritten s rs) : s.noteRead n s.qb[rs] = s := (noteRead_cases n _ s).1 h

theorem noteRb_unwritten {n : String} (h : ¬ rbWritten s rs) : s.noteRead n s.rb[rs] = uninitRead n s :=
  (noteRead_cases n _ s).2 h

theorem noteQb_unwritten {n : String} (h : ¬ qbWritten s rs) : s.noteRead n s.qb[rs] = uninitRead n s :=
  (noteRead_cases n _ s).2 h

theorem paramOk_pos (h : 0 < s.p.toInt) : s.paramOk = true := decide_eq_true h

theorem paramOk_nonpos (h : s.p.toInt ≤ 0) : s.paramOk = false := decide_eq_false (by unfold State.pInt; omega)

theorem blockSelectorOk_lt (h : b.toNat < 6) : blockSelectorOk b = true := decide_eq_true h

/-- `dims_valid` clause by clause (60_exceptions R304). -/
theorem dimsValid_iff {c : Params} {w h : Nat} :
    dimsValid c w h = true ↔
      w % 16 = 0 ∧ 16 ≤ w ∧ w ≤ c.maxW ∧ h % 16 = 0 ∧ 16 ≤ h ∧ h ≤ c.maxH := by
  simp only [dimsValid, Bool.and_eq_true, decide_eq_true_eq]
  tauto

theorem tileError_none (hb : b.toNat < 6) (hd : s.dimsOk = true) (hm : m.toNat < s.tiles) : s.tileError b m = none := by
  rw [State.tileError, blockSelectorOk_lt hb, hd, if_neg (by simp), if_neg (by simp), if_neg (by omega)]

theorem slotError_none (hb : b.toNat < 6) (hm : m.toNat < maxMb s.cfg) : s.slotError b m = none := by
  rw [State.slotError, blockSelectorOk_lt hb, if_neg (by simp), if_neg (by omega)]

theorem pictureError_none (hd : s.dimsOk = true) (hp : 0 < s.p.toInt) : s.pictureError = none := by
  rw [State.pictureError, hd, paramOk_pos hp, if_neg (by simp), if_neg (by simp)]

theorem macroblockError_none (hd : s.dimsOk = true) (hp : 0 < s.p.toInt) (hm : m.toNat < s.tiles) :
    s.macroblockError m = none := by
  simp only [State.macroblockError, pictureError_none hd hp]
  rw [if_neg (by omega)]

theorem reconPicError_none (hd : s.dimsOk = true) (hp : 0 < s.p.toInt) (hm : s.mbCount.toNat = s.tiles) :
    s.reconPicError = none := by
  simp only [State.reconPicError, pictureError_none hd hp]
  rw [if_pos hm]

/-! ## The block commands -/

/-- The end of a quantizing command. -/
theorem commitQuantized_eq (rd : Fin 4) (q : Block Int) (s : State) :
    s.commitQuantized rd q = if blockFits q then loadQb rd (toWords q) s else failWith 6 s := rfl

theorem execFdct_reads (rd rs : Fin 4) (s : State) :
    execFdct rd rs s = .next (loadRb rd (fwd s.cfg s.draws 0 s.rb[rs].vals) (s.noteRead "FDCT" s.rb[rs])) := rfl

theorem execIdct_reads (rd rs : Fin 4) (s : State) :
    execIdct rd rs s = .next (loadRb rd (inv s.cfg s.draws 0 s.rb[rs].vals) (s.noteRead "IDCT" s.rb[rs])) := rfl

theorem execQuant_reads (hp : 0 < s.p.toInt) :
    execQuant rd rs s = .next ((s.noteRead "QUANT" s.rb[rs]).commitQuantized rd
      (quantize s.cfg s.p.toInt.toNat s.rb[rs].vals)) := by
  rw [execQuant, if_pos (paramOk_pos hp)]; rfl

theorem execC2q_reads (hp : 0 < s.p.toInt) :
    execC2q rd rs s = .next ((s.noteRead "C2Q" s.rb[rs]).commitQuantized rd
      (quantize s.cfg s.p.toInt.toNat (fwd s.cfg s.draws 0 s.rb[rs].vals))) := by
  rw [execC2q, if_pos (paramOk_pos hp)]; rfl

theorem execDeq_reads (hp : 0 < s.p.toInt) :
    execDeq rd rs s = .next (loadRb rd (dequantize s.cfg s.p.toInt.toNat s.qb[rs].vals)
      (s.noteRead "DEQ" s.qb[rs])) := by
  rw [execDeq, if_pos (paramOk_pos hp)]; rfl

theorem execQ2c_reads (hp : 0 < s.p.toInt) :
    execQ2c rd rs s = .next (loadRb rd (q2cBlock s.cfg s.p.toInt.toNat s.draws 0 s.qb[rs].vals)
      (s.noteRead "Q2C" s.qb[rs])) := by
  rw [execQ2c, if_pos (paramOk_pos hp)]; rfl

theorem execFdct_written (h : rbWritten s rs) :
    execFdct rd rs s = .next (loadRb rd (fwd s.cfg s.draws 0 s.rb[rs].vals) s) := by
  rw [execFdct_reads, noteRb_written h]

theorem execIdct_written (h : rbWritten s rs) :
    execIdct rd rs s = .next (loadRb rd (inv s.cfg s.draws 0 s.rb[rs].vals) s) := by
  rw [execIdct_reads, noteRb_written h]

theorem execQuant_written (hp : 0 < s.p.toInt) (h : rbWritten s rs) :
    execQuant rd rs s = .next (s.commitQuantized rd (quantize s.cfg s.p.toInt.toNat s.rb[rs].vals)) := by
  rw [execQuant_reads hp, noteRb_written h]

theorem execC2q_written (hp : 0 < s.p.toInt) (h : rbWritten s rs) :
    execC2q rd rs s =
      .next (s.commitQuantized rd (quantize s.cfg s.p.toInt.toNat (fwd s.cfg s.draws 0 s.rb[rs].vals))) := by
  rw [execC2q_reads hp, noteRb_written h]

theorem execDeq_written (hp : 0 < s.p.toInt) (h : qbWritten s rs) :
    execDeq rd rs s = .next (loadRb rd (dequantize s.cfg s.p.toInt.toNat s.qb[rs].vals) s) := by
  rw [execDeq_reads hp, noteQb_written h]

theorem execQ2c_written (hp : 0 < s.p.toInt) (h : qbWritten s rs) :
    execQ2c rd rs s = .next (loadRb rd (q2cBlock s.cfg s.p.toInt.toNat s.draws 0 s.qb[rs].vals) s) := by
  rw [execQ2c_reads hp, noteQb_written h]

/-! ## The block moves -/

theorem execLdblk_tile (he : s.tileError b m = none) :
    execLdblk rd b m s = .next (loadRb rd (s.blockIn m.toNat b.toNat) s) := by
  rw [execLdblk, he]; rfl

theorem execStblk_reads (he : s.tileError b m = none) :
    execStblk rs b m s = .next (succeed { s.noteRead "STBLK" s.rb[rs] with
      mem := s.mem.writeRuns (blockOutRuns s m.toNat b.toNat s.rb[rs].vals) }) := by
  rw [execStblk, he]; rfl

theorem execStblk_tile (he : s.tileError b m = none) (h : rbWritten s rs) :
    execStblk rs b m s =
      .next (succeed { s with mem := s.mem.writeRuns (blockOutRuns s m.toNat b.toNat s.rb[rs].vals) }) := by
  rw [execStblk_reads he, noteRb_written h]

theorem execLdq_slot (he : s.slotError b m = none) :
    execLdq rd b m s = .next (loadQb rd (s.coef m.toNat b.toNat) s) := by
  rw [execLdq, he]; rfl

theorem execStq_reads (he : s.slotError b m = none) :
    execStq rs b m s = .next (succeed { s.noteRead "STQ" s.qb[rs] with
      mem := s.mem.write (coefAddr m.toNat b.toNat) (blockBytes s.qb[rs].vals) }) := by
  rw [execStq, he]; rfl

theorem execStq_slot (he : s.slotError b m = none) (h : qbWritten s rs) :
    execStq rs b m s =
      .next (succeed { s with mem := s.mem.write (coefAddr m.toNat b.toNat) (blockBytes s.qb[rs].vals) }) := by
  rw [execStq_reads he, noteQb_written h]

/-! ## Macroblocks and pictures -/

theorem execCodeMb_checked (he : s.macroblockError m = none) :
    execCodeMb m s =
      if (s.codeMacroblock m.toNat).all blockFits then
        .next (succeed { s with mem := s.mem.write (slotAddr m.toNat) (codedBytes (s.codeMacroblock m.toNat)) })
      else .next (failWith 6 s) := by
  rw [execCodeMb, he]; rfl

theorem execReconMb_checked (he : s.macroblockError m = none) :
    execReconMb m s = .next (succeed { s with mem := s.mem.writeRuns (s.reconMacroblockRuns m.toNat) }) := by
  rw [execReconMb, he]; rfl

theorem execCodePic_checked (he : s.pictureError = none) :
    execCodePic s =
      if s.codePicture.all blockFits then
        .next (succeed { s with
          mem := s.mem.write (slotAddr 0) (codedBytes s.codePicture), mbCount := BitVec.ofNat 32 s.tiles })
      else .next (failWith 6 s) := by
  rw [execCodePic, he]; rfl

theorem execReconPic_checked (he : s.reconPicError = none) :
    execReconPic s = .next (succeed { s with mem := s.mem.writeRuns s.reconPictureRuns }) := by
  rw [execReconPic, he]; rfl

end Sys2Proof
end

