-- ==== Sys2Proof/Laws/Region.lean ====
section
/-! SUPPORT. The geometry of tiles and blocks, which bytes of OUT the runs of a block cover, and what they write there. -/

namespace Sys2Proof.Machine

/-! ## Geometry -/

/-- A tile of the picture lies inside it (00_scope R28, R29; 42_region R220). -/
theorem tile_inside {tpr rows m : Nat} (hm : m < tpr * rows) :
    tileX tpr m + 16 ≤ 16 * tpr ∧ tileY tpr m + 16 ≤ 16 * rows := by
  have hpos : 0 < tpr := Nat.pos_of_ne_zero (by rintro rfl; omega)
  have h1 := Nat.mod_lt m hpos
  have h2 : m / tpr < rows := Nat.div_lt_of_lt_mul hm
  unfold tileX tileY
  omega

theorem lumaX_le (b : Nat) : lumaX b ≤ 8 := by unfold lumaX; omega

theorem lumaY_le {b : Nat} (h : b ≤ 3) : lumaY b ≤ 8 := by unfold lumaY; omega

/-- Two samples of a plane with the same address are the same sample. -/
theorem sample_injective {w x y x' y' : Nat} (hx : x < w) (hx' : x' < w) (h : y * w + x = y' * w + x') :
    x = x' ∧ y = y' := by
  have hw : 0 < w := by omega
  have h1 : (y * w + x) / w = y := by
    rw [Nat.add_comm, Nat.add_mul_div_right _ _ hw, Nat.div_eq_of_lt hx, Nat.zero_add]
  have h2 : (y' * w + x') / w = y' := by
    rw [Nat.add_comm, Nat.add_mul_div_right _ _ hw, Nat.div_eq_of_lt hx', Nat.zero_add]
  have : y = y' := by rw [← h1, h, h2]
  subst this
  omega

theorem outAddr_add (c : Params) (p x y k : Nat) : outAddr c p x y + k = outAddr c p (x + k) y := by
  unfold outAddr; omega

/-- Samples of one OUT plane with the same address. -/
theorem outAddr_injective {c : Params} {p x y x' y' : Nat} (hx : x < c.maxW) (hx' : x' < c.maxW)
    (h : outAddr c p x y = outAddr c p x' y') : x = x' ∧ y = y' := by
  apply sample_injective hx hx'
  unfold outAddr at h; omega

/-! ## Rows of pixels -/

@[simp] theorem length_pixelRow (r : PixRound) (x : Block B64) (i : Fin 8) : (pixelRow r x i).length = 8 := by
  simp [pixelRow]

theorem getElem?_pixelRow (r : PixRound) (x : Block B64) (i j : Fin 8) :
    (pixelRow r x i)[j.val]? = some (pix r (elem x i j)) := by
  simp [pixelRow]

@[simp] theorem length_doubled (bs : List Byte) : (doubled bs).length = 2 * bs.length := by
  induction bs with
  | nil => rfl
  | cons b bs ih =>
    have : doubled (b :: bs) = b :: b :: doubled bs := rfl
    rw [this]; simp only [List.length_cons, ih]; omega

theorem getElem?_doubled (bs : List Byte) (k : Nat) : (doubled bs)[k]? = bs[k / 2]? := by
  induction bs generalizing k with
  | nil => simp [doubled]
  | cons b bs ih =>
    have : doubled (b :: bs) = b :: b :: doubled bs := rfl
    rw [this]
    match k with
    | 0 => rfl
    | 1 => rfl
    | k + 2 =>
      have h : (k + 2) / 2 = k / 2 + 1 := by omega
      rw [h, List.getElem?_cons_succ, List.getElem?_cons_succ, List.getElem?_cons_succ, ih]

/-! ## Luma -/

/-- The address of sample [i][j] of luma block b of tile m of OUT (42_region R221, R226). -/
def lumaOut (s : State) (m b : Nat) (i j : Fin 8) : Nat :=
  outAddr s.cfg 0 (tileX s.tpr m + lumaX b + j.val) (tileY s.tpr m + lumaY b + i.val)

theorem covers_lumaRuns {s : State} {m b a : Nat} {x : Block B64} {r : Nat × List Byte} (hr : r ∈ lumaRuns s m b x)
    (hc : covers r a) :
    ∃ i j, a = lumaOut s m b i j ∧ r.2[a - r.1]? = some (pix s.cfg.pixRound (elem x i j)) := by
  simp only [lumaRuns, List.mem_map, List.mem_finRange, true_and] at hr
  obtain ⟨i, rfl⟩ := hr
  unfold covers at hc
  simp only [length_pixelRow] at hc
  refine ⟨i, ⟨a - outAddr s.cfg 0 (tileX s.tpr m + lumaX b) (tileY s.tpr m + lumaY b + i.val), by omega⟩, ?_, ?_⟩
  · rw [lumaOut, ← outAddr_add]; simp only; omega
  · rw [← getElem?_pixelRow]

theorem lumaRuns_cover (s : State) (m b : Nat) (x : Block B64) (i j : Fin 8) :
    ∃ r ∈ lumaRuns s m b x, covers r (lumaOut s m b i j) := by
  refine ⟨_, List.mem_map_of_mem (List.mem_finRange i), ?_⟩
  unfold covers lumaOut
  rw [← outAddr_add _ _ (tileX s.tpr m + lumaX b)]
  simp only [length_pixelRow]
  omega

theorem lumaOut_injective {s : State} {m b : Nat} (hw : tileX s.tpr m + 16 ≤ s.cfg.maxW) {i j i' j' : Fin 8}
    (h : lumaOut s m b i j = lumaOut s m b i' j') : i = i' ∧ j = j' := by
  have := lumaX_le b
  have := outAddr_injective (by omega) (by omega) h
  exact ⟨Fin.ext (by omega), Fin.ext (by omega)⟩

/-! ## Chroma -/

/-- The address of sample (2j + e, 2i + d) of tile m of OUT plane c (42_region R223). -/
def chromaOut (s : State) (m c : Nat) (i j : Fin 8) (d e : Fin 2) : Nat :=
  outAddr s.cfg c (tileX s.tpr m + 2 * j.val + e.val) (tileY s.tpr m + 2 * i.val + d.val)

theorem covers_chromaRuns {s : State} {m c a : Nat} {x : Block B64} {r : Nat × List Byte}
    (hr : r ∈ chromaRuns s m c x) (hc : covers r a) :
    ∃ i j d e, a = chromaOut s m c i j d e ∧ r.2[a - r.1]? = some (pix s.cfg.pixRound (elem x i j)) := by
  simp only [chromaRuns, List.mem_flatMap, List.mem_finRange, true_and, List.mem_cons, List.not_mem_nil, or_false] at hr
  obtain ⟨i, hr⟩ := hr
  have key : ∀ (d : Fin 2), r =
      (outAddr s.cfg c (tileX s.tpr m) (tileY s.tpr m + 2 * i.val + d.val), doubled (pixelRow s.cfg.pixRound x i)) →
      ∃ i j d e, a = chromaOut s m c i j d e ∧ r.2[a - r.1]? = some (pix s.cfg.pixRound (elem x i j)) := by
    rintro d rfl
    unfold covers at hc
    simp only [length_doubled, length_pixelRow] at hc
    refine ⟨i, ⟨(a - outAddr s.cfg c (tileX s.tpr m) (tileY s.tpr m + 2 * i.val + d.val)) / 2, by omega⟩, d,
      ⟨(a - outAddr s.cfg c (tileX s.tpr m) (tileY s.tpr m + 2 * i.val + d.val)) % 2, by omega⟩, ?_, ?_⟩
    · rw [chromaOut, Nat.add_assoc (tileX s.tpr m), ← outAddr_add]; simp only; omega
    · rw [getElem?_doubled, ← getElem?_pixelRow]
  rcases hr with hr | hr
  · exact key 0 hr
  · exact key 1 hr

theorem chromaRuns_cover (s : State) (m c : Nat) (x : Block B64) (i j : Fin 8) (d e : Fin 2) :
    ∃ r ∈ chromaRuns s m c x, covers r (chromaOut s m c i j d e) := by
  refine ⟨(outAddr s.cfg c (tileX s.tpr m) (tileY s.tpr m + 2 * i.val + d.val), doubled (pixelRow s.cfg.pixRound x i)),
    ?_, ?_⟩
  · rw [chromaRuns, List.mem_flatMap]
    refine ⟨i, List.mem_finRange i, ?_⟩
    rcases (by omega : d.val = 0 ∨ d.val = 1) with h | h <;> simp [h]
  · unfold covers chromaOut
    rw [Nat.add_assoc (tileX s.tpr m), ← outAddr_add]
    simp only [length_doubled, length_pixelRow]
    omega

theorem chromaOut_injective {s : State} {m c : Nat} (hw : tileX s.tpr m + 16 ≤ s.cfg.maxW) {i j i' j' : Fin 8}
    {d e d' e' : Fin 2} (h : chromaOut s m c i j d e = chromaOut s m c i' j' d' e') :
    i = i' ∧ j = j' ∧ d = d' ∧ e = e' := by
  have := outAddr_injective (by omega) (by omega) h
  exact ⟨Fin.ext (by omega), Fin.ext (by omega), Fin.ext (by omega), Fin.ext (by omega)⟩

/-! ## Coefficient blocks -/

theorem length_flatMap_const {α : Type} (l : List α) (f : α → List Byte) (n : Nat) (h : ∀ x ∈ l, (f x).length = n) :
    (l.flatMap f).length = n * l.length := by
  induction l with
  | nil => simp
  | cons x l ih =>
    rw [List.flatMap_cons, List.length_append, h x (by simp), ih (fun y hy => h y (by simp [hy])), List.length_cons]
    ring

theorem getElem?_flatMap_const {α : Type} (l : List α) (f : α → List Byte) (n : Nat) (h : ∀ x ∈ l, (f x).length = n)
    {k i : Nat} {x : α} (hk : l[k]? = some x) (hi : i < n) : (l.flatMap f)[n * k + i]? = (f x)[i]? := by
  induction l generalizing k with
  | nil => simp at hk
  | cons y l ih =>
    rw [List.flatMap_cons]
    cases k with
    | zero =>
      rw [List.getElem?_cons_zero] at hk
      cases hk
      have hx := h x (by simp)
      rw [List.getElem?_append_left (by rw [hx]; omega)]
      simp
    | succ k =>
      rw [List.getElem?_cons_succ] at hk
      have hy := h y (by simp)
      rw [List.getElem?_append_right (by rw [hy]; nlinarith), hy]
      have e : n * (k + 1) + i - n = n * k + i := by
        rw [Nat.mul_add, Nat.mul_one]; omega
      rw [e]
      exact ih (fun z hz => h z (by simp [hz])) hk

@[simp] theorem length_blockBytes (q : Block Word) : (blockBytes q).length = 256 := by
  rw [blockBytes, length_flatMap_const _ _ 4 (by simp)]
  simp

/-- Byte n of element [i][j] of a coefficient block. -/
theorem getElem?_blockBytes (q : Block Word) (i j : Fin 8) {n : Nat} (hn : n < 4) :
    (blockBytes q)[4 * (8 * i.val + j.val) + n]? = some (BitVec.ofNat 8 ((elem q i j).toNat / 256 ^ n)) := by
  have hk : q.toList[8 * i.val + j.val]? = some (elem q i j) := by
    rw [Vector.getElem?_toList, Vector.getElem?_eq_getElem (by omega)]; rfl
  rw [blockBytes, getElem?_flatMap_const _ _ 4 (by simp) hk hn]
  have := @BitVec.isLt 32
  rw [show leBytes 4 (elem q i j).toNat = leBytes 4 (elem q i j).toNat from rfl]
  match n, hn with
  | 0, _ => simp [leBytes]
  | 1, _ => simp [leBytes]
  | 2, _ => simp [leBytes, Nat.div_div_eq_div_mul]
  | 3, _ => simp [leBytes, Nat.div_div_eq_div_mul]

end Sys2Proof.Machine
end

