-- ==== Sys2Proof/Laws/HostAccess.lean ====
section
/-! SUPPORT. Host accesses: where an access lies, and what a read and a write answer there. -/

namespace Sys2Proof

open Machine

variable {s : State} {c : Params} {a : Nat} {n : Width} {r : Region}

/-! ## Where an access lies -/

theorem widthBytes_pos (n : Width) : 0 < widthBytes n := by cases n <;> decide

/-- An access with a region: wholly inside it, with an allowed width and alignment (20_memory R110). -/
theorem accessRegion_iff :
    accessRegion c a n = some r ↔
      (∀ i < widthBytes n, regionOf c (a + i) = some r) ∧ widthAllowed r n = true ∧ a % widthBytes n = 0 := by
  have h0 : (∀ i < widthBytes n, regionOf c (a + i) = some r) → regionOf c a = some r := fun h => h 0 (widthBytes_pos n)
  unfold accessRegion
  split
  · next hr =>
    constructor
    · intro h; cases h
    · intro h; rw [h0 h.1] at hr; cases hr
  · next r' hr =>
    by_cases e : r' = r
    · subst e
      simp only [Bool.and_eq_true, List.all_eq_true, List.mem_range, beq_iff_eq]
      constructor
      · intro h; split at h
        · next h' => exact ⟨h'.1.1, h'.1.2, h'.2⟩
        · cases h
      · intro h; rw [if_pos ⟨⟨h.1, h.2.1⟩, h.2.2⟩]
    · constructor
      · intro h; split at h
        · cases h; exact absurd rfl e
        · cases h
      · intro h; rw [h0 h.1] at hr; cases hr; exact absurd rfl e

/-- No region: conditions (a) or (b) of 20_memory R110. -/
theorem accessRegion_none_iff : accessRegion c a n = none ↔ badPlace c a n ∨ badWidth c a n := by
  constructor
  · intro h
    by_contra hc
    rw [not_or, badPlace, not_not] at hc
    obtain ⟨⟨r, hr⟩, hw⟩ := hc
    simp only [badWidth, not_exists, not_and, not_or, not_not] at hw
    have h0 : regionOf c a = some r := hr 0 (widthBytes_pos n)
    have hw' := hw r h0
    have : accessRegion c a n = some r := by
      rw [accessRegion_iff]
      refine ⟨hr, ?_, ?_⟩
      · simpa using hw'.1
      · simpa using hw'.2
    rw [h] at this; cases this
  · intro h
    cases hr : accessRegion c a n with
    | none => rfl
    | some r =>
      rw [accessRegion_iff] at hr
      rcases h with h | ⟨r', hr', h⟩
      · exact absurd ⟨r, hr.1⟩ h
      · have h0 : regionOf c a = some r := hr.1 0 (widthBytes_pos n)
        rw [h0] at hr'; cases hr'
        rcases h with h | h
        · rw [hr.2.1] at h; cases h
        · exact absurd hr.2.2 h

theorem regionOf_regs (h : a < 0x028 ∨ (0x100 ≤ a ∧ a < 0x200)) : regionOf c a = some .regs := by
  rw [regionOf, if_pos (by omega), if_pos h]

theorem regionOf_rbwin (h : 0x1000 ≤ a) (h' : a < 0x1800) : regionOf c a = some .rbwin := by
  rw [regionOf, if_neg (by omega), if_pos ⟨h, h'⟩]

theorem regionOf_qbwin (h : 0x2000 ≤ a) (h' : a < 0x2400) : regionOf c a = some .qbwin := by
  rw [regionOf, if_neg (by omega), if_neg (by omega), if_pos ⟨h, h'⟩]

theorem regionOf_inPic (h : 0x100000 ≤ a) (h' : a < 0x400000) (hp : (a - 0x100000) % 0x100000 < c.maxW * c.maxH) :
    regionOf c a = some .inPic := by
  rw [regionOf, if_neg (by omega), if_neg (by omega), if_neg (by omega), if_pos ⟨h, h'⟩,
    if_pos (by rw [planeMapped]; exact decide_eq_true hp)]

theorem regionOf_outPic (h : 0x400000 ≤ a) (h' : a < 0x700000) (hp : (a - 0x400000) % 0x100000 < c.maxW * c.maxH) :
    regionOf c a = some .outPic := by
  rw [regionOf, if_neg (by omega), if_neg (by omega), if_neg (by omega), if_neg (by omega), if_pos ⟨h, h'⟩,
    if_pos (by rw [planeMapped]; exact decide_eq_true hp)]

theorem regionOf_coef (h : 0x800000 ≤ a) (h' : a < 0xE00000) (hp : a - 0x800000 < 1536 * maxMb c) :
    regionOf c a = some .coef := by
  rw [regionOf, if_neg (by omega), if_neg (by omega), if_neg (by omega), if_neg (by omega), if_neg (by omega),
    if_pos ⟨h, h'⟩, if_pos hp]

/-- The region of an address, said whole: an address lies in a region exactly when its row of 20_memory R101 says so. -/
theorem regionOf_bounds (h : regionOf c a = some r) :
    match r with
    | .regs => a < 0x028 ∨ (0x100 ≤ a ∧ a < 0x200)
    | .rbwin => 0x1000 ≤ a ∧ a < 0x1800
    | .qbwin => 0x2000 ≤ a ∧ a < 0x2400
    | .inPic => 0x100000 ≤ a ∧ a < 0x400000 ∧ (a - 0x100000) % 0x100000 < c.maxW * c.maxH
    | .outPic => 0x400000 ≤ a ∧ a < 0x700000 ∧ (a - 0x400000) % 0x100000 < c.maxW * c.maxH
    | .coef => 0x800000 ≤ a ∧ a < 0xE00000 ∧ a - 0x800000 < 1536 * maxMb c := by
  unfold regionOf planeMapped at h
  split_ifs at h with h1 h2 h3 h4 h5 h6 h7 h8 h9 h10 <;>
    simp only [Option.some.injEq] at h <;> subst h <;> simp_all

theorem accessRegion_reg (h : a < 0x028 ∨ (0x100 ≤ a ∧ a < 0x200)) (h4 : a % 4 = 0) :
    accessRegion c a .b4 = some .regs := by
  rw [accessRegion_iff]
  refine ⟨fun i hi => regionOf_regs ?_, rfl, h4⟩
  simp only [widthBytes] at hi
  omega

/-! ## What an access answers -/

theorem hostRead_none {addr : Offset} (h : accessRegion s.cfg addr.toNat n = none) :
    s.hostRead addr n = busErrored (.busErrorData n 0) s := by
  rw [State.hostRead, h]; rfl

theorem hostRead_some {addr : Offset} (h : accessRegion s.cfg addr.toNat n = some r) :
    s.hostRead addr n = answered (.okData n (s.readData r addr.toNat n)) s := by
  rw [State.hostRead, h]; rfl

theorem hostWrite_none {addr : Offset} {v : BitVec 64} (h : s.writeRegion addr.toNat n = none) :
    s.hostWrite addr n v = busErrored .busError s := by
  rw [State.hostWrite, h]; rfl

theorem hostWrite_some {addr : Offset} {v : BitVec 64} (h : s.writeRegion addr.toNat n = some r) :
    s.hostWrite addr n v = answered .ok (s.writeData r addr.toNat n v) := by
  rw [State.hostWrite, h]; rfl

/-- Which writes are performed (20_memory R110). -/
theorem writeRegion_iff :
    s.writeRegion a n = some r ↔
      accessRegion s.cfg a n = some r ∧ readOnly r a = false ∧
        (s.phase = .busy → r = .regs ∧ writableWhileBusy a = true) := by
  have hb : s.busy = true ↔ s.phase = .busy := by
    unfold State.busy; cases s.phase <;> decide
  unfold State.writeRegion
  cases hr : accessRegion s.cfg a n with
  | none => simp
  | some r' =>
    simp only [Option.some.injEq]
    by_cases h1 : readOnly r' a = true
    · rw [if_pos h1]
      constructor
      · intro h; cases h
      · rintro ⟨rfl, h, _⟩; rw [h1] at h; cases h
    · rw [if_neg h1]
      simp only [Bool.not_eq_true] at h1
      by_cases h2 : (s.busy && !(r' == .regs && writableWhileBusy a)) = true
      · rw [if_pos h2]
        simp only [Bool.and_eq_true, Bool.not_eq_true', Bool.and_eq_false_iff, hb] at h2
        constructor
        · intro h; cases h
        · rintro ⟨rfl, _, h⟩
          have := h h2.1
          rcases h2.2 with h2 | h2
          · rw [this.1] at h2; exact absurd h2 (by decide)
          · rw [this.2] at h2; cases h2
      · rw [if_neg h2]
        constructor
        · intro h; cases h
          refine ⟨rfl, h1, fun hbz => ?_⟩
          simp only [Bool.and_eq_true, Bool.not_eq_true', hb, hbz, true_and, Bool.not_eq_false, Bool.and_eq_true,
            beq_iff_eq] at h2
          exact h2
        · rintro ⟨rfl, _⟩; rfl

/-- The read-only locations, as 20_memory R110 (c) lists them, once an access lies in a region. -/
theorem readOnly_iff (h : regionOf c a = some r) : readOnly r a = true ↔ isReadOnly a := by
  have hb := regionOf_bounds h
  unfold readOnly isReadOnly
  cases r <;> simp [offId, offVersion, offMaxdim, offQtable] at hb ⊢ <;> omega

/-- The QTABLE window (10_state R59). -/
theorem readReg_qtable (k : Fin 64) : s.readReg (0x100 + 4 * k.val) = (s.cfg.qtable[k]).setWidth 32 := by
  have h : (256 + 4 * k.val - 256) / 4 % 64 = k.val := by omega
  have hn : ∀ x, x < 0x100 → 0x100 + 4 * k.val ≠ x := by omega
  unfold State.readReg
  rw [if_neg (hn _ (by decide)), if_neg (hn _ (by decide)), if_neg (hn _ (by decide)), if_neg (hn _ (by decide)),
    if_neg (hn _ (by decide)), if_neg (hn _ (by decide)), if_neg (hn _ (by decide)), if_neg (hn _ (by decide)),
    if_neg (hn _ (by decide)), if_neg (hn _ (by decide))]
  simp only [qtableWord, offQtable, h]
  rfl

/-- The MAXDIM word as a number (10_state R53). -/
theorem maxdim_toNat (c : Params) : (maxdim c).toNat = c.maxH % 65536 * 65536 + c.maxW % 65536 := by
  rw [maxdim, BitVec.toNat_append, ← Nat.shiftLeft_add_eq_or_of_lt (BitVec.isLt _), Nat.shiftLeft_eq]
  simp

theorem low32 (v : BitVec 64) : v.extractLsb' 0 32 = v.setWidth 32 := by
  apply BitVec.eq_of_getLsbD_eq
  intro i hi
  simp [hi]

/-- A write to a register. -/
theorem hostWrite_reg {addr : Offset} {v : BitVec 64} (h : addr.toNat < 0x024) (h4 : addr.toNat % 4 = 0)
    (h8 : 0x008 ≤ addr.toNat) (hi : s.phase = .idle ∨ addr.toNat = 0x008 ∨ addr.toNat = 0x00C) :
    s.hostWrite addr .b4 v = answered .ok (s.writeReg addr.toNat (v.extractLsb' 0 32)) := by
  have : s.writeRegion addr.toNat .b4 = some .regs := by
    rw [writeRegion_iff]
    refine ⟨accessRegion_reg (by omega) h4, ?_, fun hb => ⟨rfl, ?_⟩⟩
    · simp [readOnly, offId, offVersion, offMaxdim, offQtable]; omega
    · rw [hb] at hi; simp [writableWhileBusy, offCtrl, offStatus]; rcases hi with hi | hi
      · cases hi
      · omega
  rw [hostWrite_some this]; rfl

/-- A read of a register. -/
theorem hostRead_reg {addr : Offset} (h : addr.toNat < 0x028 ∨ (0x100 ≤ addr.toNat ∧ addr.toNat < 0x200))
    (h4 : addr.toNat % 4 = 0) :
    s.hostRead addr .b4 = answered (.okData .b4 ((s.readReg addr.toNat).setWidth 64)) s := by
  rw [hostRead_some (accessRegion_reg h h4)]; rfl

end Sys2Proof
end

