-- ==== Sys2Proof/Laws/Windows.lean ====
section
/-! SUPPORT. The bytes of the RBWIN, QBWIN, IN, OUT and COEF windows: little-endian assembly, and the elements and
samples that an access covers. -/

namespace Sys2Proof.Machine

/-! ## Little-endian assembly -/

theorem byteOf_toNat (v i : Nat) : (byteOf v i).toNat = v / 256 ^ i % 256 := by
  have : (2 : Nat) ^ (8 * i) = 256 ^ i := by rw [pow_mul]; norm_num
  rw [byteOf, BitVec.toNat_ofNat, pow2_eq, this]

/-- Consecutive bytes of a number, put together again. -/
theorem leNat_byteOf (v k n : Nat) :
    leNat ((List.range n).map fun i => byteOf v (k + i)) = v / 256 ^ k % 256 ^ n := by
  induction n generalizing k with
  | zero => simp [leNat, Nat.mod_one]
  | succ n ih =>
    rw [List.range_succ_eq_map, List.map_cons, List.map_map, leNat]
    have : ((fun i => byteOf v (k + i)) ∘ Nat.succ) = fun i => byteOf v (k + 1 + i) := by
      funext i; simp only [Function.comp]; congr 1; omega
    rw [this, ih, Nat.add_zero, byteOf_toNat]
    have h : v / 256 ^ (k + 1) = v / 256 ^ k / 256 := by rw [Nat.div_div_eq_div_mul, ← pow_succ]
    rw [h, show 256 ^ (n + 1) = 256 * 256 ^ n by ring, Nat.mod_mul]

theorem leNat_lt (bs : List Byte) : leNat bs < 256 ^ bs.length := by
  induction bs with
  | nil => simp [leNat]
  | cons b bs ih =>
    have := b.isLt
    rw [leNat, List.length_cons, pow_succ]
    omega

/-- The bytes of an assembled number are those it was assembled from. -/
theorem leNat_digit {bs : List Byte} {i : Nat} (h : i < bs.length) : BitVec.ofNat 8 (leNat bs / 256 ^ i) = bs[i] := by
  induction bs generalizing i with
  | nil => simp at h
  | cons b bs ih =>
    have hb := b.isLt
    cases i with
    | zero =>
      apply BitVec.eq_of_toNat_eq
      simp [leNat]
      omega
    | succ i =>
      have e : leNat (b :: bs) / 256 ^ (i + 1) = leNat bs / 256 ^ i := by
        rw [leNat, pow_succ, Nat.mul_comm (256 ^ i), ← Nat.div_div_eq_div_mul]
        congr 1
        omega
      rw [e, List.getElem_cons_succ]
      exact ih (by simpa using h)

/-- An n-byte read of a plain region while BUSY = 0: a number of n bytes, each the state's byte there (20_memory R103). -/
theorem readData_bytes {s : State} {r : Region} {a : Nat} {n : Width} (hr : r = .inPic ∨ r = .outPic ∨ r = .coef)
    (hb : s.busy = false) :
    (s.readData r a n).toNat < 256 ^ widthBytes n ∧
      ∀ i < widthBytes n, BitVec.ofNat 8 ((s.readData r a n).toNat / 256 ^ i) = s.byteAt (a + i) := by
  have e : s.readData r a n = BitVec.ofNat 64 (leNat ((List.range (widthBytes n)).map fun i => s.byteAt (a + i))) := by
    unfold State.readData
    rw [if_neg (by rcases hr with rfl | rfl | rfl <;> decide), hb]
    rcases hr with rfl | rfl | rfl <;> rfl
  have hlt := leNat_lt ((List.range (widthBytes n)).map fun i => s.byteAt (a + i))
  rw [List.length_map, List.length_range] at hlt
  have h64 : 256 ^ widthBytes n ≤ 2 ^ 64 := by cases n <;> norm_num [widthBytes]
  rw [e, BitVec.toNat_ofNat, Nat.mod_eq_of_lt (by omega)]
  refine ⟨hlt, fun i hi => ?_⟩
  rw [leNat_digit (by simpa using hi)]
  simp

/-! ## Block register elements -/

/-- Index 64·r + k of a register file, taken apart. -/
theorem element_index (r : Fin 4) (i j : Fin 8) :
    (64 * r.val + (8 * i.val + j.val)) / 64 % 4 = r.val ∧ (64 * r.val + (8 * i.val + j.val)) % 64 = 8 * i.val + j.val := by
  omega

theorem rbHost_elem (s : State) (r : Fin 4) (i j : Fin 8) :
    s.rbHost (64 * r.val + (8 * i.val + j.val)) =
      if elem s.rb[r].written i j then elem s.rb[r].vals i j
      else Config.drawReal s.draws (64 * r.val + (8 * i.val + j.val)) := by
  obtain ⟨h1, h2⟩ := element_index r i j
  simp only [State.rbHost, h1, h2, elem]
  rfl

theorem qbHost_elem (s : State) (r : Fin 4) (i j : Fin 8) :
    s.qbHost (64 * r.val + (8 * i.val + j.val)) =
      if elem s.qb[r].written i j then elem s.qb[r].vals i j
      else Config.drawInt s.draws (64 * r.val + (8 * i.val + j.val)) := by
  obtain ⟨h1, h2⟩ := element_index r i j
  simp only [State.qbHost, h1, h2, elem]
  rfl

/-- An element after one element was set. -/
theorem elem_set {α : Type} (b : Block α) (i j i' j' : Fin 8) (v : α) (h : 8 * i.val + j.val < 64) :
    elem (b.set (8 * i.val + j.val) v h) i' j' = if i' = i ∧ j' = j then v else elem b i' j' := by
  unfold elem
  rw [Vector.getElem_set]
  by_cases e : i' = i ∧ j' = j
  · obtain ⟨rfl, rfl⟩ := e; simp
  · rw [if_neg e, if_neg]
    intro h'
    apply e
    constructor <;> apply Fin.ext <;> omega

/-- A host write of one QB element, register by register. -/
theorem writeQbElem_qb (s : State) (r r' : Fin 4) (i j : Fin 8) (v : Word) :
    (s.writeQbElem (64 * r.val + (8 * i.val + j.val)) v).qb[r'] =
      if r' = r then
        { vals := s.qb[r].vals.set (8 * i.val + j.val) v (by omega)
          written := s.qb[r].written.set (8 * i.val + j.val) true (by omega) }
      else s.qb[r'] := by
  obtain ⟨h1, h2⟩ := element_index r i j
  unfold State.writeQbElem
  simp only [h1, h2]
  rw [Fin.getElem_fin, Vector.getElem_set]
  by_cases e : r' = r
  · subst e; rw [if_pos rfl, if_pos rfl]; rfl
  · rw [if_neg e, if_neg (fun h => e (Fin.ext h.symm))]; rfl

theorem elem_vals_writeQbElem (s : State) (r r' : Fin 4) (i j i' j' : Fin 8) (v : Word) :
    elem (s.writeQbElem (64 * r.val + (8 * i.val + j.val)) v).qb[r'].vals i' j' =
      if r' = r ∧ i' = i ∧ j' = j then v else elem s.qb[r'].vals i' j' := by
  rw [writeQbElem_qb]
  by_cases e : r' = r
  · subst e; simp only [if_true, elem_set, true_and]
  · simp [e]

theorem elem_written_writeQbElem (s : State) (r r' : Fin 4) (i j i' j' : Fin 8) (v : Word) :
    elem (s.writeQbElem (64 * r.val + (8 * i.val + j.val)) v).qb[r'].written i' j' =
      if r' = r ∧ i' = i ∧ j' = j then true else elem s.qb[r'].written i' j' := by
  rw [writeQbElem_qb]
  by_cases e : r' = r
  · subst e; simp only [if_true, elem_set, true_and]
  · simp [e]

/-! ## Memory words -/

/-- A byte that a write has set is what the state reads there. -/
theorem byteAt_some {s : State} {a : Nat} {v : Byte} (h : s.mem.lookup a = some v) : s.byteAt a = v := by
  rw [State.byteAt, h]; rfl

/-- Where memory lists the same byte, written, the state reads the same. -/
theorem byteAt_congr {s t : State} {a : Nat} (h : t.mem.lookup a = s.mem.lookup a) (hw : s.mem.lookup a ≠ none) :
    t.byteAt a = s.byteAt a := by
  obtain ⟨v, hv⟩ := Option.ne_none_iff_exists'.mp hw
  rw [byteAt_some (h.trans hv), byteAt_some hv]

theorem getElem?_leBytes {n v i : Nat} (h : i < n) : (leBytes n v)[i]? = some (BitVec.ofNat 8 (v / 256 ^ i)) := by
  induction n generalizing v i with
  | zero => omega
  | succ n ih =>
    cases i with
    | zero => simp [leBytes]
    | succ i =>
      rw [leBytes, List.getElem?_cons_succ, ih (by omega), Nat.div_div_eq_div_mul, pow_succ, Nat.mul_comm (256 ^ i)]

/-- The word whose four bytes memory lists. -/
theorem wordAt_of_bytes {s : State} {a : Nat} {w : Word}
    (h : ∀ i < 4, s.mem.lookup (a + i) = some (BitVec.ofNat 8 (w.toNat / 256 ^ i))) : s.wordAt a = w := by
  have h0 := byteAt_some (s := s) (h 0 (by omega))
  have h1 := byteAt_some (s := s) (h 1 (by omega))
  have h2 := byteAt_some (s := s) (h 2 (by omega))
  have h3 := byteAt_some (s := s) (h 3 (by omega))
  rw [Nat.add_zero] at h0
  have hw := w.isLt
  apply BitVec.eq_of_toNat_eq
  rw [State.wordAt, h0, h1, h2, h3]
  simp only [leNat, BitVec.toNat_ofNat]
  norm_num
  omega

end Sys2Proof.Machine
end

