-- ==== Sys2Proof/Laws/Pictures.lean ====
section
/-! SUPPORT. What reconstructed blocks write to OUT, sample by sample, and where a coded slot lies in COEF. -/

namespace Sys2Proof

open Machine

variable {s : State}

/-! ## Parameters and addresses -/

theorem dims_tiles (hd : s.dimsOk = true) :
    s.width.toNat = 16 * s.tpr ∧ s.height.toNat = 16 * (s.height.toNat / 16) ∧ 0 < s.tpr ∧
      s.tiles = s.tpr * (s.height.toNat / 16) ∧ s.width.toNat ≤ s.cfg.maxW ∧ s.height.toNat ≤ s.cfg.maxH := by
  obtain ⟨h1, h2, h3, h4, h5, h6⟩ := dimsValid_iff.mp hd
  exact ⟨by unfold State.tpr; omega, by omega, by unfold State.tpr; omega, rfl, h3, h6⟩

/-- A tile of a valid picture lies inside the picture, which lies inside the planes. -/
theorem tile_bounds (hd : s.dimsOk = true) {m : Nat} (hm : m < s.tiles) :
    tileX s.tpr m + 16 ≤ s.width.toNat ∧ tileY s.tpr m + 16 ≤ s.height.toNat ∧
      s.width.toNat ≤ s.cfg.maxW ∧ s.height.toNat ≤ s.cfg.maxH := by
  obtain ⟨h1, h2, _, h4, h5, h6⟩ := dims_tiles hd
  rw [h4] at hm
  have := tile_inside hm
  omega

/-- TILES <= MAX_MB (44_picture_coder R269). -/
theorem tiles_le_maxMb (hd : s.dimsOk = true) : s.tiles ≤ maxMb s.cfg := by
  obtain ⟨_, _, _, _, h5, h6⟩ := dims_tiles hd
  exact Nat.mul_le_mul (Nat.div_le_div_right h5) (Nat.div_le_div_right h6)

/-- MAX_MB <= 4096 (00_scope R12). -/
theorem maxMb_le {c : Params} (hc : c.Valid) : maxMb c ≤ 4096 := by
  have h1 := hc.area
  have e1 : c.maxW = 16 * (c.maxW / 16) := by have := hc.wMultiple; omega
  have e2 : c.maxH = 16 * (c.maxH / 16) := by have := hc.hMultiple; omega
  rw [e1, e2] at h1
  unfold maxMb
  have : 16 * (c.maxW / 16) * (16 * (c.maxH / 16)) = 256 * ((c.maxW / 16) * (c.maxH / 16)) := by ring
  omega

/-- The offset of a sample inside its plane is below MAX_W·MAX_H (20_memory R101). -/
theorem plane_offset {w h x y : Nat} (hx : x < w) (hy : y < h) : y * w + x < w * h := by
  calc y * w + x < (y + 1) * w := by rw [Nat.add_mul]; omega
    _ ≤ h * w := Nat.mul_le_mul_right _ hy
    _ = w * h := Nat.mul_comm ..

/-- The planes of OUT do not overlap (20_memory R101, 00_scope R11). -/
theorem outAddr_plane {c : Params} (hc : c.Valid) {p q x y x' y' : Nat} (hx : x < c.maxW) (hy : y < c.maxH)
    (hx' : x' < c.maxW) (hy' : y' < c.maxH) (h : outAddr c p x y = outAddr c q x' y') : p = q ∧ x = x' ∧ y = y' := by
  have h1 := plane_offset hx hy
  have h2 := plane_offset hx' hy'
  have h3 := hc.area
  have hp : p = q := by unfold outAddr at h; omega
  subst hp
  exact ⟨rfl, outAddr_injective hx hx' h⟩

/-! ## What reconstructed blocks write -/

/-- The pixel that blocks `X m b` give sample (c, x, y) of the picture (42_region R221, R223, R226). -/
def pixelOf (s : State) (X : Nat → Nat → Block B64) (c x y : Nat) : Byte :=
  if c = 0 then
    pix s.cfg.pixRound (elem (X (y / 16 * s.tpr + x / 16) (2 * (y / 8 % 2) + x / 8 % 2))
      ⟨y % 8, Nat.mod_lt _ (Nat.zero_lt_succ 7)⟩ ⟨x % 8, Nat.mod_lt _ (Nat.zero_lt_succ 7)⟩)
  else
    pix s.cfg.pixRound (elem (X (y / 16 * s.tpr + x / 16) (3 + c))
      ⟨y / 2 % 8, Nat.mod_lt _ (Nat.zero_lt_succ 7)⟩ ⟨x / 2 % 8, Nat.mod_lt _ (Nat.zero_lt_succ 7)⟩)

/-- A sample lies in tile m. -/
def inTile (s : State) (m x y : Nat) : Prop :=
  tileX s.tpr m ≤ x ∧ x < tileX s.tpr m + 16 ∧ tileY s.tpr m ≤ y ∧ y < tileY s.tpr m + 16

/-- The tile of a sample. -/
theorem tile_of_sample {m x y : Nat} (h : inTile s m x y) : y / 16 * s.tpr + x / 16 = m := by
  unfold inTile tileX tileY at h
  have h1 : x / 16 = m % s.tpr := by omega
  have h2 : y / 16 = m / s.tpr := by omega
  rw [h1, h2, Nat.mul_comm]
  exact Nat.div_add_mod m s.tpr

theorem covers_blockOutRuns {X : Nat → Nat → Block B64} {m b a : Nat} (hb : b < 6)
    {r : Nat × List Byte} (hr : r ∈ blockOutRuns s m b (X m b)) (hc : covers r a) :
    ∃ c x y, c ≤ 2 ∧ inTile s m x y ∧ a = outAddr s.cfg c x y ∧ r.2[a - r.1]? = some (pixelOf s X c x y) := by
  unfold blockOutRuns at hr
  by_cases h3 : b ≤ 3
  · rw [if_pos h3] at hr
    obtain ⟨i, j, h1, h2⟩ := covers_lumaRuns hr hc
    have hin : inTile s m (tileX s.tpr m + lumaX b + j.val) (tileY s.tpr m + lumaY b + i.val) := by
      have := lumaX_le b
      have := lumaY_le h3
      unfold inTile; omega
    refine ⟨0, _, _, by omega, hin, h1, ?_⟩
    rw [h2, pixelOf, if_pos rfl, tile_of_sample hin]
    have e : 2 * ((tileY s.tpr m + lumaY b + i.val) / 8 % 2) + (tileX s.tpr m + lumaX b + j.val) / 8 % 2 = b := by
      unfold tileX tileY lumaX lumaY; omega
    have ei : (⟨(tileY s.tpr m + lumaY b + i.val) % 8, Nat.mod_lt _ (Nat.zero_lt_succ 7)⟩ : Fin 8) = i := by
      apply Fin.ext; unfold tileY lumaY; simp only; omega
    have ej : (⟨(tileX s.tpr m + lumaX b + j.val) % 8, Nat.mod_lt _ (Nat.zero_lt_succ 7)⟩ : Fin 8) = j := by
      apply Fin.ext; unfold tileX lumaX; simp only; omega
    rw [e, ei, ej]
  · rw [if_neg h3] at hr
    obtain ⟨i, j, d, e, h1, h2⟩ := covers_chromaRuns hr hc
    have hin : inTile s m (tileX s.tpr m + 2 * j.val + e.val) (tileY s.tpr m + 2 * i.val + d.val) := by
      unfold inTile; omega
    refine ⟨b - 3, _, _, by omega, hin, h1, ?_⟩
    rw [h2, pixelOf, if_neg (by omega), tile_of_sample hin]
    have eb : 3 + (b - 3) = b := by omega
    have ei : (⟨(tileY s.tpr m + 2 * i.val + d.val) / 2 % 8, Nat.mod_lt _ (Nat.zero_lt_succ 7)⟩ : Fin 8) = i := by
      apply Fin.ext; unfold tileY; simp only; omega
    have ej : (⟨(tileX s.tpr m + 2 * j.val + e.val) / 2 % 8, Nat.mod_lt _ (Nat.zero_lt_succ 7)⟩ : Fin 8) = j := by
      apply Fin.ext; unfold tileX; simp only; omega
    rw [eb, ei, ej]

theorem blockOutRuns_cover (X : Nat → Nat → Block B64) {m c x y : Nat} (hc : c ≤ 2) (h : inTile s m x y) :
    ∃ b < 6, ∃ r ∈ blockOutRuns s m b (X m b), covers r (outAddr s.cfg c x y) := by
  unfold inTile at h
  by_cases h0 : c = 0
  · subst h0
    have hb : 2 * (y / 8 % 2) + x / 8 % 2 ≤ 3 := by omega
    refine ⟨2 * (y / 8 % 2) + x / 8 % 2, by omega, ?_⟩
    rw [blockOutRuns, if_pos hb]
    have := lumaRuns_cover s m (2 * (y / 8 % 2) + x / 8 % 2) (X m (2 * (y / 8 % 2) + x / 8 % 2))
      ⟨y % 8, Nat.mod_lt _ (Nat.zero_lt_succ 7)⟩ ⟨x % 8, Nat.mod_lt _ (Nat.zero_lt_succ 7)⟩
    have e : lumaOut s m (2 * (y / 8 % 2) + x / 8 % 2) ⟨y % 8, Nat.mod_lt _ (Nat.zero_lt_succ 7)⟩
        ⟨x % 8, Nat.mod_lt _ (Nat.zero_lt_succ 7)⟩ = outAddr s.cfg 0 x y := by
      unfold lumaOut
      congr 1
      · unfold tileX at h ⊢; unfold lumaX; simp only; omega
      · unfold tileY at h ⊢; unfold lumaY; simp only; omega
    rwa [e] at this
  · refine ⟨3 + c, by omega, ?_⟩
    rw [blockOutRuns, if_neg (by omega)]
    have := chromaRuns_cover s m (3 + c - 3) (X m (3 + c)) ⟨y / 2 % 8, Nat.mod_lt _ (Nat.zero_lt_succ 7)⟩
      ⟨x / 2 % 8, Nat.mod_lt _ (Nat.zero_lt_succ 7)⟩ ⟨y % 2, Nat.mod_lt _ (Nat.zero_lt_succ 1)⟩
      ⟨x % 2, Nat.mod_lt _ (Nat.zero_lt_succ 1)⟩
    have e : chromaOut s m (3 + c - 3) ⟨y / 2 % 8, Nat.mod_lt _ (Nat.zero_lt_succ 7)⟩
        ⟨x / 2 % 8, Nat.mod_lt _ (Nat.zero_lt_succ 7)⟩ ⟨y % 2, Nat.mod_lt _ (Nat.zero_lt_succ 1)⟩
        ⟨x % 2, Nat.mod_lt _ (Nat.zero_lt_succ 1)⟩ = outAddr s.cfg c x y := by
      have hc3 : 3 + c - 3 = c := by omega
      unfold chromaOut
      rw [hc3]
      congr 1
      · unfold tileX at h ⊢; simp only; omega
      · unfold tileY at h ⊢; simp only; omega
    rwa [e] at this

/-- The runs of the six blocks of each macroblock of a list. -/
def tileRuns (s : State) (X : Nat → Nat → Block B64) (ms : List Nat) : List (Nat × List Byte) :=
  ms.flatMap fun m => (List.range 6).flatMap fun b => blockOutRuns s m b (X m b)

theorem mem_tileRuns {X : Nat → Nat → Block B64} {ms : List Nat} {r : Nat × List Byte} :
    r ∈ tileRuns s X ms ↔ ∃ m ∈ ms, ∃ b < 6, r ∈ blockOutRuns s m b (X m b) := by
  simp only [tileRuns, List.mem_flatMap, List.mem_range]

/-- Writing the blocks of macroblocks of the picture writes, at every sample of their tiles, its pixel. -/
theorem lookup_tileRuns (hv : s.cfg.Valid) (hd : s.dimsOk = true) (X : Nat → Nat → Block B64) {ms : List Nat}
    (hms : ∀ m ∈ ms, m < s.tiles) (mem : Memory) {m c x y : Nat} (hm : m ∈ ms) (hc : c ≤ 2) (h : inTile s m x y) :
    (mem.writeRuns (tileRuns s X ms)).lookup (outAddr s.cfg c x y) = some (pixelOf s X c x y) := by
  apply lookup_writeRuns_of_covered
  · obtain ⟨b, hb, r, hr, hcov⟩ := blockOutRuns_cover X hc h
    exact ⟨r, mem_tileRuns.mpr ⟨m, hm, b, hb, hr⟩, hcov⟩
  · intro r hr hcov
    obtain ⟨m', hm', b, hb, hr⟩ := mem_tileRuns.mp hr
    obtain ⟨c', x', y', hc', hin', ha, hval⟩ := covers_blockOutRuns hb hr hcov
    have b1 := tile_bounds hd (hms m hm)
    have b2 := tile_bounds hd (hms m' hm')
    have h' := h
    have hin := hin'
    unfold inTile at h' hin
    obtain ⟨rfl, rfl, rfl⟩ := outAddr_plane hv (by omega) (by omega) (by omega) (by omega) ha
    exact hval

/-- Every other byte of memory stays. -/
theorem lookup_tileRuns_other (X : Nat → Nat → Block B64) {ms : List Nat} (mem : Memory) {a : Nat}
    (h : ∀ m ∈ ms, ∀ c ≤ 2, ∀ x y, inTile s m x y → a ≠ outAddr s.cfg c x y) :
    (mem.writeRuns (tileRuns s X ms)).lookup a = mem.lookup a := by
  apply lookup_writeRuns_of_not_covered
  intro r hr hcov
  obtain ⟨m, hm, b, hb, hr⟩ := mem_tileRuns.mp hr
  obtain ⟨c, x, y, hc, hin, ha, _⟩ := covers_blockOutRuns hb hr hcov
  exact h m hm c hc x y hin ha

/-! ## Coded slots -/

/-- The bytes of block number k of a list of coded blocks. -/
theorem getElem?_codedBytes {qs : List (Block Int)} {k : Nat} {q : Block Int} (hk : qs[k]? = some q) (i j : Fin 8)
    {n : Nat} (hn : n < 4) :
    (codedBytes qs)[256 * k + (4 * (8 * i.val + j.val) + n)]? =
      some (BitVec.ofNat 8 ((elem (toWords q) i j).toNat / 256 ^ n)) := by
  rw [codedBytes, getElem?_flatMap_const _ _ 256 (by simp) hk (by omega)]
  exact getElem?_blockBytes (toWords q) i j hn

theorem length_codedBytes (qs : List (Block Int)) : (codedBytes qs).length = 256 * qs.length :=
  length_flatMap_const _ _ 256 (by simp)

/-- A coefficient block read where coded blocks were written, consecutive from `slotAddr 0 + 256 * first`. -/
theorem coef_write {t : State} {mem : Memory} {qs : List (Block Int)} {base m b k : Nat} {q : Block Int}
    (ht : t.mem = mem.write base (codedBytes qs)) (hk : qs[k]? = some q) (hb : base + 256 * k = coefAddr m b) :
    t.coef m b = toWords q := by
  apply block_ext
  intro i j
  rw [State.coef, elem_mkBlock]
  apply wordAt_of_bytes
  intro n hn
  have hlen := length_codedBytes qs
  have hlt : k < qs.length := by
    rcases Nat.lt_or_ge k qs.length with h | h
    · exact h
    · rw [List.getElem?_eq_none h] at hk; cases hk
  rw [ht, lookup_write, if_pos (by omega)]
  have e : coefAddr m b + 4 * (8 * i.val + j.val) + n - base = 256 * k + (4 * (8 * i.val + j.val) + n) := by omega
  rw [e]
  exact getElem?_codedBytes hk i j hn

end Sys2Proof
end

