-- ==== Sys2Proof/Laws/Frame.lean ====
section
/-! SUPPORT. Everything a command can do: the inversion of `exec` on a next state. -/

namespace Sys2Proof

open Machine

variable {s t : State}

/-- The bytes the engine may write: samples of the configured picture of OUT, and the slots of COEF (46_control R297). -/
def enginePlace (s : State) (a : Nat) : Prop :=
  (s.dimsOk = true ∧ ∃ c x y, c ≤ 2 ∧ x < s.width.toNat ∧ y < s.height.toNat ∧ a = outAddr s.cfg c x y) ∨
    (slotAddr 0 ≤ a ∧ a < slotAddr (maxMb s.cfg))

/-- What a command that completed without error leaves, but for the record of UNINIT. -/
def Effect (s t : State) (rb : RegFile B64) (qb : RegFile Word) (runs : List (Nat × List Byte)) (mb : Word) : Prop :=
  t = succeed { s with rb := rb, qb := qb, mem := s.mem.writeRuns runs, mbCount := mb, uninit := t.uninit } ∧
    ∀ r ∈ runs, ∀ a, covers r a → enginePlace s a

theorem enginePlace_blockOut (hd : s.dimsOk = true) {X : Nat → Nat → Block B64} {m b : Nat} (hm : m < s.tiles) (hb : b < 6)
    {r : Nat × List Byte} (hr : r ∈ blockOutRuns s m b (X m b)) {a : Nat} (hc : covers r a) : enginePlace s a := by
  obtain ⟨c, x, y, h1, h2, h3, _⟩ := covers_blockOutRuns hb hr hc
  obtain ⟨b1, b2, _, _⟩ := tile_bounds hd hm
  unfold inTile at h2
  exact .inl ⟨hd, c, x, y, h1, by omega, by omega, h3⟩

theorem enginePlace_slots {m n : Nat} (h : m + n ≤ maxMb s.cfg) {a : Nat} (h1 : slotAddr m ≤ a)
    (h2 : a < slotAddr m + 1536 * n) : enginePlace s a := by
  right
  unfold slotAddr at *
  omega

theorem slotError_bounds {b : BitVec 3} {m : BitVec 16} (h : s.slotError b m = none) :
    b.toNat < 6 ∧ m.toNat < maxMb s.cfg := by
  unfold State.slotError at h
  split_ifs at h with h1 h2
  have : blockSelectorOk b = true := by simpa using h1
  exact ⟨of_decide_eq_true this, by omega⟩

theorem tileError_bounds {b : BitVec 3} {m : BitVec 16} (h : s.tileError b m = none) :
    b.toNat < 6 ∧ s.dimsOk = true ∧ m.toNat < s.tiles := by
  unfold State.tileError at h
  split_ifs at h with h1 h2 h3
  have : blockSelectorOk b = true := by simpa using h1
  exact ⟨of_decide_eq_true this, by simpa using h2, by omega⟩

theorem pictureError_bounds (h : s.pictureError = none) : s.dimsOk = true ∧ s.paramOk = true := by
  unfold State.pictureError at h
  split_ifs at h with h1 h2
  exact ⟨by simpa using h1, by simpa using h2⟩

theorem macroblockError_bounds {m : BitVec 16} (h : s.macroblockError m = none) :
    s.dimsOk = true ∧ s.paramOk = true ∧ m.toNat < s.tiles := by
  unfold State.macroblockError at h
  split at h
  · cases h
  · next hp =>
    split_ifs at h with h1
    exact ⟨(pictureError_bounds hp).1, (pictureError_bounds hp).2, by omega⟩

theorem reconPicError_bounds (h : s.reconPicError = none) :
    s.dimsOk = true ∧ s.paramOk = true ∧ s.mbCount.toNat = s.tiles := by
  unfold State.reconPicError at h
  split at h
  · cases h
  · next hp =>
    split_ifs at h with h1
    exact ⟨(pictureError_bounds hp).1, (pictureError_bounds hp).2, h1⟩

/-- How a command that answers `t` has completed, but for the record of UNINIT: with an error, changing only STATUS, or
without one, changing nothing but block registers, bytes of OUT and COEF, and, where `count` says so, MB_COUNT. -/
def Completed (count : Prop) (s t : State) : Prop :=
  (∃ e, t = failWith (errorCode e) { s with uninit := t.uninit }) ∨
    ∃ rb qb runs mb, Effect s t rb qb runs mb ∧ (¬ count → mb = s.mbCount)

/-- The record that a read of a block register leaves is all it changes. -/
theorem Completed.note {count : Prop} {α : Type} {n : String} {r : BlockReg α} (h : Completed count (s.noteRead n r) t) :
    Completed count s t := h

theorem completed_error (count : Prop) (e : CmdError) (s : State) : Completed count s (s.completeErr e) :=
  .inl ⟨e, rfl⟩

theorem completed_loadRb (count : Prop) (rd : Fin 4) (x : Block B64) (s : State) :
    Completed count s ((s.writeRb rd x).completeOk) :=
  .inr ⟨(s.writeRb rd x).rb, s.qb, [], s.mbCount, ⟨rfl, by simp⟩, fun _ => rfl⟩

theorem completed_loadQb (count : Prop) (rd : Fin 4) (q : Block Word) (s : State) :
    Completed count s ((s.writeQb rd q).completeOk) :=
  .inr ⟨s.rb, (s.writeQb rd q).qb, [], s.mbCount, ⟨rfl, by simp⟩, fun _ => rfl⟩

theorem completed_commit (count : Prop) (rd : Fin 4) (q : Block Int) (s : State) :
    Completed count s (s.commitQuantized rd q) := by
  unfold State.commitQuantized
  split
  · exact completed_loadQb count rd _ s
  · exact completed_error count _ s

theorem completed_runs (count : Prop) {runs : List (Nat × List Byte)} (s : State)
    (h : ∀ r ∈ runs, ∀ a, covers r a → enginePlace s a) :
    Completed count s ((s.withMem (s.mem.writeRuns runs)).completeOk) :=
  .inr ⟨s.rb, s.qb, runs, s.mbCount, ⟨rfl, h⟩, fun _ => rfl⟩

theorem completed_write (count : Prop) {a : Nat} {bs : List Byte} (s : State)
    (h : ∀ x, a ≤ x → x < a + bs.length → enginePlace s x) :
    Completed count s ((s.withMem (s.mem.write a bs)).completeOk) :=
  completed_runs count (runs := [(a, bs)]) s fun r hr x hx => by
    simp only [List.mem_singleton] at hr
    subst hr
    exact h x hx.1 hx.2

theorem codeMacroblock_length (s : State) (m : Nat) : (s.codeMacroblock m).length = 6 := by
  simp [State.codeMacroblock]

theorem codePicture_length (s : State) : s.codePicture.length = 6 * s.tiles := by
  unfold State.codePicture
  rw [List.length_flatMap]
  simp [codeMacroblock_length, Nat.mul_comm]

theorem completed_of_next {count : Prop} {u : State} (hu : Completed count s u)
    (h : (Host.Outcome.next u : Host.Outcome State Fault Refusal) = .next t) : Completed count s t := by
  rw [Host.Outcome.next.injEq] at h
  exact h ▸ hu

theorem execFdct_completed {rd rs : Fin 4} (h : execFdct rd rs s = .next t) : Completed False s t :=
  completed_of_next (completed_loadRb _ _ _ _).note h

theorem execIdct_completed {rd rs : Fin 4} (h : execIdct rd rs s = .next t) : Completed False s t :=
  completed_of_next (completed_loadRb _ _ _ _).note h

theorem execQuant_completed {rd rs : Fin 4} (h : execQuant rd rs s = .next t) : Completed False s t := by
  unfold execQuant at h
  split at h
  · exact completed_of_next (completed_commit _ _ _ _).note h
  · exact completed_of_next (completed_error _ _ _) h

theorem execDeq_completed {rd rs : Fin 4} (h : execDeq rd rs s = .next t) : Completed False s t := by
  unfold execDeq at h
  split at h
  · exact completed_of_next (completed_loadRb _ _ _ _).note h
  · exact completed_of_next (completed_error _ _ _) h

theorem execC2q_completed {rd rs : Fin 4} (h : execC2q rd rs s = .next t) : Completed False s t := by
  unfold execC2q at h
  split at h
  · exact completed_of_next (completed_commit _ _ _ _).note h
  · exact completed_of_next (completed_error _ _ _) h

theorem execQ2c_completed {rd rs : Fin 4} (h : execQ2c rd rs s = .next t) : Completed False s t := by
  unfold execQ2c at h
  split at h
  · exact completed_of_next (completed_loadRb _ _ _ _).note h
  · exact completed_of_next (completed_error _ _ _) h

theorem execLdblk_completed {rd : Fin 4} {b : BitVec 3} {m : BitVec 16} (h : execLdblk rd b m s = .next t) :
    Completed False s t := by
  unfold execLdblk at h
  split at h
  · exact completed_of_next (completed_error _ _ _) h
  · exact completed_of_next (completed_loadRb _ _ _ _) h

theorem execStblk_completed {rs : Fin 4} {b : BitVec 3} {m : BitVec 16} (h : execStblk rs b m s = .next t) :
    Completed False s t := by
  unfold execStblk at h
  split at h
  · exact completed_of_next (completed_error _ _ _) h
  · next he =>
    refine completed_of_next (Completed.note (completed_runs _ (s.noteRead _ _) ?_)) h
    intro r hr a ha
    obtain ⟨hb, hd, hm⟩ := tileError_bounds he
    exact enginePlace_blockOut (X := fun _ _ => s.readRb rs) hd hm hb hr ha

theorem execLdq_completed {rd : Fin 4} {b : BitVec 3} {m : BitVec 16} (h : execLdq rd b m s = .next t) :
    Completed False s t := by
  unfold execLdq at h
  split at h
  · exact completed_of_next (completed_error _ _ _) h
  · exact completed_of_next (completed_loadQb _ _ _ _) h

theorem execStq_completed {rs : Fin 4} {b : BitVec 3} {m : BitVec 16} (h : execStq rs b m s = .next t) :
    Completed False s t := by
  unfold execStq at h
  split at h
  · exact completed_of_next (completed_error _ _ _) h
  · next he =>
    refine completed_of_next (Completed.note (completed_write _ (s.noteRead _ _) ?_)) h
    intro a h1 h2
    obtain ⟨hb, hm⟩ := slotError_bounds he
    rw [length_blockBytes] at h2
    unfold coefAddr at h1 h2
    exact enginePlace_slots (s := s) (m := m.toNat) (n := 1) (by omega) (by unfold slotAddr; omega)
      (by unfold slotAddr; omega)

theorem execCodeMb_completed {m : BitVec 16} (h : execCodeMb m s = .next t) : Completed False s t := by
  unfold execCodeMb at h
  split at h
  · exact completed_of_next (completed_error _ _ _) h
  · next he =>
    simp only at h
    split at h
    · refine completed_of_next (completed_write _ _ ?_) h
      intro a h1 h2
      obtain ⟨hd, _, hm⟩ := macroblockError_bounds he
      have := tiles_le_maxMb hd
      rw [length_codedBytes, codeMacroblock_length] at h2
      exact enginePlace_slots (m := m.toNat) (n := 1) (by omega) h1 (by omega)
    · exact completed_of_next (completed_error _ _ _) h

theorem execReconMb_completed {m : BitVec 16} (h : execReconMb m s = .next t) : Completed False s t := by
  unfold execReconMb at h
  split at h
  · exact completed_of_next (completed_error _ _ _) h
  · next he =>
    refine completed_of_next (completed_runs _ _ ?_) h
    intro r hr a ha
    obtain ⟨hd, _, hm⟩ := macroblockError_bounds he
    simp only [State.reconMacroblockRuns, List.mem_flatMap, List.mem_range] at hr
    obtain ⟨b, hb, hr⟩ := hr
    exact enginePlace_blockOut (X := s.reconBlock) hd hm hb hr ha

theorem execCodePic_completed (h : execCodePic s = .next t) : Completed True s t := by
  unfold execCodePic at h
  split at h
  · exact completed_of_next (completed_error _ _ _) h
  · next he =>
    simp only at h
    split at h
    · refine completed_of_next (.inr ⟨s.rb, s.qb, [(slotAddr 0, codedBytes s.codePicture)], BitVec.ofNat 32 s.tiles,
        ⟨rfl, ?_⟩, fun h => absurd trivial h⟩) h
      intro r hr a ha
      simp only [List.mem_singleton] at hr
      subst hr
      have := tiles_le_maxMb (pictureError_bounds he).1
      unfold covers at ha
      simp only [length_codedBytes, codePicture_length] at ha
      exact enginePlace_slots (m := 0) (n := s.tiles) (by omega) ha.1 (by omega)
    · exact completed_of_next (completed_error _ _ _) h

theorem execReconPic_completed (h : execReconPic s = .next t) : Completed False s t := by
  unfold execReconPic at h
  split at h
  · exact completed_of_next (completed_error _ _ _) h
  · next he =>
    refine completed_of_next (completed_runs _ _ ?_) h
    intro r hr a ha
    obtain ⟨hd, _, _⟩ := reconPicError_bounds he
    simp only [State.reconPictureRuns, State.reconMacroblockRuns, List.mem_flatMap, List.mem_range] at hr
    obtain ⟨m, hm, b, hb, hr⟩ := hr
    exact enginePlace_blockOut (X := s.reconBlock) hd hm hb hr ha

theorem Completed.mono {p q : Prop} (hpq : p → q) (h : Completed p s t) : Completed q s t :=
  h.imp id fun ⟨rb, qb, runs, mb, he, hc⟩ => ⟨rb, qb, runs, mb, he, fun hq => hc fun hp => hq (hpq hp)⟩

/-- Everything a command can do on a next state; CODE_PIC alone may change MB_COUNT. -/
theorem exec_next {i : Instr} (h : exec i s = .next t) : Completed (i = .codePic) s t := by
  cases i with
  | nop =>
    exact completed_of_next (.inr ⟨s.rb, s.qb, [], s.mbCount, ⟨rfl, by simp⟩, fun _ => rfl⟩) h
  | fdct _ _ => exact (execFdct_completed h).mono False.elim
  | idct _ _ => exact (execIdct_completed h).mono False.elim
  | quant _ _ => exact (execQuant_completed h).mono False.elim
  | deq _ _ => exact (execDeq_completed h).mono False.elim
  | c2q _ _ => exact (execC2q_completed h).mono False.elim
  | q2c _ _ => exact (execQ2c_completed h).mono False.elim
  | ldblk _ _ _ => exact (execLdblk_completed h).mono False.elim
  | stblk _ _ _ => exact (execStblk_completed h).mono False.elim
  | ldq _ _ _ => exact (execLdq_completed h).mono False.elim
  | stq _ _ _ => exact (execStq_completed h).mono False.elim
  | codeMb _ => exact (execCodeMb_completed h).mono False.elim
  | reconMb _ => exact (execReconMb_completed h).mono False.elim
  | codePic => exact (execCodePic_completed h).mono fun _ => rfl
  | reconPic => exact (execReconPic_completed h).mono False.elim

/-! ## Every command completes, and UNINIT is its record -/

/-- No command stops. -/
theorem exec_completes (i : Instr) (s : State) : ∃ t, exec i s = .next t := by
  cases i <;> simp only [exec]
  case nop => exact ⟨_, rfl⟩
  case fdct => exact ⟨_, rfl⟩
  case idct => exact ⟨_, rfl⟩
  case quant => unfold execQuant; split <;> exact ⟨_, rfl⟩
  case deq => unfold execDeq; split <;> exact ⟨_, rfl⟩
  case c2q => unfold execC2q; split <;> exact ⟨_, rfl⟩
  case q2c => unfold execQ2c; split <;> exact ⟨_, rfl⟩
  case ldblk => unfold execLdblk; split <;> exact ⟨_, rfl⟩
  case stblk => unfold execStblk; split <;> exact ⟨_, rfl⟩
  case ldq => unfold execLdq; split <;> exact ⟨_, rfl⟩
  case stq => unfold execStq; split <;> exact ⟨_, rfl⟩
  case codeMb => unfold execCodeMb; split <;> [exact ⟨_, rfl⟩; (dsimp only; split <;> exact ⟨_, rfl⟩)]
  case reconMb => unfold execReconMb; split <;> exact ⟨_, rfl⟩
  case codePic => unfold execCodePic; split <;> [exact ⟨_, rfl⟩; (dsimp only; split <;> exact ⟨_, rfl⟩)]
  case reconPic => unfold execReconPic; split <;> exact ⟨_, rfl⟩

/-- The record of UNINIT stays, or a register was read that is not written and the record is there. -/
def NotedFor (written : Prop) (s t : State) : Prop :=
  t.uninit = s.uninit ∨ ¬ written ∧ ∃ n, t.uninit = s.uninit.or (some n)

theorem notedFor_read {α : Type} (n : String) (r : BlockReg α) (s : State) :
    NotedFor (∀ i j, elem r.written i j = true) s (s.noteRead n r) := by
  by_cases h : ∀ i j, elem r.written i j = true
  · exact .inl (by rw [(noteRead_cases n r s).1 h])
  · refine .inr ⟨h, n, ?_⟩
    rw [(noteRead_cases n r s).2 h]
    unfold uninitRead
    cases s.uninit <;> rfl

theorem notedFor_commit {α : Type} (n : String) (r : BlockReg α) (rd : Fin 4) (q : Block Int) (s : State) :
    NotedFor (∀ i j, elem r.written i j = true) s ((s.noteRead n r).commitQuantized rd q) := by
  unfold State.commitQuantized
  split <;> exact notedFor_read n r s

/-- What a command does to the record of UNINIT. -/
theorem exec_uninit {i : Instr} (h : exec i s = .next t) : NotedFor (sourceWritten s i) s t := by
  have key : ∀ {u : State}, (Host.Outcome.next u : Host.Outcome State Fault Refusal) = .next t →
      NotedFor (sourceWritten s i) s u → NotedFor (sourceWritten s i) s t := fun e hu => by
    rw [Host.Outcome.next.injEq] at e; exact e ▸ hu
  have kept : ∀ {u : State}, u.uninit = s.uninit → NotedFor (sourceWritten s i) s u := fun e => .inl e
  cases i <;> simp only [exec] at h
  case nop => exact key h (kept rfl)
  case fdct rd rs => exact key h (notedFor_read "FDCT" s.rb[rs] s)
  case idct rd rs => exact key h (notedFor_read "IDCT" s.rb[rs] s)
  case quant rd rs =>
    unfold execQuant at h
    split at h
    · exact key h (notedFor_commit "QUANT" s.rb[rs] _ _ s)
    · exact key h (kept rfl)
  case deq rd rs =>
    unfold execDeq at h
    split at h
    · exact key h (notedFor_read "DEQ" s.qb[rs] s)
    · exact key h (kept rfl)
  case c2q rd rs =>
    unfold execC2q at h
    split at h
    · exact key h (notedFor_commit "C2Q" s.rb[rs] _ _ s)
    · exact key h (kept rfl)
  case q2c rd rs =>
    unfold execQ2c at h
    split at h
    · exact key h (notedFor_read "Q2C" s.qb[rs] s)
    · exact key h (kept rfl)
  case ldblk rd b m => unfold execLdblk at h; split at h <;> exact key h (kept rfl)
  case stblk rs b m =>
    unfold execStblk at h
    split at h
    · exact key h (kept rfl)
    · exact key h (notedFor_read "STBLK" s.rb[rs] s)
  case ldq rd b m => unfold execLdq at h; split at h <;> exact key h (kept rfl)
  case stq rs b m =>
    unfold execStq at h
    split at h
    · exact key h (kept rfl)
    · exact key h (notedFor_read "STQ" s.qb[rs] s)
  case codeMb m =>
    unfold execCodeMb at h
    split at h
    · exact key h (kept rfl)
    · dsimp only at h
      split at h <;> exact key h (kept rfl)
  case reconMb m => unfold execReconMb at h; split at h <;> exact key h (kept (by simp))
  case codePic =>
    unfold execCodePic at h
    split at h
    · exact key h (kept rfl)
    · dsimp only at h
      split at h <;> exact key h (kept rfl)
  case reconPic => unfold execReconPic at h; split at h <;> exact key h (kept rfl)

/-- No command clears the record of UNINIT. -/
theorem uninit_none {i : Instr} (h : exec i s = .next t) (ht : t.uninit = none) : s.uninit = none := by
  rcases exec_uninit h with e | ⟨_, n, e⟩
  · rw [← e, ht]
  · rw [ht] at e
    cases hs : s.uninit <;> simp [hs] at e

/-- A command whose source register is written leaves the record of UNINIT. -/
theorem uninit_kept {i : Instr} (h : exec i s = .next t) (hs : sourceWritten s i) : t.uninit = s.uninit :=
  (exec_uninit h).resolve_right fun hn => hn.1 hs

/-- Without the record of UNINIT the register the command read is written. -/
theorem sourceWritten_of_none {i : Instr} (h : exec i s = .next t) (ht : t.uninit = none) :
    (∀ rd rs, i = .fdct rd rs ∨ i = .idct rd rs → rbWritten s rs) := by
  rintro rd rs (rfl | rfl) <;> by_contra hw <;> simp only [exec, execFdct_reads, execIdct_reads,
    noteRb_unwritten hw, Host.Outcome.next.injEq] at h <;> subst h <;>
    (simp only [loadRb, succeed, uninitRead] at ht; split at ht <;> simp_all)

end Sys2Proof
end

