-- ==== Sys2Proof/Laws/Quantizers.lean ====
section
/-! SUPPORT. QUANT1, DEQ1, CLAMP and PIX as roundings of rationals (41_quantizer R191, R193, R194, R198; 42_region
R224). -/

namespace Sys2Proof

open Machine

/-! ## RHE -/

/-- RHE of ±n/d (00_scope R21). -/
theorem isRhe_signed (neg : Bool) {n d : Nat} (hd : 0 < d) :
    IsRhe (roundHalfEvenSigned neg n d) ((if neg then -1 else 1) * ((n : Rat) / (d : Rat))) := by
  have hd' : (0 : Rat) < d := by exact_mod_cast hd
  have key : |((roundHalfEvenSigned neg n d : Int) : Rat) - (if neg then -1 else 1) * ((n : Rat) / (d : Rat))| =
      ((|((roundHalfEven n d * d : Nat) : Int) - n| : Int) : Rat) / d := by
    have e : ∀ m : Rat, |m - (n : Rat) / d| = |m * d - n| / d := by
      intro m
      rw [eq_div_iff hd'.ne', ← abs_of_pos hd', ← abs_mul, abs_of_pos hd']
      congr 1
      field_simp
    unfold roundHalfEvenSigned
    cases neg
    · simp only [Bool.false_eq_true, if_false, one_mul]
      rw [Int.cast_natCast, e, Int.cast_abs]
      push_cast
      rfl
    · simp only [if_true]
      rw [← abs_neg, Int.cast_abs]
      push_cast
      rw [← e]
      congr 1
      ring
  have herr := roundHalfEven_error (n := n) hd
  constructor
  · rw [key, div_le_div_iff₀ hd' (by norm_num)]
    have : |((roundHalfEven n d * d : Nat) : Int) - n| * 2 ≤ 1 * (d : Int) := by
      generalize roundHalfEven n d * d = m at herr
      rcases abs_cases ((m : Int) - n) with ⟨e, _⟩ | ⟨e, _⟩ <;> rw [e] <;> omega
    exact_mod_cast this
  · rw [key, div_eq_div_iff hd'.ne' (by norm_num)]
    intro h
    have h' : |((roundHalfEven n d * d : Nat) : Int) - n| * 2 = 1 * (d : Int) := by exact_mod_cast h
    have heven : roundHalfEven n d % 2 = 0 := by
      rcases abs_cases (((roundHalfEven n d * d : Nat) : Int) - n) with ⟨e, _⟩ | ⟨e, _⟩
      · have h0 : roundHalfEven n d ≠ 0 := by
          intro h0; rw [h0] at e h'; rw [e] at h'; simp at h'; omega
        obtain ⟨m, hm⟩ := Nat.exists_eq_succ_of_ne_zero h0
        refine roundHalfEven_tie hd (j := m) (by omega) ?_
        have h4 : (m + 1) * d = m * d + d := by ring
        rw [hm, Nat.succ_eq_add_one, h4] at e h' ⊢
        generalize m * d = x at *
        rcases abs_cases ((x : Int) - n) with ⟨e2, _⟩ | ⟨e2, _⟩ <;> rw [e2] <;> omega
      · refine roundHalfEven_tie hd (j := roundHalfEven n d + 1) (by omega) ?_
        have h4 : (roundHalfEven n d + 1) * d = roundHalfEven n d * d + d := by ring
        rw [h4]
        generalize roundHalfEven n d * d = x at *
        rcases abs_cases (((x + d : Nat) : Int) - n) with ⟨e2, _⟩ | ⟨e2, _⟩ <;> rw [e2] <;> omega
    unfold roundHalfEvenSigned
    split <;> omega

/-- Only one integer is the RHE of a rational strictly nearer to it than one half. -/
theorem IsRhe.eq_of_near {q k : Int} {r : Rat} (h : IsRhe q r) (hk : |r - k| < 1 / 2) : q = k := by
  have h1 := abs_le.mp h.near
  have h2 := abs_lt.mp hk
  have h3 : (q : Rat) < k + 1 := by linarith
  have h4 : (k : Rat) < q + 1 := by linarith
  have h5 : q < k + 1 := by exact_mod_cast h3
  have h6 : k < q + 1 := by exact_mod_cast h4
  omega

/-! ## QUANT1 -/

/-- QUANT1 of a finite value is the RHE of the exact quotient (41_quantizer R191). -/
theorem quant1_isRhe {c : B64} {t p : Nat} (hc : isFinite c = true) (ht : 1 ≤ t) (hp : 1 ≤ p) :
    IsRhe (quant1 c t p) (16 * realValue c * 2 ^ 16 / ((t : Rat) * (p : Rat))) := by
  have hd : 0 < t * p * unit64 := Nat.mul_pos (Nat.mul_pos ht hp) unit64_pos
  have ht' : (0 : Rat) < t := by exact_mod_cast ht
  have hp' : (0 : Rat) < p := by exact_mod_cast hp
  have hu := unit64_rat_pos
  unfold quant1
  rw [if_pos hc]
  convert isRhe_signed (signBit c) (n := 16 * mag c * pow2 16) hd using 1
  rw [realValue, scaled, pow2_eq]
  push_cast
  generalize unit64 = U at *
  cases signBit c <;> simp <;> field_simp <;> norm_num

/-! ## The relative error of one rounding -/

/-- A rounding of a value of magnitude at least 2^-1000 errs by at most 2^-53 of it. -/
theorem rne64_relative (neg : Bool) {n d : Nat} (hd : 0 < d) (h : n ≤ d * 2 ^ 1023) (hlow : d ≤ n * 2 ^ 1000) :
    |realValue (rne64 neg n d) - (if neg then -1 else 1) * ((n : Rat) / (d : Rat))| ≤
      |(if neg then -1 else 1) * ((n : Rat) / (d : Rat))| / 2 ^ 53 := by
  have hsc := scaled_rne64 (neg := neg) hd (roundPattern_lt hd h)
  have hD : 0 < d * pow2 (spacingExponent n d) := Nat.mul_pos hd (pow2_pos _)
  have herr := roundHalfEven_error (n := n * unit64) hD
  have hbig : 2 ^ 52 * (d * pow2 (spacingExponent n d)) ≤ n * unit64 := by
    rcases (significand_bounds (n := n) hd).2 with h0 | h1
    · exfalso
      have hq : 2 ^ 74 ≤ n * unit64 / d := by
        rw [Nat.le_div_iff_mul_le hd]
        have e : 1074 = 1000 + 74 := rfl
        have : unit64 = 2 ^ 1000 * 2 ^ 74 := by rw [unit64, pow2_eq, e, pow_add]
        rw [this, Nat.mul_comm, ← Nat.mul_assoc]
        exact Nat.mul_le_mul_right _ hlow
      have hne : n * unit64 / d ≠ 0 := by
        intro h; rw [h] at hq; norm_num at hq
      have : 74 ≤ (n * unit64 / d).log2 := (Nat.le_log2 hne).mpr hq
      rw [spacingExponent, floorLog2_eq] at h0
      omega
    · exact h1.2
  have hd' : (0 : Rat) < d := by exact_mod_cast hd
  have hud : (0 : Rat) < (unit64 : Rat) * d := mul_pos unit64_rat_pos hd'
  have hm : (if neg then -scaled (rne64 neg n d) else scaled (rne64 neg n d)) * d =
      ((roundHalfEven (n * unit64) (d * pow2 (spacingExponent n d)) * (d * pow2 (spacingExponent n d)) : Nat) : Int) := by
    rw [hsc]; cases neg <;> simp <;> ring
  rw [realValue, distance_eq _ _ hd, hm]
  have hr : |(if neg then -1 else 1) * ((n : Rat) / (d : Rat))| = ((n * unit64 : Nat) : Rat) / (unit64 * d) := by
    rw [abs_mul, abs_of_nonneg (div_nonneg (Nat.cast_nonneg n) hd'.le)]
    have : |(if neg then (-1 : Rat) else 1)| = 1 := by cases neg <;> simp
    have hu := unit64_rat_pos
    rw [this, one_mul]
    push_cast
    field_simp
  rw [hr, div_right_comm]
  refine div_le_div_of_nonneg_right ?_ hud.le
  rw [le_div_iff₀ (by norm_num)]
  have : |((roundHalfEven (n * unit64) (d * pow2 (spacingExponent n d)) * (d * pow2 (spacingExponent n d)) : Nat) : Int) -
      (n * unit64 : Nat)| * 2 ^ 53 ≤ ((n * unit64 : Nat) : Int) := by
    generalize roundHalfEven (n * unit64) (d * pow2 (spacingExponent n d)) * (d * pow2 (spacingExponent n d)) = m at *
    generalize d * pow2 (spacingExponent n d) = D at *
    generalize n * unit64 = T at *
    rcases abs_cases ((m : Int) - T) with ⟨e, _⟩ | ⟨e, _⟩ <;> rw [e] <;> omega
  exact_mod_cast this

/-! ## DEQ1 -/

theorem deq1_arg (q : Int) (t p : Nat) :
    (if decide (q < 0) then (-1 : Rat) else 1) * (((q.natAbs * t * p : Nat) : Rat) / ((pow2 20 : Nat) : Rat)) =
      (q : Rat) * t * p / 2 ^ 20 := by
  rw [pow2_eq]
  push_cast
  by_cases h : q < 0
  · rw [decide_eq_true h, Nat.cast_natAbs, abs_of_neg h]
    push_cast
    simp
    ring
  · rw [decide_eq_false h, Nat.cast_natAbs, abs_of_nonneg (by omega)]
    norm_num

theorem deq1_bound {q : Int} {t p : Nat} (hq : q.natAbs ≤ 2 ^ 31) (ht : t ≤ 255) (hp : p < 2 ^ 31) :
    q.natAbs * t * p ≤ 255 * 2 ^ 62 := by
  calc q.natAbs * t * p ≤ 2 ^ 31 * 255 * 2 ^ 31 := Nat.mul_le_mul (Nat.mul_le_mul hq ht) hp.le
    _ = 255 * 2 ^ 62 := by norm_num

theorem deq1_noOverflow {q : Int} {t p : Nat} (hq : q.natAbs ≤ 2 ^ 31) (ht : t ≤ 255) (hp : p < 2 ^ 31) :
    q.natAbs * t * p ≤ pow2 20 * 2 ^ 1023 := by
  have h := deq1_bound hq ht hp
  have h2 : 2 ^ 70 ≤ 2 ^ 1023 := Nat.pow_le_pow_right (by norm_num) (by norm_num)
  rw [pow2_eq]
  omega

/-- DEQ1 is the exact product rounded once (41_quantizer R193). -/
theorem deq1_isRne64 {q : Int} {t p : Nat} (hq : q.natAbs ≤ 2 ^ 31) (ht : t ≤ 255) (hp : p < 2 ^ 31) :
    IsRne64 (deq1 q t p) ((q : Rat) * t * p / 2 ^ 20) := by
  rw [← deq1_arg]
  exact rne64_isRne64 _ (pow2_pos 20) (deq1_noOverflow hq ht hp)

/-- DEQ1 is finite and at most 255·2^42 in magnitude (41_quantizer R197). -/
theorem deq1_below {q : Int} {t p : Nat} (hq : q.natAbs ≤ 2 ^ 31) (ht : t ≤ 255) (hp : p < 2 ^ 31) :
    Below (deq1 q t p) 255 1116 := by
  refine (deq1_isRne64 hq ht hp).below (by norm_num) (by norm_num) ?_
  have hb : ((q.natAbs * t * p : Nat) : Rat) ≤ ((255 * 2 ^ 62 : Nat) : Rat) := by exact_mod_cast deq1_bound hq ht hp
  rw [abs_div, abs_mul, abs_mul, Nat.abs_cast, Nat.abs_cast, abs_of_pos (show (0 : Rat) < 2 ^ 20 by norm_num)]
  rw [div_le_div_iff₀ (by norm_num) unit64_rat_pos]
  push_cast [Nat.cast_natAbs] at hb
  have hu : ((2 ^ 1116 : Nat) : Rat) = 2 ^ 42 * unit64 := by
    have e : 1116 = 42 + 1074 := rfl
    rw [unit64, pow2_eq, e, pow_add]
    push_cast
    rfl
  rw [Nat.cast_mul, hu]
  have hu0 := unit64_rat_pos
  generalize (unit64 : Rat) = U at *
  calc |(q : Rat)| * t * p * U ≤ 255 * 2 ^ 62 * U := mul_le_mul_of_nonneg_right (hb.trans (by norm_num)) hu0.le
    _ = ((255 : Nat) : Rat) * (2 ^ 42 * U) * 2 ^ 20 := by push_cast; ring

/-- The error of DEQ1 is at most half an ulp of its result (41_quantizer R194). -/
theorem deq1_halfUlp {q : Int} {t p : Nat} (hq : q.natAbs ≤ 2 ^ 31) (ht : t ≤ 255) (hp : p < 2 ^ 31) :
    |realValue (deq1 q t p) - (q : Rat) * t * p / 2 ^ 20| ≤ halfUlp (deq1 q t p) := by
  refine (deq1_isRne64 hq ht hp).half_ulp ?_
  by_contra h
  have h1 : 2 ^ 52 * 2 ^ (expField (deq1 q t p) - 1) ≤ mag (deq1 q t p) := by
    rw [mag, if_neg (by omega), pow2_eq, pow2_eq]
    exact Nat.mul_le_mul_right _ (Nat.le_add_right _ _)
  have h2 : 2 ^ 2000 ≤ 2 ^ (expField (deq1 q t p) - 1) := Nat.pow_le_pow_right (by norm_num) (by omega)
  have h3 : (2 : Nat) ^ 1116 ≤ 2 ^ 2000 := Nat.pow_le_pow_right (by norm_num) (by norm_num)
  have h4 := (deq1_below hq ht hp).2
  have h5 : (0 : Nat) < 2 ^ 1116 := by positivity
  generalize (2 : Nat) ^ 1116 = A at *
  omega

/-- The error of DEQ1 is at most 2^-53 of the exact product (41_quantizer R194). -/
theorem deq1_error {q : Int} {t p : Nat} (hq : q.natAbs ≤ 2 ^ 31) (ht1 : 1 ≤ t) (ht : t ≤ 255) (hp1 : 1 ≤ p)
    (hp : p < 2 ^ 31) :
    |realValue (deq1 q t p) - (q : Rat) * t * p / 2 ^ 20| ≤ |(q : Rat) * t * p / 2 ^ 20| / 2 ^ 53 := by
  by_cases h0 : q = 0
  · subst h0
    have h := (deq1_isRne64 (q := 0) (by norm_num) ht hp).exact (w := 0) (by decide)
      (by rw [realValue]; simp [scaled, mag, expField, fracField])
    rw [h]
    simp
  · rw [← deq1_arg]
    refine rne64_relative _ (pow2_pos 20) (deq1_noOverflow hq ht hp) ?_
    have h1 : 1 ≤ q.natAbs * t * p := Nat.mul_pos (Nat.mul_pos (Int.natAbs_pos.mpr h0) ht1) hp1
    have h2 : 2 ^ 20 ≤ 2 ^ 1000 := Nat.pow_le_pow_right (by norm_num) (by norm_num)
    rw [pow2_eq]
    exact h2.trans (Nat.le_mul_of_pos_left _ h1)

/-! ## CLAMP and PIX -/

theorem isNaN_finite {v : B64} (h : isFinite v = true) : isNaN v = false := by
  rw [isFinite, bne_iff_ne] at h
  simp [isNaN, h]

theorem mag_255 : mag 0x406FE00000000000 = 255 * unit64 := by decide +kernel

/-- The magnitude of a clamped finite value (41_quantizer R198). -/
theorem mag_clamp {v : B64} (h : isFinite v = true) :
    mag (clamp v) = if signBit v then 0 else min (mag v) (255 * unit64) := by
  unfold clamp ltZero gt255
  rw [isNaN_finite h]
  have h0 : mag 0x0000000000000000 = 0 := by decide
  cases hs : signBit v
  · simp only [Bool.false_and, Bool.false_eq_true, if_false, Bool.not_false, Bool.true_and, Bool.and_true]
    split
    · next hgt => rw [mag_255, min_eq_right (of_decide_eq_true hgt).le]
    · next hle => rw [min_eq_left]; simpa using hle
  · simp only [Bool.true_and, Bool.not_false, Bool.and_true, Bool.not_true, Bool.false_and, Bool.false_eq_true, if_false,
      if_true]
    split
    · exact h0
    · next hz => simpa using hz

theorem isFinite_clamp {v : B64} (h : isFinite v = true) : isFinite (clamp v) = true := by
  unfold clamp
  split
  · decide
  · split
    · decide
    · exact h

/-- The real value of a clamped finite value (41_quantizer R198). -/
theorem realValue_clamp {v : B64} (h : isFinite v = true) : realValue (clamp v) = max 0 (min 255 (realValue v)) := by
  have hu := unit64_rat_pos
  have h255 : realValue 0x406FE00000000000 = 255 := by
    rw [realValue, scaled, mag_255]
    rw [if_neg (by decide)]
    push_cast
    field_simp
  have h0 : realValue 0x0000000000000000 = 0 := by
    rw [realValue, scaled, if_neg (by decide), show mag 0x0000000000000000 = 0 by decide]
    simp
  have hneg : signBit v = true → realValue v = -((mag v : Rat) / unit64) := by
    intro hs; rw [realValue, scaled, if_pos hs]; push_cast; ring
  have hpos : signBit v = false → realValue v = (mag v : Rat) / unit64 := by
    intro hs; rw [realValue, scaled, if_neg (by simp [hs])]; push_cast; rfl
  have hm : (0 : Rat) ≤ (mag v : Rat) / unit64 := div_nonneg (Nat.cast_nonneg _) hu.le
  unfold clamp ltZero gt255
  rw [isNaN_finite h]
  cases hs : signBit v
  · simp only [Bool.false_and, Bool.false_eq_true, if_false, Bool.not_false, Bool.true_and, Bool.and_true]
    rw [hpos hs]
    split
    · next hgt =>
      have hgt' : (255 * unit64 : Nat) < mag v := of_decide_eq_true hgt
      have : (255 : Rat) ≤ (mag v : Rat) / unit64 := by
        rw [le_div_iff₀ hu]; exact_mod_cast hgt'.le
      rw [h255, min_eq_left this, max_eq_right (by norm_num)]
    · next hle =>
      have hle' : mag v ≤ 255 * unit64 := by simpa using hle
      have : (mag v : Rat) / unit64 ≤ 255 := by
        rw [div_le_iff₀ hu]; exact_mod_cast hle'
      rw [hpos hs, min_eq_right this, max_eq_right hm]
  · simp only [Bool.true_and, Bool.not_false, Bool.and_true, Bool.not_true, Bool.false_and, Bool.false_eq_true, if_false]
    rw [hneg hs]
    have : min (255 : Rat) (-((mag v : Rat) / unit64)) ≤ 0 := (min_le_right _ _).trans (by linarith)
    rw [max_eq_left this]
    split
    · exact h0
    · next hz =>
      have hz' : mag v = 0 := by simpa using hz
      rw [hneg hs, hz']; simp

theorem mag_clamp_le {v : B64} (h : isFinite v = true) : mag (clamp v) ≤ 255 * unit64 := by
  rw [mag_clamp h]; split
  · exact Nat.zero_le _
  · exact min_le_right _ _

theorem realValue_clamp_mag {v : B64} (h : isFinite v = true) : realValue (clamp v) = (mag (clamp v) : Rat) / unit64 := by
  rw [← abs_realValue, abs_of_nonneg]
  rw [realValue_clamp h]
  exact le_max_left _ _

/-- PIX under PIX_ROUND = RHE (42_region R224). -/
theorem pix_rhe {v : B64} (h : isFinite v = true) : (pix .rhe v).toNat = roundHalfEven (mag (clamp v)) unit64 := by
  have hle : roundHalfEven (mag (clamp v)) unit64 ≤ 255 := by
    rw [← roundHalfEven_mul_self 255 unit64_pos]
    exact roundHalfEven_mono unit64_pos unit64_pos (Nat.mul_le_mul_right _ (mag_clamp_le h))
  rw [pix, isNaN_finite h]
  simp only [Bool.false_eq_true, if_false]
  rw [BitVec.toNat_ofNat, Nat.mod_eq_of_lt (by omega)]

/-- PIX under PIX_ROUND = TRUNC (42_region R224). -/
theorem pix_trunc {v : B64} (h : isFinite v = true) : (pix .trunc v).toNat = mag (clamp v) / unit64 := by
  have hle : mag (clamp v) / unit64 ≤ 255 := by
    have := Nat.div_le_div_right (c := unit64) (mag_clamp_le h)
    rwa [Nat.mul_div_cancel _ unit64_pos] at this
  rw [pix, isNaN_finite h]
  simp only [Bool.false_eq_true, if_false]
  rw [BitVec.toNat_ofNat, Nat.mod_eq_of_lt (by omega)]

/-- The comparisons of CLAMP on finite values (41_quantizer R198). -/
theorem ltZero_iff {v : B64} (h : isFinite v = true) : ltZero v = true ↔ realValue v < 0 := by
  have hu := unit64_rat_pos
  have h0 := Nat.cast_nonneg (α := Rat) (mag v)
  unfold ltZero realValue scaled
  rw [isNaN_finite h, div_lt_iff₀ hu, zero_mul]
  cases signBit v
  · simpa using h0
  · simp [Nat.pos_iff_ne_zero]

theorem gt255_iff {v : B64} (h : isFinite v = true) : gt255 v = true ↔ 255 < realValue v := by
  have hu := unit64_rat_pos
  have h0 := Nat.cast_nonneg (α := Rat) (mag v)
  unfold gt255 realValue scaled
  rw [isNaN_finite h, lt_div_iff₀ hu]
  cases signBit v
  · simp only [Bool.not_false, Bool.true_and, Bool.and_true, decide_eq_true_eq, Bool.false_eq_true, if_false]
    exact_mod_cast Iff.rfl
  · simp only [Bool.not_true, Bool.false_and, Bool.false_eq_true, if_true, false_iff, not_lt]
    push_cast
    linarith

end Sys2Proof
end

