-- ==== Sys2Proof/Laws/Finite.lean ====
section
/-! SUPPORT. RB holds finite values once written (10_state R67): the arithmetic, the transforms and the quantizer give
finite values of finite operands, and so every command keeps RB finite. -/

namespace Sys2Proof

open Machine

/-! ## Arithmetic -/

@[simp] theorem isFinite_asFinite (v : B64) : isFinite (asFinite v) = true := by
  unfold asFinite
  split
  · assumption
  · decide

theorem isFinite_withSign {neg : Bool} {p : Nat} (hp : p < 2047 * pow2 52) : isFinite (withSign neg p) = true := by
  rw [pow2_eq] at hp
  rw [isFinite, expField_withSign (by omega), bne_iff_ne]
  omega

/-- A rounded value is finite, also past the largest binary64 value. -/
@[simp] theorem isFinite_rne64 (neg : Bool) (n d : Nat) : isFinite (rne64 neg n d) = true := by
  unfold rne64
  split
  · next h => exact isFinite_withSign h
  · exact isFinite_asFinite _

theorem isFinite_add64 {a b : B64} (ha : isFinite a = true) (hb : isFinite b = true) : isFinite (add64 a b) = true := by
  unfold add64
  rw [ha, hb, Bool.and_self, if_pos rfl]
  split
  · exact isFinite_withSign (by rw [pow2_eq]; norm_num)
  · exact isFinite_rne64 _ _ _

theorem isFinite_mul64 {a b : B64} (ha : isFinite a = true) (hb : isFinite b = true) : isFinite (mul64 a b) = true := by
  unfold mul64
  rw [ha, hb, Bool.and_self, if_pos rfl]
  exact isFinite_rne64 _ _ _

theorem isFinite_dot8 {x y : Fin 8 → B64} (hx : ∀ i, isFinite (x i) = true) (hy : ∀ i, isFinite (y i) = true) :
    isFinite (dot8 x y) = true := by
  have h := fun i => isFinite_mul64 (hx i) (hy i)
  exact isFinite_add64 (isFinite_add64 (isFinite_add64 (isFinite_add64 (isFinite_add64 (isFinite_add64 (isFinite_add64
    (h 0) (h 1)) (h 2)) (h 3)) (h 4)) (h 5)) (h 6)) (h 7)

/-! ## Blocks -/

/-- Every element is finite. -/
def BlockFinite (x : Block B64) : Prop := ∀ i j, isFinite (elem x i j) = true

theorem isFinite_m64 (kind : XformKind) (k n : Fin 8) : isFinite (m64 kind k n) = true := by
  have h : ∀ i : Fin 8, isFinite coeff64[i] = true := by decide +kernel
  unfold m64
  split
  · rw [isFinite_negate]; exact h ⟨_, Nat.mod_lt _ (by decide)⟩
  · exact h ⟨_, Nat.mod_lt _ (by decide)⟩

theorem blockFinite_fwdRef64 (kind : XformKind) {x : Block B64} (h : BlockFinite x) :
    BlockFinite (fwdRef64 kind x) := fun u v => by
  rw [fwdRef64, fwdCols, elem_mkBlock]
  refine isFinite_dot8 (fun i => isFinite_m64 kind u i) fun i => ?_
  rw [fwdRows, elem_mkBlock]
  exact isFinite_dot8 (h i) fun j => isFinite_m64 kind v j

theorem blockFinite_invRef64 (kind : XformKind) {x : Block B64} (h : BlockFinite x) :
    BlockFinite (invRef64 kind x) := fun i j => by
  rw [invRef64, invCols, elem_mkBlock]
  refine isFinite_dot8 (fun u => isFinite_m64 kind u i) fun u => ?_
  rw [invRows, elem_mkBlock]
  exact isFinite_dot8 (h u) fun v => isFinite_m64 kind v j

/-- What `constrained` answers is within the bound. -/
theorem constrained_within {eps : Rat} {s : Int} {t : Deg8} {c v : B64} (h : constrained eps s t c = some v) :
    withinBound eps s t v = true := by
  unfold constrained at h
  split_ifs at h <;> simp only [Option.some.injEq] at h <;> subst h <;> assumption

/-- Everything an element under BOUNDED(EPS) can be. -/
theorem boundedElem_cases (eps : Rat) (s : Int) (t : Deg8) (c : B64) :
    (∃ v, constrained eps s t c = some v ∧ boundedElem eps s t c = v) ∨
      constrained eps s t c = none ∧
        ((∃ v, constrained pixelEps s t c = some v ∧ boundedElem eps s t c = v) ∨
          constrained pixelEps s t c = none ∧ boundedElem eps s t c = asFinite c) := by
  unfold boundedElem
  cases constrained eps s t c <;> cases constrained pixelEps s t c <;> simp

theorem isFinite_boundedElem (eps : Rat) (s : Int) (t : Deg8) (c : B64) :
    isFinite (boundedElem eps s t c) = true := by
  have within : ∀ e v, constrained e s t c = some v → isFinite v = true := fun e v h => by
    have h := constrained_within h
    rw [withinBound, Bool.and_eq_true, Bool.and_eq_true] at h
    exact h.1.1
  rcases boundedElem_cases eps s t c with ⟨v, h, e⟩ | ⟨_, ⟨v, h, e⟩ | ⟨_, e⟩⟩ <;> rw [e]
  · exact within _ v h
  · exact within _ v h
  · exact isFinite_asFinite c

theorem blockFinite_bounded (eps : Rat) (draws site : Nat) {x : Block B64} (h : BlockFinite x)
    (exact : Fin 8 → Fin 8 → Deg8) : BlockFinite (boundedBlock eps draws site x exact) := fun i j => by
  rw [boundedBlock, elem_mkBlock, if_pos (allBlock_iff.mpr h)]
  exact isFinite_boundedElem ..

/-- FWD of a finite block is finite, for every XFORM_IMPL. -/
theorem blockFinite_fwd (c : Params) (draws site : Nat) {x : Block B64} (h : BlockFinite x) :
    BlockFinite (fwd c draws site x) := by
  unfold fwd
  split
  · exact blockFinite_fwdRef64 _ h
  · exact blockFinite_bounded _ _ _ h _

/-- INV of a finite block is finite, for every XFORM_IMPL. -/
theorem blockFinite_inv (c : Params) (draws site : Nat) {x : Block B64} (h : BlockFinite x) :
    BlockFinite (inv c draws site x) := by
  unfold inv
  split
  · exact blockFinite_invRef64 _ h
  · exact blockFinite_bounded _ _ _ h _

theorem blockFinite_dequantize (c : Params) (p : Nat) (q : Block Word) : BlockFinite (dequantize c p q) := fun i j => by
  rw [dequantize, elem_mkBlock]
  exact isFinite_rne64 _ _ _

theorem blockFinite_q2cBlock (c : Params) (p draws site : Nat) (q : Block Word) :
    BlockFinite (q2cBlock c p draws site q) := fun i j => by
  rw [q2cBlock, elem_mapBlock]
  exact isFinite_clamp (blockFinite_inv c draws site (blockFinite_dequantize c p q) i j)

theorem blockFinite_blockIn (s : State) (m b : Nat) : BlockFinite (s.blockIn m b) := fun i j => by
  rw [State.blockIn, elem_mkBlock]
  exact isFinite_rne64 _ _ _

/-! ## Commands -/

variable {s t : State}

/-- Every register of RB is as it was or holds a finite block. -/
def WritesFinite (s t : State) : Prop := ∀ r : Fin 4, t.rb[r] = s.rb[r] ∨ BlockFinite t.rb[r].vals

theorem writesFinite_kept (h : t.rb = s.rb) : WritesFinite s t := fun r => .inl (by rw [h])

theorem writesFinite_writeRb {x : Block B64} (hx : BlockFinite x) (rd : Fin 4) :
    WritesFinite s (s.writeRb rd x).completeOk := by
  intro r
  by_cases h : r = rd
  · subst h
    have e : (s.writeRb r x).completeOk.rb[r].vals = x := by simp [State.writeRb, BlockReg.full]
    right
    rw [e]
    exact hx
  · have : rd.val ≠ r.val := fun e => h (Fin.ext e.symm)
    exact .inl (by simp [State.writeRb, this])

/-- The record that a read leaves does not change RB. -/
theorem WritesFinite.note {α : Type} {n : String} {r : BlockReg α} (h : WritesFinite (s.noteRead n r) t) :
    WritesFinite s t := h

theorem writesFinite_commit (rd : Fin 4) (q : Block Int) : WritesFinite s (s.commitQuantized rd q) := by
  unfold State.commitQuantized
  split <;> exact writesFinite_kept rfl

/-- Every block a command writes to RB is finite, provided the one FDCT and IDCT read is (10_state R67). -/
theorem exec_writesFinite {i : Instr} (h : exec i s = .next t)
    (hs : ∀ rd rs, (i = .fdct rd rs ∨ i = .idct rd rs) → BlockFinite s.rb[rs].vals) : WritesFinite s t := by
  have key : ∀ {u : State}, (Host.Outcome.next u : Host.Outcome State Fault Refusal) = .next t → WritesFinite s u →
      WritesFinite s t := fun e hu => by rw [Host.Outcome.next.injEq] at e; exact e ▸ hu
  cases i <;> simp only [exec] at h
  case nop => exact key h (writesFinite_kept rfl)
  case fdct rd rs =>
    exact key h (writesFinite_writeRb (blockFinite_fwd _ _ _ (hs rd rs (.inl rfl))) rd).note
  case idct rd rs =>
    exact key h (writesFinite_writeRb (blockFinite_inv _ _ _ (hs rd rs (.inr rfl))) rd).note
  case quant rd rs =>
    unfold execQuant at h
    split at h
    · exact key h (writesFinite_commit _ _).note
    · exact key h (writesFinite_kept rfl)
  case deq rd rs =>
    unfold execDeq at h
    split at h
    · exact key h (writesFinite_writeRb (blockFinite_dequantize _ _ _) rd).note
    · exact key h (writesFinite_kept rfl)
  case c2q rd rs =>
    unfold execC2q at h
    split at h
    · exact key h (writesFinite_commit _ _).note
    · exact key h (writesFinite_kept rfl)
  case q2c rd rs =>
    unfold execQ2c at h
    split at h
    · exact key h (writesFinite_writeRb (blockFinite_q2cBlock _ _ _ _ _) rd).note
    · exact key h (writesFinite_kept rfl)
  case ldblk rd b m =>
    unfold execLdblk at h
    split at h
    · exact key h (writesFinite_kept rfl)
    · exact key h (writesFinite_writeRb (blockFinite_blockIn _ _ _) rd)
  case stblk rs b m =>
    unfold execStblk at h
    split at h <;> exact key h (writesFinite_kept rfl)
  case ldq rd b m =>
    unfold execLdq at h
    split at h <;> exact key h (writesFinite_kept rfl)
  case stq rs b m =>
    unfold execStq at h
    split at h
    · exact key h (writesFinite_kept rfl)
    · exact key h (writesFinite_kept (by simp [State.writeCoef]))
  case codeMb m =>
    unfold execCodeMb at h
    split at h
    · exact key h (writesFinite_kept (by simp))
    · dsimp only at h
      split at h <;> exact key h (writesFinite_kept (by simp))
  case reconMb m =>
    unfold execReconMb at h
    split at h <;> exact key h (writesFinite_kept (by simp))
  case codePic =>
    unfold execCodePic at h
    split at h
    · exact key h (writesFinite_kept (by simp))
    · dsimp only at h
      split at h <;> exact key h (writesFinite_kept (by simp))
  case reconPic =>
    unfold execReconPic at h
    split at h <;> exact key h (writesFinite_kept (by simp))

/-- Every command keeps RB finite while no element that was never written is read (10_state R67). -/
theorem exec_rbFinite {i : Instr} (h : exec i s = .next t) (ht : t.uninit = none) (hs : rbFinite s) : rbFinite t := by
  have hw : ∀ rd rs, (i = .fdct rd rs ∨ i = .idct rd rs) → BlockFinite s.rb[rs].vals := fun rd rs hi a b =>
    hs rs a b (sourceWritten_of_none h ht rd rs hi a b)
  intro r a b hr
  rcases exec_writesFinite h hw r with e | e
  · rw [e] at hr ⊢; exact hs r a b hr
  · exact e a b

/-- A reset leaves no element of RB written. -/
theorem rbFinite_reset (c : Params) : rbFinite (State.resetWith c) := by
  intro r i j h
  exfalso
  simp [State.resetWith, BlockReg.reset, elem] at h

end Sys2Proof
end

