-- ==== Sys2Proof/Laws/Exact.lean ====
section
/-! SUPPORT. The ring of Machine/Exact.lean as real numbers: what its operations and its signs are, and that `cos2`
holds the cosines of 40_transform R171 and R177. -/

namespace Sys2Proof

open Machine

/-! ## Values -/

/-- The real number that x stands for. -/
noncomputable def deg2Real (x : Deg2) : ℝ := x.a + x.b * √2

/-- The real number that x stands for. -/
noncomputable def deg4Real (x : Deg4) : ℝ := deg2Real x.a + deg2Real x.b * √(2 + √2)

/-- The real number that x stands for. -/
noncomputable def deg8Real (x : Deg8) : ℝ := deg4Real x.a + deg4Real x.b * √(2 + √(2 + √2))

theorem sq_root2 : (√2 : ℝ) * √2 = 2 := Real.mul_self_sqrt (by norm_num)

theorem sq_root4 : √(2 + √2 : ℝ) * √(2 + √2) = 2 + √2 := Real.mul_self_sqrt (by positivity)

theorem sq_root8 : √(2 + √(2 + √2) : ℝ) * √(2 + √(2 + √2)) = 2 + √(2 + √2) := Real.mul_self_sqrt (by positivity)

@[simp] theorem deg2Real_add (x y : Deg2) : deg2Real (x.add y) = deg2Real x + deg2Real y := by
  simp only [deg2Real, Deg2.add]; push_cast; ring

@[simp] theorem deg2Real_sub (x y : Deg2) : deg2Real (x.sub y) = deg2Real x - deg2Real y := by
  simp only [deg2Real, Deg2.sub]; push_cast; ring

@[simp] theorem deg2Real_mul (x y : Deg2) : deg2Real (x.mul y) = deg2Real x * deg2Real y := by
  simp only [deg2Real, Deg2.mul]; push_cast
  linear_combination (-(x.b : ℝ) * y.b) * sq_root2

@[simp] theorem deg4Real_add (x y : Deg4) : deg4Real (x.add y) = deg4Real x + deg4Real y := by
  simp only [deg4Real, Deg4.add, deg2Real_add]; ring

@[simp] theorem deg4Real_sub (x y : Deg4) : deg4Real (x.sub y) = deg4Real x - deg4Real y := by
  simp only [deg4Real, Deg4.sub, deg2Real_sub]; ring

theorem deg2Real_root : deg2Real ⟨2, 1⟩ = 2 + √2 := by simp [deg2Real]

@[simp] theorem deg4Real_mul (x y : Deg4) : deg4Real (x.mul y) = deg4Real x * deg4Real y := by
  simp only [deg4Real, Deg4.mul, deg2Real_add, deg2Real_mul, deg2Real_root]
  linear_combination (-deg2Real x.b * deg2Real y.b) * sq_root4

@[simp] theorem deg8Real_add (x y : Deg8) : deg8Real (x.add y) = deg8Real x + deg8Real y := by
  simp only [deg8Real, Deg8.add, deg4Real_add]; ring

@[simp] theorem deg8Real_sub (x y : Deg8) : deg8Real (x.sub y) = deg8Real x - deg8Real y := by
  simp only [deg8Real, Deg8.sub, deg4Real_sub]; ring

theorem deg4Real_root : deg4Real ⟨⟨2, 0⟩, ⟨1, 0⟩⟩ = 2 + √(2 + √2) := by simp [deg4Real, deg2Real]

@[simp] theorem deg8Real_mul (x y : Deg8) : deg8Real (x.mul y) = deg8Real x * deg8Real y := by
  simp only [deg8Real, Deg8.mul, deg4Real_add, deg4Real_mul, deg4Real_root]
  linear_combination (-deg4Real x.b * deg4Real y.b) * sq_root8

@[simp] theorem deg8Real_ofInt (n : Int) : deg8Real (Deg8.ofInt n) = n := by
  simp [deg8Real, deg4Real, deg2Real, Deg8.ofInt]

@[simp] theorem deg8Real_sum8 (f : Fin 8 → Deg8) : deg8Real (Deg8.sum8 f) = ∑ i, deg8Real (f i) := by
  simp only [Deg8.sum8, deg8Real_add, Fin.sum_univ_eight]

/-! ## Signs -/

/-- `g` is the sign of `r`. -/
def IsSign (g : Int) (r : ℝ) : Prop := (g = 1 ∧ 0 < r) ∨ (g = 0 ∧ r = 0) ∨ (g = -1 ∧ r < 0)

theorem isSign_int (n : Int) : IsSign n.sign n := by
  rcases lt_trichotomy n 0 with h | h | h
  · exact .inr (.inr ⟨Int.sign_eq_neg_one_of_neg h, by exact_mod_cast h⟩)
  · exact .inr (.inl ⟨by rw [h]; rfl, by exact_mod_cast h⟩)
  · exact .inl ⟨Int.sign_eq_one_of_pos h, by exact_mod_cast h⟩

theorem IsSign.nonneg {g : Int} {r : ℝ} (h : IsSign g r) : 0 ≤ g ↔ 0 ≤ r := by
  rcases h with ⟨rfl, h⟩ | ⟨rfl, h⟩ | ⟨rfl, h⟩
  · exact ⟨fun _ => h.le, fun _ => by decide⟩
  · exact ⟨fun _ => h.ge, fun _ => le_rfl⟩
  · exact ⟨fun h' => absurd h' (by decide), fun h' => absurd h (not_lt.mpr h')⟩

theorem IsSign.neg_iff {g : Int} {r : ℝ} (h : IsSign g r) : g < 0 ↔ r < 0 := by
  rw [← not_le, ← not_le, h.nonneg]

/-- The rule of `signOf`: a sum `a + b·c` with c > 0. -/
theorem isSign_signOf {a b c d : ℝ} {sa sb sd : Int} (hc : 0 < c) (hd : c * c = d) (ha : IsSign sa a)
    (hb : IsSign sb b) (hs : IsSign sd (a * a - d * (b * b))) : IsSign (signOf sa sb sd) (a + b * c) := by
  subst hd
  have e : a * a - c * c * (b * b) = (a - b * c) * (a + b * c) := by ring
  rw [e] at hs
  rcases ha with ⟨rfl, ha⟩ | ⟨rfl, rfl⟩ | ⟨rfl, ha⟩
  · rcases hb with ⟨rfl, hb⟩ | ⟨rfl, rfl⟩ | ⟨rfl, hb⟩
    · exact .inl ⟨rfl, by positivity⟩
    · exact .inl ⟨rfl, by simpa using ha⟩
    · have hp : 0 < a - b * c := by nlinarith
      have e2 : signOf 1 (-1) sd = sd := by simp [signOf]
      rw [e2]
      rcases hs with ⟨h1, h⟩ | ⟨h1, h⟩ | ⟨h1, h⟩
      · exact .inl ⟨h1, (mul_pos_iff_of_pos_left hp).mp h⟩
      · exact .inr (.inl ⟨h1, (mul_eq_zero.mp h).resolve_left hp.ne'⟩)
      · exact .inr (.inr ⟨h1, by nlinarith⟩)
  · have e2 : signOf 0 sb sd = sb := by simp [signOf]
    rw [e2, zero_add]
    rcases hb with ⟨h1, h⟩ | ⟨h1, h⟩ | ⟨h1, h⟩
    · exact .inl ⟨h1, by positivity⟩
    · exact .inr (.inl ⟨h1, by rw [h, zero_mul]⟩)
    · exact .inr (.inr ⟨h1, mul_neg_of_neg_of_pos h hc⟩)
  · rcases hb with ⟨rfl, hb⟩ | ⟨rfl, rfl⟩ | ⟨rfl, hb⟩
    · have hp : a - b * c < 0 := by nlinarith [mul_pos hb hc]
      have e2 : signOf (-1) 1 sd = -sd := by simp [signOf]
      rw [e2]
      rcases hs with ⟨rfl, h⟩ | ⟨rfl, h⟩ | ⟨rfl, h⟩
      · exact .inr (.inr ⟨rfl, by nlinarith⟩)
      · exact .inr (.inl ⟨rfl, (mul_eq_zero.mp h).resolve_left hp.ne⟩)
      · exact .inl ⟨rfl, by nlinarith⟩
    · exact .inr (.inr ⟨rfl, by simpa using ha⟩)
    · exact .inr (.inr ⟨rfl, by nlinarith [mul_neg_of_neg_of_pos hb hc]⟩)

theorem isSign_deg2 (x : Deg2) : IsSign x.sgn (deg2Real x) := by
  refine isSign_signOf (by positivity) sq_root2 (isSign_int _) (isSign_int _) ?_
  have := isSign_int (x.a * x.a - 2 * (x.b * x.b))
  push_cast at this
  exact this

theorem isSign_deg4 (x : Deg4) : IsSign x.sgn (deg4Real x) := by
  refine isSign_signOf (by positivity) sq_root4 (isSign_deg2 _) (isSign_deg2 _) ?_
  have := isSign_deg2 ((x.a.mul x.a).sub (Deg2.mul ⟨2, 1⟩ (x.b.mul x.b)))
  rwa [deg2Real_sub, deg2Real_mul, deg2Real_mul, deg2Real_mul, deg2Real_root] at this

/-- The sign of a number of the ring is decided exactly. -/
theorem isSign_deg8 (x : Deg8) : IsSign x.sgn (deg8Real x) := by
  refine isSign_signOf (by positivity) sq_root8 (isSign_deg4 _) (isSign_deg4 _) ?_
  have := isSign_deg4 ((x.a.mul x.a).sub (Deg4.mul ⟨⟨2, 0⟩, ⟨1, 0⟩⟩ (x.b.mul x.b)))
  rwa [deg4Real_sub, deg4Real_mul, deg4Real_mul, deg4Real_mul, deg4Real_root] at this

/-- The order of numbers of the ring is decided exactly. -/
theorem deg8_le_iff (x y : Deg8) : x.le y = true ↔ deg8Real x ≤ deg8Real y := by
  rw [Deg8.le, decide_eq_true_iff, (isSign_deg8 _).nonneg, deg8Real_sub, sub_nonneg]

/-! ## Cosines -/

/-- `2·cos(m·pi/16)` for every m, by the recurrence of the cosines of multiples. -/
def cosMultiple : Nat → Deg8 × Deg8
  | 0 => (Deg8.ofInt 2, cos2[1])
  | m + 1 => ((cosMultiple m).2, (Deg8.mul cos2[1] (cosMultiple m).2).sub (cosMultiple m).1)

theorem cos2_one : deg8Real cos2[1] = 2 * Real.cos (Real.pi / 16) := by
  rw [Real.cos_pi_div_sixteen]
  simp only [cos2, deg8Real, deg4Real, deg2Real, Vector.getElem_mk, List.getElem_toArray, List.getElem_cons_succ,
    List.getElem_cons_zero]
  push_cast
  ring

theorem cosMultiple_val (m : Nat) :
    deg8Real (cosMultiple m).1 = 2 * Real.cos (m * (Real.pi / 16)) ∧
      deg8Real (cosMultiple m).2 = 2 * Real.cos ((m + 1 : Nat) * (Real.pi / 16)) := by
  induction m with
  | zero => exact ⟨by simp [cosMultiple], by simpa [cosMultiple] using cos2_one⟩
  | succ m ih =>
    refine ⟨ih.2, ?_⟩
    simp only [cosMultiple, deg8Real_sub, deg8Real_mul, ih.1, ih.2, cos2_one]
    have h1 : ((m + 1 + 1 : Nat) : ℝ) * (Real.pi / 16) = (m + 1 : Nat) * (Real.pi / 16) + Real.pi / 16 := by
      push_cast; ring
    have h2 : (m : ℝ) * (Real.pi / 16) = (m + 1 : Nat) * (Real.pi / 16) - Real.pi / 16 := by
      push_cast; ring
    rw [h1, h2, Real.cos_add, Real.cos_sub]
    ring

end Sys2Proof
end

