-- ==== Sys2Proof/Laws/Matrix.lean ====
section
/-! SUPPORT. The exact matrices (40_transform R171–R173, R177): the ring's entries are those of the spec's formulas,
the matrices are orthonormal both ways, their rounded entries are the nearest values, and the exact transforms of the
model are those of R173. -/

namespace Sys2Proof

open Machine

/-! ## Entries -/

theorem cos2_four : deg8Real cos2[4] = √2 := by
  simp [cos2, deg8Real, deg4Real, deg2Real]

theorem root_eighth : √(1 / 8 : ℝ) = √2 / 4 := by
  rw [show (1 / 8 : ℝ) = 2 / 4 ^ 2 by norm_num, Real.sqrt_div (by norm_num), Real.sqrt_sq (by norm_num)]

theorem mExact_dct2 : ∀ k n : Fin 8,
    mExact .dct2 k n = if k = 0 then cos2[4] else (cosMultiple ((2 * n.val + 1) * k.val)).1 := by
  decide +kernel

theorem mExact_wht : ∀ k n : Fin 8, mExact .wht k n =
    Deg8.mul (Deg8.ofInt ((-1) ^ (
      let g := k.val ^^^ (k.val >>> 1)
      let a := (4 * (g % 2) + 2 * (g / 2 % 2) + g / 4) &&& n.val
      (a % 2 + a / 2 % 2 + a / 4)))) cos2[4] := by
  decide +kernel

/-- The model's exact entries are four times those of the formulas of R171 and R172. -/
theorem mExact_val (kind : XformKind) (k n : Fin 8) : deg8Real (mExact kind k n) = 4 * transformMatrix kind k n := by
  cases kind with
  | dct2 =>
    rw [mExact_dct2, transformMatrix]
    split
    · next h => subst h; rw [cos2_four, root_eighth]; simp; ring
    · rw [(cosMultiple_val _).1, show Real.pi * (2 * (n.val : ℝ) + 1) * (k.val : ℝ) / 16 =
        (2 * (n.val : ℝ) + 1) * k.val * (Real.pi / 16) by ring]
      push_cast
      ring
  | wht =>
    rw [mExact_wht, deg8Real_mul, deg8Real_ofInt, cos2_four, transformMatrix, root_eighth]
    push_cast
    ring

/-! ## Orthonormality -/

theorem mExact_orthogonal (kind : XformKind) : ∀ k n : Fin 8,
    Deg8.sum8 (fun i => (mExact kind k i).mul (mExact kind n i)) = Deg8.ofInt (if k = n then 16 else 0) ∧
      Deg8.sum8 (fun i => (mExact kind i k).mul (mExact kind i n)) = Deg8.ofInt (if k = n then 16 else 0) := by
  cases kind <;> decide +kernel

/-- The rows are orthonormal, and the columns (40_transform R173). -/
theorem transformMatrix_orthonormal (kind : XformKind) (k n : Fin 8) :
    ∑ i, transformMatrix kind k i * transformMatrix kind n i = (if k = n then 1 else 0) ∧
      ∑ i, transformMatrix kind i k * transformMatrix kind i n = (if k = n then 1 else 0) := by
  have quarter : ∀ f g : Fin 8 → ℝ, ∑ i, 4 * f i * (4 * g i) = 16 * ∑ i, f i * g i := fun f g => by
    rw [Finset.mul_sum]
    exact Finset.sum_congr rfl fun i _ => by ring
  have h1 := congrArg deg8Real (mExact_orthogonal kind k n).1
  have h2 := congrArg deg8Real (mExact_orthogonal kind k n).2
  simp only [deg8Real_sum8, deg8Real_mul, mExact_val, deg8Real_ofInt, quarter] at h1 h2
  split_ifs at h1 h2 ⊢ <;> push_cast at h1 h2 <;> constructor <;> linarith

/-! ## Rounded entries -/

/-- A value that is at least as near as another to both ends of an interval is so to every number of it. -/
theorem nearest_between {v w a b r : ℝ} (ha : |v - a| ≤ |w - a|) (hb : |v - b| ≤ |w - b|) (h1 : a ≤ r) (h2 : r ≤ b) :
    |v - r| ≤ |w - r| := by
  rw [← sq_le_sq] at *
  nlinarith [mul_nonneg (sub_nonneg.mpr h1) (sub_nonneg.mpr h2), ha, hb, sq_nonneg (v-w), h1, h2]

/-- `cos(k·pi/16)/2` times 2^256, for k = 1..7, to within one. -/
def coeffFloor : Vector Nat 8 := #v[
  57896044618658097711785492504343953926634992332820282019728792003956564819968,
  56783588355548523662731884456929978165442685791615319794875818837870842955150,
  53488970636538442627700907204170983774579242352982238215812588184583778081699,
  48138801772926509010152395499995029907693944633935707871051045246154259942050,
  40938685753732063808775600771489814153753716235621618530910926800378377391243,
  32165318999701166771409329475896801968536775603888155966351034072266886053565,
  22155857075030465780744038078594946763596849574669653618181412708990733305785,
  11294957988114138405465664503887009539551908391141386109784796144528687499873]

/-- Both ends of a small interval about the exact coefficient round to the one of 40_transform R177. -/
theorem coeff_round : ∀ k : Fin 8, 1 ≤ k →
    rne64 false (coeffFloor[k] - 1) (pow2 256) = coeff64[k] ∧ rne64 false (coeffFloor[k] + 1) (pow2 256) = coeff64[k] ∧
      (Deg8.ofInt ((coeffFloor[k] - 1 : Nat) * 4)).le (Deg8.mul (Deg8.ofInt (pow2 256)) cos2[k]) = true ∧
      (Deg8.mul (Deg8.ofInt (pow2 256)) cos2[k]).le (Deg8.ofInt ((coeffFloor[k] + 1 : Nat) * 4)) = true := by
  decide +kernel

/-- The coefficients of 40_transform R177 are binary64 values nearest the exact ones. -/
theorem coeff_nearest (k : Fin 8) (hk : 1 ≤ k) (w : B64) (hw : isFinite w = true) :
    |((realValue coeff64[k] : Rat) : ℝ) - deg8Real cos2[k] / 4| ≤
      |((realValue w : Rat) : ℝ) - deg8Real cos2[k] / 4| := by
  obtain ⟨h1, h2, h3, h4⟩ := coeff_round k hk
  have hp : 0 < pow2 256 := by decide
  have hsz : coeffFloor[k] + 1 ≤ pow2 256 * 2 ^ 1023 := by
    have : coeffFloor[k] + 1 ≤ pow2 256 := by revert k; decide +kernel
    exact this.trans (Nat.le_mul_of_pos_right _ (by positivity))
  have n1 := (rne64_isRne64 false hp (show coeffFloor[k] - 1 ≤ pow2 256 * 2 ^ 1023 by omega)).near w hw
  have n2 := (rne64_isRne64 false hp hsz).near w hw
  rw [h1] at n1
  rw [h2] at n2
  rw [deg8_le_iff, deg8Real_mul, deg8Real_ofInt, deg8Real_ofInt] at h3 h4
  have hp' : (0 : ℝ) < (pow2 256 : Nat) := by exact_mod_cast hp
  have n1' :
      |((realValue coeff64[k] : Rat) : ℝ) - ((coeffFloor[k] - 1 : Nat) : ℝ) / (pow2 256 : Nat)| ≤
        |((realValue w : Rat) : ℝ) - ((coeffFloor[k] - 1 : Nat) : ℝ) / (pow2 256 : Nat)| := by
    simp only [Bool.false_eq_true, if_false, one_mul] at n1
    have := (Rat.cast_le (K := ℝ)).mpr n1
    push_cast at this ⊢
    exact this
  have n2' :
      |((realValue coeff64[k] : Rat) : ℝ) - ((coeffFloor[k] + 1 : Nat) : ℝ) / (pow2 256 : Nat)| ≤
        |((realValue w : Rat) : ℝ) - ((coeffFloor[k] + 1 : Nat) : ℝ) / (pow2 256 : Nat)| := by
    simp only [Bool.false_eq_true, if_false, one_mul] at n2
    have := (Rat.cast_le (K := ℝ)).mpr n2
    push_cast at this ⊢
    exact this
  refine nearest_between n1' n2' ?_ ?_
  · rw [div_le_div_iff₀ hp' (by norm_num)]
    push_cast at h3 ⊢
    linarith
  · rw [div_le_div_iff₀ (by norm_num) hp']
    push_cast at h4 ⊢
    linarith

theorem matIndex_range : ∀ (kind : XformKind) (k n : Fin 8), 1 ≤ (matIndex kind k n).natAbs % 8 := by
  intro kind; cases kind <;> decide

/-! ## The exact transforms -/

/-- The real value of an element, in units of 2^-1074. -/
theorem scaled_real (v : B64) : ((scaled v : Int) : ℝ) = (unit64 : ℝ) * ((realValue v : Rat) : ℝ) := by
  have hu : (unit64 : ℝ) ≠ 0 := by exact_mod_cast unit64_pos.ne'
  rw [realValue]
  push_cast
  field_simp

theorem fwdExact_val (kind : XformKind) (x : Block B64) (u v : Fin 8) :
    deg8Real (fwdExact kind x u v) = 16 * (unit64 : ℝ) *
      ∑ i, ∑ j, transformMatrix kind u i * transformMatrix kind v j * ((realValue (elem x i j) : Rat) : ℝ) := by
  simp only [fwdExact, deg8Real_sum8, deg8Real_mul, mExact_val, deg8Real_ofInt, scaled_real, Finset.mul_sum]
  exact Finset.sum_congr rfl fun i _ => Finset.sum_congr rfl fun j _ => by ring

theorem invExact_val (kind : XformKind) (f : Block B64) (i j : Fin 8) :
    deg8Real (invExact kind f i j) = 16 * (unit64 : ℝ) *
      ∑ u, ∑ v, transformMatrix kind u i * transformMatrix kind v j * ((realValue (elem f u v) : Rat) : ℝ) := by
  simp only [invExact, deg8Real_sum8, deg8Real_mul, mExact_val, deg8Real_ofInt, scaled_real, Finset.mul_sum]
  exact Finset.sum_congr rfl fun i _ => Finset.sum_congr rfl fun j _ => by ring

end Sys2Proof
end

