-- ==== Sys2Proof/Laws/Bounded.lean ====
section
/-! SUPPORT. BOUNDED(EPS) (40_transform R176): the model's bound is that of the rule, an element satisfies it whenever
some binary64 value does, and an admitted draw is what the element is. -/

namespace Sys2Proof

open Machine

/-! ## The bound -/

theorem absSum_real (x : Block B64) :
    ((absSum x : Int) : ℝ) = (unit64 : ℝ) * ∑ i, ∑ j, |((realValue (elem x i j) : Rat) : ℝ)| := by
  have key : ∀ v : B64, ((mag v : Int) : ℝ) = (unit64 : ℝ) * |((realValue v : Rat) : ℝ)| := fun v => by
    have hu : (0 : ℝ) < unit64 := by exact_mod_cast unit64_pos
    have h : |((realValue v : Rat) : ℝ)| = (mag v : ℝ) / unit64 := by
      rw [← Rat.cast_abs, abs_realValue]; push_cast; rfl
    rw [h]
    push_cast
    field_simp
  simp only [absSum, sum8, Int.cast_add, key, Fin.sum_univ_eight]
  ring

/-- The width of the bound, in the scale of `boundScale`. -/
theorem boundWidth_real (eps : Rat) (x : Block B64) :
    deg8Real (boundWidth eps (absSum x)) = (16 * unit64 * eps.den : ℝ) *
      ((eps : ℝ) * (1 + ∑ i, ∑ j, |((realValue (elem x i j) : Rat) : ℝ)|)) := by
  have hd : (eps.den : ℝ) * (eps : ℝ) = eps.num := by
    have := Rat.mul_den_eq_num eps
    have h2 : ((eps * eps.den : Rat) : ℝ) = ((eps.num : Rat) : ℝ) := by rw [this]
    push_cast at h2
    linarith
  rw [boundWidth, deg8Real_ofInt]
  push_cast
  rw [absSum_real, ← hd]
  ring

theorem bound_scale_pos (eps : Rat) : (0 : ℝ) < 16 * unit64 * eps.den := by
  have h1 : (0 : ℝ) < unit64 := by exact_mod_cast unit64_pos
  have h2 : (0 : ℝ) < eps.den := by exact_mod_cast eps.den_pos
  positivity

/-- `withinBound` is the bound of 40_transform R176. -/
theorem withinBound_iff {eps : Rat} {x : Block B64} {t : Deg8} {r : ℝ} (h : deg8Real t = 16 * (unit64 : ℝ) * r) (c : B64) :
    withinBound eps (absSum x) t c = true ↔ Admitted eps x r c := by
  have hp := bound_scale_pos eps
  have hs : deg8Real (boundScale eps (scaled c)) = (16 * unit64 * eps.den : ℝ) * ((realValue c : Rat) : ℝ) := by
    rw [boundScale, deg8Real_ofInt]; push_cast; rw [scaled_real]; ring
  have ht : deg8Real (boundCentre eps t) = (16 * unit64 * eps.den : ℝ) * r := by
    rw [boundCentre, deg8Real_mul, deg8Real_ofInt, h]; push_cast; ring
  rw [withinBound, Bool.and_eq_true, Bool.and_eq_true, deg8_le_iff, deg8_le_iff, deg8Real_add, deg8Real_sub,
    boundWidth_real, hs, ht, ← mul_add, ← mul_sub, mul_le_mul_iff_right₀ hp, mul_le_mul_iff_right₀ hp, Admitted, abs_le]
  constructor
  · rintro ⟨⟨h1, h2⟩, h3⟩; exact ⟨h1, by linarith, by linarith⟩
  · rintro ⟨h1, h2, h3⟩; exact ⟨⟨h1, by linarith⟩, by linarith⟩

/-! ## An admitted value -/

/-- What `greatest` finds. -/
theorem greatest_spec {p : Nat → Bool} (hp : ∀ a b, a ≤ b → p b = true → p a = true) (n acc : Nat)
    (h : p acc = true) :
    p (greatest p n acc) = true ∧ ∀ m, m < acc + 2 ^ n → p m = true → m ≤ greatest p n acc := by
  induction n generalizing acc with
  | zero => exact ⟨h, fun m hm _ => by rw [greatest]; omega⟩
  | succ n ih =>
    rw [greatest, pow2_eq]
    split
    · next h1 =>
      obtain ⟨h2, h3⟩ := ih _ h1
      exact ⟨h2, fun m hm => h3 m (by rw [pow_succ] at hm; omega)⟩
    · next h1 =>
      obtain ⟨h2, h3⟩ := ih _ h
      refine ⟨h2, fun m hm hm2 => h3 m ?_ hm2⟩
      by_contra hc
      exact h1 (hp _ m (by omega) hm2)

/-- Greater patterns stand for greater magnitudes. -/
theorem patternMag_mono : Monotone patternMag := by
  refine monotone_nat_of_le_succ fun p => ?_
  obtain ⟨e, m, rfl, hm, hl⟩ : ∃ e m, p = e * 2 ^ 52 + m ∧ m + 1 ≤ 2 ^ 53 ∧ (e = 0 ∨ 2 ^ 52 ≤ m) := by
    rcases Nat.lt_or_ge p (2 ^ 53) with h | h
    · exact ⟨0, p, by omega, by omega, .inl rfl⟩
    · exact ⟨p / 2 ^ 52 - 1, p - (p / 2 ^ 52 - 1) * 2 ^ 52, by omega, by omega, by omega⟩
  rw [Nat.add_assoc, patternMag_compose (by omega) hl, patternMag_compose hm (hl.imp_right (by omega))]
  exact Nat.mul_le_mul_right _ (Nat.le_succ m)

/-- The magnitude of a value is that of its pattern. -/
theorem mag_pattern (w : B64) : mag w = mag (withSign false (w.toNat % 2 ^ 63)) := by
  have hp : w.toNat % 2 ^ 63 < 2 ^ 63 := Nat.mod_lt _ (by positivity)
  have h1 := expField_withSign (neg := false) hp
  have h2 := fracField_withSign (neg := false) hp
  have e1 : expField w = w.toNat % 2 ^ 63 / 2 ^ 52 := by rw [expField, pow2_eq, pow2_eq]; omega
  have e2 : fracField w = w.toNat % 2 ^ 63 % 2 ^ 52 := by rw [fracField, pow2_eq]; omega
  rw [mag, mag, h1, h2, e1, e2]

theorem isFinite_pattern (w : B64) : isFinite w = true ↔ w.toNat % 2 ^ 63 < 2047 * 2 ^ 52 := by
  have e1 : expField w = w.toNat % 2 ^ 63 / 2 ^ 52 := by rw [expField, pow2_eq, pow2_eq]; omega
  rw [isFinite, bne_iff_ne, e1]
  omega

/-- `admittedValue` is admitted when some value is. -/
theorem admittedValue_admitted {eps : Rat} {x : Block B64} {t : Deg8} {r : ℝ} (h : deg8Real t = 16 * (unit64 : ℝ) * r)
    (hw : ∃ w, Admitted eps x r w) : Admitted eps x r (admittedValue eps (absSum x) t) := by
  obtain ⟨w, hwf, hwb⟩ := hw
  have hu : (0 : ℝ) < unit64 := by exact_mod_cast unit64_pos
  have hp := bound_scale_pos eps
  set B : ℝ := (eps : ℝ) * (1 + ∑ i, ∑ j, |((realValue (elem x i j) : Rat) : ℝ)|) with hB
  have hB0 : 0 ≤ B := (abs_nonneg _).trans hwb
  have hneg : t.sgn < 0 ↔ r < 0 := by
    rw [(isSign_deg8 t).neg_iff, h]
    constructor
    · intro h1; by_contra h2; exact absurd h1 (not_lt.mpr (by have := not_lt.mp h2; positivity))
    · intro h1; nlinarith
  have habs : deg8Real (boundCentre eps (Deg8.mul (Deg8.ofInt (if t.sgn < 0 then -1 else 1)) t)) =
      (16 * unit64 * eps.den : ℝ) * |r| := by
    rw [boundCentre, deg8Real_mul, deg8Real_mul, deg8Real_ofInt, deg8Real_ofInt, h]
    by_cases hr : r < 0
    · rw [if_pos (hneg.mpr hr), abs_of_neg hr]; push_cast; ring
    · rw [if_neg (mt hneg.mp hr), abs_of_nonneg (not_lt.mp hr)]; push_cast; ring
  -- the predicate that the search uses
  set p : Nat → Bool := fun pattern =>
    decide (pattern < 2047 * pow2 52) &&
      (boundScale eps (mag (withSign false pattern))).le
        ((boundCentre eps (Deg8.mul (Deg8.ofInt (if t.sgn < 0 then -1 else 1)) t)).add
          (boundWidth eps (absSum x))) with hpdef
  have hpi : ∀ n, p n = true ↔ n < 2047 * 2 ^ 52 ∧ (patternMag n : ℝ) / unit64 ≤ |r| + B := by
    intro n
    rw [hpdef]
    simp only [Bool.and_eq_true, decide_eq_true_eq, deg8_le_iff, deg8Real_add, boundWidth_real, habs, pow2_eq]
    refine and_congr_right fun hn => ?_
    have e : ((16 * (patternMag n : Int) * eps.den : Int) : ℝ) = (16 * unit64 * eps.den : ℝ) * ((patternMag n : ℝ) / unit64) := by
      push_cast; field_simp
    rw [mag_withSign (by omega), boundScale, deg8Real_ofInt, ← mul_add, e, mul_le_mul_iff_right₀ hp]
  have hmono : ∀ a b, a ≤ b → p b = true → p a = true := by
    intro a b hab hb
    rw [hpi] at hb ⊢
    refine ⟨by omega, le_trans ?_ hb.2⟩
    exact div_le_div_of_nonneg_right (by exact_mod_cast patternMag_mono hab) hu.le
  have hp0 : p 0 = true := by
    rw [hpi]
    have : patternMag 0 = 0 := by decide
    rw [this]
    exact ⟨by norm_num, by simp only [Nat.cast_zero, zero_div]; positivity⟩
  obtain ⟨hg, hmax⟩ := greatest_spec hmono 63 0 hp0
  set g := greatest p 63 0 with hgdef
  have hgi := (hpi g).mp hg
  have hg63 : g < 2 ^ 63 := by omega
  -- the known admitted value is not above it
  have hwabs : |((realValue w : Rat) : ℝ)| = (patternMag (w.toNat % 2 ^ 63) : ℝ) / unit64 := by
    rw [← Rat.cast_abs, abs_realValue, mag_pattern, mag_withSign (Nat.mod_lt _ (by positivity))]
    push_cast; rfl
  have hdist : |(|((realValue w : Rat) : ℝ)| - |r|)| ≤ B := (abs_abs_sub_abs_le _ _).trans hwb
  have hwp : p (w.toNat % 2 ^ 63) = true := by
    rw [hpi]
    exact ⟨(isFinite_pattern w).mp hwf, by rw [← hwabs]; linarith [(abs_le.mp hdist).2]⟩
  have hle := hmax _ (by have : w.toNat % 2 ^ 63 < 2 ^ 63 := Nat.mod_lt _ (by positivity); omega) hwp
  have hge : |r| - B ≤ (patternMag g : ℝ) / unit64 := by
    have h1 : (patternMag (w.toNat % 2 ^ 63) : ℝ) ≤ patternMag g := by exact_mod_cast patternMag_mono hle
    have h2 : (patternMag (w.toNat % 2 ^ 63) : ℝ) / unit64 ≤ (patternMag g : ℝ) / unit64 :=
      div_le_div_of_nonneg_right h1 hu.le
    rw [← hwabs] at h2
    linarith [(abs_le.mp hdist).1]
  have hval : admittedValue eps (absSum x) t = withSign (decide (t.sgn < 0)) g := rfl
  refine ⟨?_, ?_⟩
  · rw [hval, isFinite_pattern, toNat_withSign hg63]
    have := hgi.1
    split <;> omega
  · have hr : ((realValue (admittedValue eps (absSum x) t) : Rat) : ℝ) =
        (if r < 0 then -1 else 1) * ((patternMag g : ℝ) / unit64) := by
      rw [hval, realValue, scaled, signBit_withSign hg63, mag_withSign hg63]
      by_cases hr : r < 0
      · rw [if_pos (decide_eq_true (hneg.mpr hr)), if_pos hr]; push_cast; ring
      · rw [if_neg (by simpa using mt hneg.mp hr), if_neg hr]; push_cast; ring
    rw [hr, ← hB]
    by_cases hr' : r < 0
    · rw [if_pos hr']
      rw [abs_of_neg hr'] at hge hgi
      exact abs_le.mpr ⟨by linarith [hgi.2], by linarith⟩
    · rw [if_neg hr']
      rw [abs_of_nonneg (not_lt.mp hr')] at hge hgi
      exact abs_le.mpr ⟨by linarith, by linarith [hgi.2]⟩

/-! ## Elements -/

/-- A draw that is admitted is left alone. -/
theorem constrained_admitted {eps : Rat} {x : Block B64} {t : Deg8} {r : ℝ} (h : deg8Real t = 16 * (unit64 : ℝ) * r)
    {c : B64} (hc : Admitted eps x r c) : constrained eps (absSum x) t c = some c :=
  if_pos ((withinBound_iff h c).mpr hc)

/-- `constrained` answers whenever some value is admitted. -/
theorem constrained_some {eps : Rat} {x : Block B64} {t : Deg8} {r : ℝ} (h : deg8Real t = 16 * (unit64 : ℝ) * r)
    (hw : ∃ w, Admitted eps x r w) (c : B64) : ∃ v, constrained eps (absSum x) t c = some v ∧ Admitted eps x r v := by
  have : ∃ v, constrained eps (absSum x) t c = some v := by
    unfold constrained
    rw [if_pos ((withinBound_iff h _).mpr (admittedValue_admitted h hw))]
    split <;> exact ⟨_, rfl⟩
  obtain ⟨v, hv⟩ := this
  exact ⟨v, hv, (withinBound_iff h v).mp (constrained_within hv)⟩

/-- What one element is: the draw where it is admitted, and an admitted value wherever there is one. -/
theorem boundedElem_admitted {eps : Rat} {x : Block B64} {t : Deg8} {r : ℝ} (h : deg8Real t = 16 * (unit64 : ℝ) * r)
    (c : B64) :
    (Admitted eps x r c → boundedElem eps (absSum x) t c = c) ∧
      ((∃ w, Admitted eps x r w) → Admitted eps x r (boundedElem eps (absSum x) t c)) ∧
      isFinite (boundedElem eps (absSum x) t c) = true := by
  refine ⟨fun hc => ?_, fun hw => ?_, isFinite_boundedElem ..⟩
  · rw [boundedElem, constrained_admitted h hc]; rfl
  · obtain ⟨v, hv, ha⟩ := constrained_some h hw c
    rw [boundedElem, hv]
    exact ha

/-- A larger EPS admits more. -/
theorem Admitted.mono {eps eps' : Rat} {x : Block B64} {r : ℝ} {v : B64} (h : Admitted eps x r v) (he : eps ≤ eps') :
    Admitted eps' x r v := by
  refine ⟨h.1, h.2.trans ?_⟩
  have h1 : (eps : ℝ) ≤ (eps' : ℝ) := by exact_mod_cast he
  have h2 : (0 : ℝ) ≤ 1 + ∑ i, ∑ j, |((realValue (elem x i j) : Rat) : ℝ)| := by positivity
  exact mul_le_mul_of_nonneg_right h1 h2

/-- Where some value satisfies the bound for `pixelEps`, an element satisfies the bound for any EPS and `pixelEps` or more. -/
theorem boundedElem_within {eps bound : Rat} {x : Block B64} {t : Deg8} {r : ℝ}
    (h : deg8Real t = 16 * (unit64 : ℝ) * r) (he : eps ≤ bound) (hb : pixelEps ≤ bound)
    (hw : ∃ w, Admitted pixelEps x r w) (c : B64) : Admitted bound x r (boundedElem eps (absSum x) t c) := by
  obtain ⟨v, hv, ha⟩ := constrained_some h hw c
  rcases boundedElem_cases eps (absSum x) t c with ⟨u, hu, e⟩ | ⟨_, ⟨u, hu, e⟩ | ⟨hn, _⟩⟩
  · rw [e]; exact ((withinBound_iff h u).mp (constrained_within hu)).mono he
  · rw [e]; exact ((withinBound_iff h u).mp (constrained_within hu)).mono hb
  · rw [hv] at hn; cases hn

end Sys2Proof
end

