-- ==== Sys2Proof/Laws/Decode.lean ====
section
/-! SUPPORT. Command words as two halves: bits 15:0 carry the opcode, the registers and BSEL, bits 31:16 carry MBI, so a
row of the opcode map is chosen by the low half and by whether MBI is 0. -/

namespace Sys2Proof

/-- A command word is MBI above its low half. -/
theorem commandWord_halves (opc : BitVec 8) (rd rs : Fin 4) (b : BitVec 3) (m : BitVec 16) :
    commandWord opc rd rs b m =
      m ++ (0#1 ++ b ++ BitVec.ofNat 2 rs.val ++ BitVec.ofNat 2 rd.val ++ opc : BitVec 16) := by
  apply BitVec.eq_of_getLsbD_eq
  intro i hi
  simp only [commandWord, BitVec.getLsbD_append]
  split_ifs <;> first | rfl | omega

theorem append_halves (w : Word) : w.extractLsb' 16 16 ++ w.extractLsb' 0 16 = w := by
  apply BitVec.eq_of_getLsbD_eq
  intro i hi
  rw [BitVec.getLsbD_append, BitVec.getLsbD_extractLsb', BitVec.getLsbD_extractLsb']
  split_ifs with h
  · simp [h]
  · have : i - 16 < 16 := by omega
    rw [decide_eq_true this, Bool.true_and]; congr 1; omega

/-- A field of the low half. -/
theorem extract_low (m l : BitVec 16) {i n : Nat} (h : i + n ≤ 16) :
    BitVec.extractLsb' i n (m ++ l) = BitVec.extractLsb' i n l := by
  apply BitVec.eq_of_getLsbD_eq
  intro k hk
  rw [BitVec.getLsbD_extractLsb', BitVec.getLsbD_extractLsb', BitVec.getLsbD_append, if_pos (by omega)]

/-- The high half. -/
theorem extract_high (m l : BitVec 16) : BitVec.extractLsb' 16 16 (m ++ l) = m := by
  apply BitVec.eq_of_getLsbD_eq
  intro k hk
  rw [BitVec.getLsbD_extractLsb', BitVec.getLsbD_append, if_neg (by omega)]
  simp [hk]

theorem append_injective {a b c d : BitVec 16} (h : a ++ b = c ++ d) : a = c ∧ b = d := by
  have h1 := congrArg (fun w => BitVec.extractLsb' 16 16 w) h
  have h2 := congrArg (fun w => BitVec.extractLsb' 0 16 w) h
  simp only [extract_high, extract_low _ _ (i := 0) (n := 16) (by omega)] at h1 h2
  exact ⟨h1, by simpa using h2⟩

theorem fieldsOf_append (m l : BitVec 16) :
    fieldsOf (m ++ l) =
      { rd := (l.extractLsb' 8 2).toFin, rs := (l.extractLsb' 10 2).toFin, bsel := l.extractLsb' 12 3, mbi := m } := by
  unfold fieldsOf
  rw [extract_low _ _ (i := 8) (by omega), extract_low _ _ (i := 10) (by omega), extract_low _ _ (i := 12) (by omega),
    extract_high]

theorem opcOf_append (m l : BitVec 16) : opcOf (m ++ l) = l.extractLsb' 0 8 := extract_low _ _ (by omega)

/-- Whether a row matches, from the low half and whether MBI is 0. -/
def matchesHalf (zeroMbi : Bool) (l : BitVec 16) (r : OpRow) : Bool :=
  (r.mask.extractLsb' 16 16 == 0#16 || zeroMbi) && l &&& r.mask.extractLsb' 0 16 == r.pattern.extractLsb' 0 16

theorem matchesWord_append {r : OpRow} (hr : r ∈ opcodeMap) (m l : BitVec 16) :
    r.matchesWord (m ++ l) = matchesHalf (m == 0#16) l r := by
  have key : ∀ r ∈ opcodeMap, r.pattern.extractLsb' 16 16 = 0#16 ∧
      (r.mask.extractLsb' 16 16 = 0#16 ∨ r.mask.extractLsb' 16 16 = BitVec.allOnes 16) := by
    simp only [opcodeMap, List.forall_mem_cons]; decide
  obtain ⟨hp, hm⟩ := key r hr
  unfold OpRow.matchesWord matchesHalf
  conv_lhs => rw [← append_halves r.mask, ← append_halves r.pattern]
  rw [BitVec.and_append, Bool.eq_iff_iff, hp]
  simp only [beq_iff_eq, Bool.and_eq_true, Bool.or_eq_true]
  have hz : (m &&& r.mask.extractLsb' 16 16 = 0#16) ↔ (r.mask.extractLsb' 16 16 = 0#16 ∨ m = 0#16) := by
    rcases hm with h | h <;> rw [h]
    · simp
    · rw [BitVec.and_allOnes]; simp
  rw [← hz]
  exact ⟨fun h => append_injective h, fun ⟨h1, h2⟩ => by rw [h1, h2]⟩

/-- Which row a word selects. -/
theorem find_append (m l : BitVec 16) :
    opcodeMap.find? (fun r => r.matchesWord (m ++ l)) = opcodeMap.find? (matchesHalf (m == 0#16) l) :=
  List.find?_congr fun _ hr => matchesWord_append hr m l

/-- The decoder on a word whose low half and MBI select row `k`. -/
theorem decode_append {m l : BitVec 16} {k : Nat} {r : OpRow}
    (h : opcodeMap.findIdx? (matchesHalf (m == 0#16) l) = some k) (hr : opcodeMap[k]? = some r)
    (hb : r.usesBsel = false ∨ blockSelectorOk (l.extractLsb' 12 3) = true) :
    decode (m ++ l) = .ok (r.build (fieldsOf (m ++ l))) := by
  have hf : opcodeMap.find? (fun r => r.matchesWord (m ++ l)) = some r := by
    rw [find_append, List.find?_eq_bind_findIdx?_getElem?, h]
    simpa using hr
  unfold decode
  rw [hf]
  simp only
  rw [if_neg]
  rcases hb with hb | hb
  · simp [hb]
  · rw [fieldsOf_append]; simp [hb]

end Sys2Proof
end

