-- ==== Sys2Proof/Laws/PerInstr.lean ====
section
/-! SUPPORT. The encoded opcode of every command, said per constructor: the opcode byte of the opcode map (30_encoding
R142, R149), and bit 15 zero (R147). -/

namespace Sys2Proof.Laws.EncodedOpcode

open Sys2Proof

/-- OPC of the command's row of the opcode map (30_encoding R149). -/
def opcode : Instr → BitVec 8
  | .nop => 0x00
  | .fdct _ _ => 0x01
  | .idct _ _ => 0x02
  | .quant _ _ => 0x03
  | .deq _ _ => 0x04
  | .c2q _ _ => 0x05
  | .q2c _ _ => 0x06
  | .ldblk _ _ _ => 0x08
  | .stblk _ _ _ => 0x09
  | .ldq _ _ _ => 0x0A
  | .stq _ _ _ => 0x0B
  | .codeMb _ => 0x10
  | .reconMb _ => 0x11
  | .codePic => 0x12
  | .reconPic => 0x13

/-- The command's word has its row's OPC in bits 7:0, and bit 15 zero. -/
def Statement (i : Instr) : Prop := opcOf (encode i) = opcode i ∧ (encode i).getLsbD 15 = false

/-- Every word built from fields has the given OPC, and bit 15 zero. -/
theorem commandWord_opcode (opc : BitVec 8) (rd rs : Fin 4) (b : BitVec 3) (m : BitVec 16) :
    opcOf (commandWord opc rd rs b m) = opc ∧ (commandWord opc rd rs b m).getLsbD 15 = false := by
  constructor
  · apply BitVec.eq_of_getLsbD_eq
    intro i hi
    rw [opcOf, BitVec.getLsbD_extractLsb', decide_eq_true hi, Bool.true_and, Nat.zero_add, commandWord,
      BitVec.getLsbD_append, if_pos hi]
  · rw [commandWord]
    simp only [BitVec.getLsbD_append]
    rfl

theorem nop : Statement .nop := commandWord_opcode ..

theorem fdct (rd : Fin 4) (rs : Fin 4) : Statement (.fdct rd rs) := commandWord_opcode ..

theorem idct (rd : Fin 4) (rs : Fin 4) : Statement (.idct rd rs) := commandWord_opcode ..

theorem quant (rd : Fin 4) (rs : Fin 4) : Statement (.quant rd rs) := commandWord_opcode ..

theorem deq (rd : Fin 4) (rs : Fin 4) : Statement (.deq rd rs) := commandWord_opcode ..

theorem c2q (rd : Fin 4) (rs : Fin 4) : Statement (.c2q rd rs) := commandWord_opcode ..

theorem q2c (rd : Fin 4) (rs : Fin 4) : Statement (.q2c rd rs) := commandWord_opcode ..

theorem ldblk (rd : Fin 4) (b : BitVec 3) (m : BitVec 16) : Statement (.ldblk rd b m) := commandWord_opcode ..

theorem stblk (rs : Fin 4) (b : BitVec 3) (m : BitVec 16) : Statement (.stblk rs b m) := commandWord_opcode ..

theorem ldq (rd : Fin 4) (b : BitVec 3) (m : BitVec 16) : Statement (.ldq rd b m) := commandWord_opcode ..

theorem stq (rs : Fin 4) (b : BitVec 3) (m : BitVec 16) : Statement (.stq rs b m) := commandWord_opcode ..

theorem codeMb (m : BitVec 16) : Statement (.codeMb m) := commandWord_opcode ..

theorem reconMb (m : BitVec 16) : Statement (.reconMb m) := commandWord_opcode ..

theorem codePic : Statement .codePic := commandWord_opcode ..

theorem reconPic : Statement .reconPic := commandWord_opcode ..

end Sys2Proof.Laws.EncodedOpcode
end

