-- ==== Sys2Proof/Laws/Transforms.lean ====
section
/-! SUPPORT. The sizes of the REF64 transforms (40_transform R174, R175, R183): the matrix entries, a block of any size,
and the tighter bound for a block of samples. -/

namespace Sys2Proof

open Machine

/-- The coefficients c_k of 40_transform R177 in units of 2^-20, rounded up. -/
def coeffUnits : Vector Nat 8 := #v[524288, 514214, 484379, 435930, 370728, 291279, 200637, 102284]

/-- The magnitude of an entry of M64 in units of 2^-20, rounded up. -/
def entryUnits (kind : XformKind) (k n : Fin 8) : Nat :=
  coeffUnits[(matIndex kind k n).natAbs % 8]'(Nat.mod_lt _ (by decide))

theorem coeff64_all : ∀ i : Fin 8, isFinite coeff64[i] = true ∧ mag coeff64[i] ≤ coeffUnits[i] * 2 ^ 1054 := by
  decide +kernel

theorem coeff64_below (i : Nat) (h : i < 8) : Below coeff64[i] coeffUnits[i] 1054 := coeff64_all ⟨i, h⟩

theorem Below.negate {v : B64} {k e : Nat} (h : Below v k e) : Below (negate v) k e :=
  ⟨by rw [isFinite_negate]; exact h.1, by rw [mag_negate]; exact h.2⟩

theorem m64_below (kind : XformKind) (k n : Fin 8) : Below (m64 kind k n) (entryUnits kind k n) 1054 := by
  unfold m64 entryUnits
  split
  · exact (coeff64_below _ _).negate
  · exact coeff64_below _ _

theorem entryUnits_le (kind : XformKind) (k n : Fin 8) : entryUnits kind k n ≤ 524288 := by
  cases kind <;> revert k n <;> decide

/-- The magnitudes of a row of M64 sum to at most √8. -/
theorem row_units (kind : XformKind) (k : Fin 8) :
    entryUnits kind k 0 + entryUnits kind k 1 + entryUnits kind k 2 + entryUnits kind k 3 + entryUnits kind k 4 +
      entryUnits kind k 5 + entryUnits kind k 6 + entryUnits kind k 7 ≤ 2965824 := by
  cases kind <;> revert k <;> decide

/-- A dot product of a row of M64 with values below K·2^e units. -/
theorem dot8_row_below (kind : XformKind) (k : Fin 8) {x : Fin 8 → B64} {K e g : Nat} (hx : ∀ i, Below (x i) K e)
    (hK : K * 2965824 ≤ 2 ^ 53) (hg : e + 1054 = g + 1074) (he : g ≤ 1500) :
    Below (dot8 x fun i => m64 kind k i) (K * 2965824) g ∧ Below (dot8 (fun i => m64 kind k i) x) (K * 2965824) g := by
  have hr := Nat.mul_le_mul_left K (row_units kind k)
  simp only [Nat.mul_add] at hr
  have hm := m64_below kind k
  constructor
  · exact (Below.dot8 hx hm hg he (by omega)).mono hr
  · have h := Below.dot8 hm hx (by omega) he (g := g)
    simp only [Nat.mul_comm _ K] at h
    exact (h (by omega)).mono hr

/-- A dot product with any entries of M64: each of magnitude at most 1/2. -/
theorem dot8_entries_below {x y : Fin 8 → B64} {K e g : Nat} (hx : ∀ i, Below (x i) K e)
    (hy : ∀ i, Below (y i) 524288 1054) (hK : K * 4194304 ≤ 2 ^ 53) (hg : e + 1054 = g + 1074) (he : g ≤ 1500) :
    Below (dot8 x y) (K * 4194304) g ∧ Below (dot8 y x) (K * 4194304) g := by
  have e1 : K * 524288 + K * 524288 + K * 524288 + K * 524288 + K * 524288 + K * 524288 + K * 524288 + K * 524288 =
      K * 4194304 := by ring
  have e2 : 524288 * K + 524288 * K + 524288 * K + 524288 * K + 524288 * K + 524288 * K + 524288 * K + 524288 * K =
      K * 4194304 := by ring
  constructor
  · rw [← e1] at hK ⊢
    exact Below.dot8 (p := fun _ => K) (q := fun _ => 524288) hx hy hg he hK
  · rw [← e2] at hK ⊢
    exact Below.dot8 (p := fun _ => 524288) (q := fun _ => K) hy hx (by omega) he hK

theorem m64_below_half (kind : XformKind) (k n : Fin 8) : Below (m64 kind k n) 524288 1054 :=
  (m64_below kind k n).mono (entryUnits_le kind k n)

/-- The forward transform of samples (0..255): every element is finite and below 2040.01 in magnitude. -/
theorem fwdRef64_samples (kind : XformKind) {x : Block B64} (h : ∀ i j, Below (elem x i j) 255 1074) (u v : Fin 8) :
    Below (elem (fwdRef64 kind x) u v) 2243008559738880 1034 := by
  unfold fwdRef64 fwdCols fwdRows
  simp only [elem_mkBlock]
  exact (dot8_row_below kind u (K := 756285120) (e := 1054)
    (fun i => (dot8_row_below kind v (K := 255) (h i) (by norm_num) (by norm_num) (by norm_num)).1)
    (by norm_num) (by norm_num) (by norm_num)).2

end Sys2Proof
end

