-- ==== Sys2Proof/Laws/PixelRange.lean ====
section
/-! SUPPORT. Coded pixels stay in int32 (41_quantizer R203): the exact transforms do not lengthen a block (40_transform
R183), every accurate evaluation of the transform of samples is near it, and so no coding of pixels overflows. -/

namespace Sys2Proof

open Machine

/-! ## The norm -/

/-- Cauchy–Schwarz over a block. -/
theorem block_cauchy (a X : Fin 8 → Fin 8 → ℝ) :
    (∑ i, ∑ j, a i j * X i j) ^ 2 ≤ (∑ i, ∑ j, a i j ^ 2) * ∑ i, ∑ j, X i j ^ 2 := by
  have h := Finset.sum_mul_sq_le_sq_mul_sq Finset.univ (fun p : Fin 8 × Fin 8 => a p.1 p.2) (fun p => X p.1 p.2)
  simpa only [Fintype.sum_prod_type] using h

theorem sum_sq_product (f g : Fin 8 → ℝ) : ∑ i, ∑ j, (f i * g j) ^ 2 = (∑ i, f i * f i) * ∑ j, g j * g j := by
  rw [Finset.sum_mul_sum]
  exact Finset.sum_congr rfl fun i _ => Finset.sum_congr rfl fun j _ => by ring

/-- The transforms do not lengthen a block (40_transform R183). -/
theorem transform_norm (kind : XformKind) (X : Fin 8 → Fin 8 → ℝ) (k n : Fin 8) :
    (∑ i, ∑ j, transformMatrix kind k i * transformMatrix kind n j * X i j) ^ 2 ≤ ∑ i, ∑ j, X i j ^ 2 ∧
      (∑ i, ∑ j, transformMatrix kind i k * transformMatrix kind j n * X i j) ^ 2 ≤ ∑ i, ∑ j, X i j ^ 2 := by
  have h1 := block_cauchy (fun i j => transformMatrix kind k i * transformMatrix kind n j) X
  have h2 := block_cauchy (fun i j => transformMatrix kind i k * transformMatrix kind j n) X
  rw [sum_sq_product, (transformMatrix_orthonormal kind k k).1, (transformMatrix_orthonormal kind n n).1] at h1
  rw [sum_sq_product (fun i => transformMatrix kind i k) (fun j => transformMatrix kind j n),
    (transformMatrix_orthonormal kind k k).2, (transformMatrix_orthonormal kind n n).2] at h2
  simpa using And.intro h1 h2

/-- A block of numbers of magnitude at most B has norm at most 8·B. -/
theorem norm_le (X : Fin 8 → Fin 8 → ℝ) {B : ℝ} (h : ∀ i j, |X i j| ≤ B) : ∑ i, ∑ j, X i j ^ 2 ≤ (8 * B) ^ 2 := by
  calc ∑ i, ∑ j, X i j ^ 2 ≤ ∑ _i : Fin 8, ∑ _j : Fin 8, B ^ 2 :=
        Finset.sum_le_sum fun i _ => Finset.sum_le_sum fun j _ => sq_le_sq' (by linarith [(abs_le.mp (h i j)).1])
          (abs_le.mp (h i j)).2
    _ = (8 * B) ^ 2 := by simp; ring

/-- Every number of magnitude at most 2^31 has a binary64 value within 2^-20. -/
theorem near_value {r : ℝ} (h : |r| ≤ 2 ^ 31) :
    ∃ w, isFinite w = true ∧ |((realValue w : Rat) : ℝ) - r| ≤ 1 / 2 ^ 20 := by
  have hfl := Nat.floor_le (show 0 ≤ |r| * 2 ^ 20 by positivity)
  have hlt := Nat.lt_floor_add_one (|r| * 2 ^ 20)
  set k := ⌊|r| * 2 ^ 20⌋₊
  have hk : k ≤ 2 ^ 53 := by
    have : (k : ℝ) ≤ 2 ^ 53 := by nlinarith
    exact_mod_cast this
  obtain ⟨w, h1, hw⟩ := representable_real (decide (r < 0)) (k := k) 20 hk (by norm_num)
  refine ⟨w, h1, ?_⟩
  rw [hw, abs_le]
  by_cases hr : r < 0
  · rw [abs_of_neg hr] at hfl hlt
    simp only [hr, decide_true, if_true]
    push_cast
    constructor <;> (field_simp; linarith)
  · rw [abs_of_nonneg (not_lt.mp hr)] at hfl hlt
    simp only [hr, decide_false, Bool.false_eq_true, if_false]
    push_cast
    constructor <;> (field_simp; linarith)

/-! ## Blocks of samples -/

/-- The largest magnitude of a coded sample (41_quantizer R203). -/
def coded : Nat := 2139111361

/-- A block of finite values of magnitude at most 255. -/
def Samples (x : Block B64) : Prop := ∀ i j, isFinite (elem x i j) = true ∧ |realValue (elem x i j)| ≤ 255

theorem Samples.abs_real {x : Block B64} (h : Samples x) (i j : Fin 8) :
    |((realValue (elem x i j) : Rat) : ℝ)| ≤ 255 := by
  have := (h i j).2
  have h2 : ((|realValue (elem x i j)| : Rat) : ℝ) ≤ ((255 : Rat) : ℝ) := by exact_mod_cast this
  push_cast at h2
  exact h2

theorem Samples.below {x : Block B64} (h : Samples x) (i j : Fin 8) : Below (elem x i j) 255 1074 := by
  refine ⟨(h i j).1, ?_⟩
  have := (h i j).2
  rw [abs_realValue, div_le_iff₀ unit64_rat_pos] at this
  rw [← unit64_eq]
  exact_mod_cast this

/-- The exact transform of samples lies in [-2040, 2040]. -/
theorem samples_transform (kind : XformKind) {x : Block B64} (h : Samples x) (u v : Fin 8) :
    |∑ i, ∑ j, transformMatrix kind u i * transformMatrix kind v j * ((realValue (elem x i j) : Rat) : ℝ)| ≤ 2040 := by
  have h1 := (transform_norm kind (fun i j => ((realValue (elem x i j) : Rat) : ℝ)) u v).1
  have h2 := norm_le (fun i j => ((realValue (elem x i j) : Rat) : ℝ)) h.abs_real
  exact abs_le_of_sq_le_sq' (h1.trans (h2.trans_eq (by norm_num))) (by norm_num) |> abs_le.mpr

/-- The transform of samples under BOUNDED(EPS), for any EPS up to `bound`. -/
theorem fwd_samples_within {c : Params} {eps bound : Rat} (hc : c.impl = .bounded eps) (he : eps ≤ bound)
    (hb : pixelEps ≤ bound) (draws site : Nat) {x : Block B64} (h : Samples x) (u v : Fin 8) :
    isFinite (elem (fwd c draws site x) u v) = true ∧
      |realValue (elem (fwd c draws site x) u v)| ≤ 2040 + bound * 16321 := by
  have hT := samples_transform c.kind h u v
  obtain ⟨w, hw, hd⟩ := near_value (hT.trans (by norm_num))
  have hS : (0 : ℝ) ≤ ∑ i, ∑ j, |((realValue (elem x i j) : Rat) : ℝ)| := by positivity
  have hS2 : ∑ i, ∑ j, |((realValue (elem x i j) : Rat) : ℝ)| ≤ 16320 := by
    calc _ ≤ ∑ _i : Fin 8, ∑ _j : Fin 8, (255 : ℝ) :=
          Finset.sum_le_sum fun i _ => Finset.sum_le_sum fun j _ => h.abs_real i j
      _ = 16320 := by simp; norm_num
  have hp : ((pixelEps : Rat) : ℝ) = 1 / 2 ^ 20 := by rw [pixelEps]; push_cast; norm_num
  have hb0 : (0 : ℝ) ≤ (bound : ℝ) := by
    have : (pixelEps : ℝ) ≤ bound := by exact_mod_cast hb
    rw [hp] at this
    exact le_trans (by norm_num) this
  have hA : Admitted bound x _ _ := boundedElem_within (fwdExact_val c.kind x u v) he hb
    ⟨w, hw, hd.trans (by rw [hp]; exact le_mul_of_one_le_right (by norm_num) (by linarith))⟩
    (Config.drawXform draws site (8 * u.val + v.val))
  have e : elem (fwd c draws site x) u v = boundedElem eps (absSum x) (fwdExact c.kind x u v)
      (Config.drawXform draws site (8 * u.val + v.val)) := by
    rw [fwd, hc]
    dsimp only
    rw [boundedBlock, elem_mkBlock, if_pos (allBlock_iff.mpr fun i j => (h i j).1)]
  rw [e]
  refine ⟨hA.1, ?_⟩
  have h1 := abs_sub_abs_le_abs_sub ((realValue (boundedElem eps (absSum x) (fwdExact c.kind x u v)
    (Config.drawXform draws site (8 * u.val + v.val))) : Rat) : ℝ)
    (∑ i, ∑ j, transformMatrix c.kind u i * transformMatrix c.kind v j * ((realValue (elem x i j) : Rat) : ℝ))
  have h2 := mul_le_mul_of_nonneg_left (add_le_add_right hS2 1) hb0
  have key := (sub_le_iff_le_add'.mp (h1.trans hA.2)).trans (add_le_add hT h2)
  have : ((|realValue (boundedElem eps (absSum x) (fwdExact c.kind x u v)
      (Config.drawXform draws site (8 * u.val + v.val)))| : Rat) : ℝ) ≤ ((2040 + bound * 16321 : Rat) : ℝ) := by
    push_cast
    refine key.trans_eq ?_
    norm_num
  exact_mod_cast this

/-- The forward transform of samples, by every accurate evaluation (41_quantizer R203). -/
theorem fwd_samples {c : Params} (hc : accurate c.impl) (draws site : Nat) {x : Block B64} (h : Samples x) (u v : Fin 8) :
    isFinite (elem (fwd c draws site x) u v) = true ∧
      2 ^ 20 * |realValue (elem (fwd c draws site x) u v)| ≤ (coded : Rat) := by
  cases hi : c.impl with
  | ref64 =>
    have hb := fwdRef64_samples c.kind h.below u v
    have ha := hb.abs_le
    rw [fwd, hi]
    refine ⟨hb.1, ?_⟩
    rw [unit64_eq, show 1074 = 1034 + 40 from rfl, pow_add] at ha
    push_cast at ha
    rw [mul_comm (2 ^ 1034 : Rat), mul_div_mul_right _ _ (by positivity)] at ha
    rw [coded]
    norm_num at ha ⊢
    linarith
  | bounded eps =>
    rw [hi] at hc
    have hb := fwd_samples_within hi (hc.trans (by rw [pixelEps]; norm_num)) le_rfl draws site h u v
    refine ⟨hb.1, ?_⟩
    have := hb.2
    rw [pixelEps] at this
    rw [coded]
    push_cast
    linarith

/-- QUANT1 of a value whose quotient is at most N. -/
theorem quant1_le {c : B64} {t p N : Nat} (hf : isFinite c = true) (ht : 0 < t * p)
    (h : 2 ^ 20 * |realValue c| ≤ (N : Rat) * ((t * p : Nat) : Rat)) : (quant1 c t p).natAbs ≤ N := by
  have hn : 16 * mag c * pow2 16 ≤ N * (t * p * unit64) := by
    rw [abs_realValue, mul_div_assoc', div_le_iff₀ unit64_rat_pos] at h
    have h : 2 ^ 20 * mag c ≤ N * (t * p) * unit64 := by exact_mod_cast h
    rw [pow2_eq, ← Nat.mul_assoc]
    omega
  have hr : roundHalfEven (16 * mag c * pow2 16) (t * p * unit64) ≤ N := by
    refine (roundHalfEven_mono (Nat.mul_pos ht unit64_pos) one_pos (n' := N) ?_).trans_eq ?_
    · rw [Nat.mul_one]; exact hn
    · simp [roundHalfEven, Nat.mod_one]
  rw [quant1, if_pos hf, roundHalfEvenSigned]
  split <;> omega

/-- QUANT1 of a coded sample, whatever the step. -/
theorem quant1_coded {c : B64} (hf : isFinite c = true) (h : 2 ^ 20 * |realValue c| ≤ (coded : Rat)) (t p : Nat) :
    (quant1 c t p).natAbs ≤ coded := by
  rcases Nat.eq_zero_or_pos (t * p) with h0 | h0
  · have hr : roundHalfEven (16 * mag c * pow2 16) (t * p * unit64) ≤ coded := by
      have := (roundHalfEven_bounds (16 * mag c * pow2 16) 0).2
      rw [Nat.div_zero] at this
      rw [h0, Nat.zero_mul]
      exact this.trans (by decide)
    rw [quant1, if_pos hf, roundHalfEvenSigned]
    split <;> omega
  · have h1 : (1 : Rat) ≤ ((t * p : Nat) : Rat) := by exact_mod_cast h0
    exact quant1_le hf h0 (h.trans (le_mul_of_one_le_right (Nat.cast_nonneg _) h1))

/-- Every element of QUANTIZE(FWD(X)) for samples X (41_quantizer R203). -/
theorem c2qBlock_samples {c : Params} (hc : accurate c.impl) (p draws site : Nat) {x : Block B64} (h : Samples x)
    (i j : Fin 8) : (elem (c2qBlock c p draws site x) i j).natAbs ≤ coded := by
  rw [c2qBlock, quantize, elem_mkBlock]
  exact quant1_coded (fwd_samples hc draws site h i j).1 (fwd_samples hc draws site h i j).2 _ _

/-- No block of coded samples overflows (60_exceptions R308). -/
theorem c2qBlock_fits {c : Params} (hc : accurate c.impl) (p draws site : Nat) {x : Block B64} (h : Samples x) :
    blockFits (c2qBlock c p draws site x) = true := by
  rw [blockFits, allBlock_iff]
  intro i j
  have := c2qBlock_samples hc p draws site h i j
  rw [coded] at this
  rw [fitsInt32]
  simp only [Bool.and_eq_true, decide_eq_true_eq]
  omega

/-! ## Pixels -/

theorem byte_le (b : Byte) : b.toNat ≤ 255 := by have := b.isLt; omega

theorem mean4_le (a b c d : Byte) : mean4 a b c d ≤ 255 := by
  have := byte_le a; have := byte_le b; have := byte_le c; have := byte_le d
  unfold mean4; omega

/-- The samples of a block read from IN are 0..255 (42_region R221, R222). -/
theorem blockIn_below (s : State) (m b : Nat) (i j : Fin 8) : Below (elem (s.blockIn m b) i j) 255 1074 := by
  rw [State.blockIn, elem_mkBlock]
  refine b64OfNat_below ?_ (by norm_num)
  split
  · exact byte_le _
  · exact mean4_le ..

theorem blockIn_samples (s : State) (m b : Nat) : Samples (s.blockIn m b) := fun i j => by
  have h := blockIn_below s m b i j
  refine ⟨h.1, h.abs_le.trans_eq ?_⟩
  rw [← unit64_eq]
  push_cast
  exact mul_div_cancel_right₀ _ unit64_rat_pos.ne'

/-- No coded block of a picture overflows (43_macroblock R250; 60_exceptions R308). -/
theorem codeBlock_fits {s : State} (hi : accurate s.cfg.impl) (m b : Nat) : blockFits (s.codeBlock m b) = true :=
  c2qBlock_fits hi _ _ _ (blockIn_samples s m b)

theorem codeMacroblock_fits {s : State} (hi : accurate s.cfg.impl) (m : Nat) :
    (s.codeMacroblock m).all blockFits = true := by
  rw [List.all_eq_true]
  intro q hq
  obtain ⟨b, _, rfl⟩ := List.mem_map.mp hq
  exact codeBlock_fits hi m b

theorem codePicture_fits {s : State} (hi : accurate s.cfg.impl) : s.codePicture.all blockFits = true := by
  rw [List.all_eq_true]
  intro q hq
  obtain ⟨m, _, hq⟩ := List.mem_flatMap.mp hq
  exact List.all_eq_true.mp (codeMacroblock_fits hi m) q hq

end Sys2Proof
end

