-- ==== Sys2Proof/Laws/Step.lean ====
section
/-! SUPPORT. The step by the kind of the next move, and runs of steps. -/

namespace Sys2Proof

open Machine

variable {s t : State} {ms : List Move}

/-- A run whose first step answers a next state. -/
theorem core_run_succ {k : Nat} (h : step s = .next t) : core.run (k + 1) s = core.run k t := by
  have key : ∀ (M : Host.Core) (x y : M.State), M.step x = .next y → M.run (k + 1) x = M.run k y := by
    intro M x y e
    simp only [Host.Core.run, e]
  exact key core s t h

theorem step_read {a : Offset} {n : Width} (h : s.moves = .read a n :: ms) :
    step s = .next ((s.withMoves ms).hostRead a n) := by
  rw [step, nextMove, h]; rfl

theorem step_write {a : Offset} {n : Width} {v : BitVec 64} (h : s.moves = .write a n v :: ms) :
    step s = .next ((s.withMoves ms).hostWrite a n v) := by
  rw [step, nextMove, h]; rfl

theorem step_engine (h : s.moves = .engine :: ms) : step s = engineTurn (s.withMoves ms) := by
  rw [step, nextMove, h]; rfl

theorem step_reset (h : s.moves = .reset :: ms) : step s = resetMove (s.withMoves ms) := by
  rw [step, nextMove, h]; rfl

theorem step_nil (h : s.moves = []) : step s = engineTurn s := by
  rw [step, nextMove, h]

theorem engineTurn_busy (h : s.phase = .busy) : engineTurn s = engineStep s := by
  simp [engineTurn, State.busy, h]

theorem engineTurn_idle (h : s.phase = .idle) : engineTurn s = .next s := by
  have : s.busy = false := by rw [State.busy, h]; rfl
  simp [engineTurn, this]

theorem engineStep_ok {i : Instr} (h : decode s.lc = .ok i) : engineStep s = exec i s := by
  rw [engineStep, h]

theorem engineStep_error {e : DecodeError} (h : decode s.lc = .error e) :
    engineStep s = .next (s.completeErr .illegalCommand) := by
  rw [engineStep, h]

end Sys2Proof
end

