-- ==== Sys2Proof/Tests/Slice0.lean ====
section
/-! SUPPORT. Tests with expected results from outside the model: the encoding examples of 30_encoding, the vectors of
95_test_vectors (named V-…), hand calculation; and for each statement with hypotheses a state that meets them. -/

namespace Sys2Proof.Tests

open Sys2Proof Machine

set_option Elab.async false

/-! ## Small states -/

/-- A block with value `v` at [i][j] and `z` elsewhere. -/
def single {α : Type} (z : α) (i j : Fin 8) (v : α) : Block α := mkBlock fun a b => if a = i ∧ b = j then v else z

/-- A flat block. -/
def flat {α : Type} (v : α) : Block α := Vector.replicate 64 v

/-- A state with the given dimensions and P, every RB and QB register holding the given block, and the given memory. -/
def given (w h p : Word) (x : Block B64) (q : Block Word) (mem : Memory) : State :=
  { State.reset with
    width := w, height := h, p := p, mem := mem
    rb := Vector.replicate 4 (BlockReg.full x), qb := Vector.replicate 4 (BlockReg.full q) }

/-- A 16×16 picture, p = 1 and registers of zeros. -/
def ready : State := given 16 16 0x10000 (flat 0) (flat 0) []

/-- The state in which word `w` has been accepted. -/
def running (w : Word) (s : State) : State := { s with cmd := w, lc := w, phase := .busy }

/-- A question about the next state, false when the step stops. -/
def after (o : Host.Outcome State Fault Refusal) (p : State → Bool) : Bool :=
  match o with
  | .next t => p t
  | .fault _ => false
  | .refused _ => false

/-! ## Well-formedness (30_encoding R145) -/

theorem test_illformed_ldblk : ¬ (Instr.ldblk 0 6 0).WellFormed := by decide
theorem test_illformed_stblk : ¬ (Instr.stblk 0 7 0).WellFormed := by decide
theorem test_illformed_ldq : ¬ (Instr.ldq 3 6 4095).WellFormed := by decide
theorem test_illformed_stq : ¬ (Instr.stq 0 7 0).WellFormed := by decide
theorem test_wellformed_cr : (Instr.ldq 0 5 65535).WellFormed := by decide

/-! ## Decoding: words of 30_encoding R158 and 95_test_vectors, and words written out from R141 and R149 -/

theorem test_decode_nop : decode 0x00000000 = .ok .nop := by decide
theorem test_decode_fdct : decode 0x00000101 = .ok (.fdct 1 0) := by decide
/-- V-T3. -/
theorem test_decode_idct : decode 0x00000602 = .ok (.idct 2 1) := by decide
/-- V-Q5. -/
theorem test_decode_quant : decode 0x00000103 = .ok (.quant 1 0) := by decide
/-- V-Q2. -/
theorem test_decode_deq : decode 0x00000104 = .ok (.deq 1 0) := by decide
theorem test_decode_c2q : decode 0x00000E05 = .ok (.c2q 2 3) := by decide
theorem test_decode_q2c : decode 0x00000B06 = .ok (.q2c 3 2) := by decide
/-- V-R1: block TR is BSEL 1. -/
theorem test_decode_ldblk : decode 0x00031108 = .ok (.ldblk 1 1 3) := by decide
/-- V-R1: block BL is BSEL 2, RS = 1 in bits 11:10. -/
theorem test_decode_stblk : decode 0x00012409 = .ok (.stblk 1 2 1) := by decide
/-- V-R6. -/
theorem test_decode_ldq : decode 0x0FFF500A = .ok (.ldq 0 5 4095) := by decide
theorem test_decode_stq : decode 0x0005340B = .ok (.stq 1 3 5) := by decide
theorem test_decode_codeMb : decode 0x00110010 = .ok (.codeMb 17) := by decide
/-- MBI is bits 31:16, here all ones. -/
theorem test_decode_reconMb : decode 0xFFFF0011 = .ok (.reconMb 65535) := by decide
theorem test_decode_codePic : decode 0x00000012 = .ok .codePic := by decide
theorem test_decode_reconPic : decode 0x00000013 = .ok .reconPic := by decide

/-- V-T8: BSEL and bit 15 are reserved in FDCT. -/
theorem test_decode_fdct_reserved :
    decode 0x00001001 = .error (.reservedBits "FDCT") ∧ decode 0x00008001 = .error (.reservedBits "FDCT") := by decide
/-- Reserved bits inside each format: RS in LDBLK, RD in STBLK, BSEL in CODE_MB, MBI in RECON_PIC. -/
theorem test_decode_reserved_fields :
    decode 0x00000408 = .error (.reservedBits "LDBLK") ∧ decode 0x00000109 = .error (.reservedBits "STBLK") ∧
      decode 0x00001010 = .error (.reservedBits "CODE_MB") ∧ decode 0x00010013 = .error (.reservedBits "RECON_PIC") := by
  decide
/-- The edges of the reserved opcodes (30_encoding R151). -/
theorem test_decode_reserved_opcodes :
    decode 0x00000007 = .error (.reservedOpcode 0x07) ∧ decode 0x0000000C = .error (.reservedOpcode 0x0C) ∧
      decode 0x0000000F = .error (.reservedOpcode 0x0F) ∧ decode 0x00000014 = .error (.reservedOpcode 0x14) ∧
      decode 0x000000FF = .error (.reservedOpcode 0xFF) := by decide

/-! ## The commands -/

/-- V-E11: STATUS after NOP from reset. -/
theorem test_nop : after (exec .nop State.reset) (fun t => t.status == 0x00000002) = true := by decide +kernel

/-- V-T5: F[1][1] and F[7][7] of the unit impulse. -/
theorem test_fdct_impulse :
    after (exec (.fdct 1 0) (given 0 0 0 (single 0 0 0 0x3FF0000000000000) (flat 0) [])) (fun t =>
      elem t.rb[1].vals 1 1 == 0x3FCEC835E79946A3 && elem t.rb[1].vals 7 7 == 0x3F837CA1866B95CF) = true := by
  decide +kernel

/-- c4 ⊗ c4 in every element for the unit impulse, as V-T5 has it for WHT: column 0 of M64 is c4 in row 0, and here
[0][3] of the inverse is c4 ⊗ c4 too, since row 0 of M64 is all c4. -/
theorem test_idct_impulse :
    after (exec (.idct 0 0) (given 0 0 0 (single 0 0 0 0x3FF0000000000000) (flat 0) [])) (fun t =>
      elem t.rb[0].vals 0 3 == 0x3FC0000000000001) = true := by
  decide +kernel

/-- 40_transform R181, R176 with EPS = 0: in the exact WHT of the block of 128.0 the element [0][1] is 0, which admits +0.0
and not 2^-300; and the element [0][0] of the exact DCT is 1024, the one value that EPS = 0 admits. -/
theorem test_bounded_exact :
    let x := flat 0x4060000000000000
    let ac := fwdExact .wht x 0 1
    let dc := fwdExact .dct2 x 0 0
    withinBound 0 (absSum x) ac 0 = true ∧ withinBound 0 (absSum x) ac 0x2D30000000000000 = false ∧
      withinBound 0 (absSum x) dc 0x4090000000000000 = true ∧ withinBound 0 (absSum x) dc 0x4090000000000001 = false ∧
      admittedValue 0 (absSum x) dc = 0x4090000000000000 := by decide +kernel

/-- 41_quantizer R203 with EPS = 0: one sample of 255.0 has the exact DCT element [1][1] = 255·cos²(pi/16)/4, which is
irrational, so that EPS = 0 admits no value; and 2^-20 admits one. -/
theorem test_bounded_pixels :
    let x := single 0 0 0 0x406FE00000000000
    let t := fwdExact .dct2 x 1 1
    constrained 0 (absSum x) t 0 = none ∧ (constrained pixelEps (absSum x) t 0).isSome = true := by decide +kernel

/-- V-Q1a–V-Q1j: the scalar quantizer, ties to even and both signs. -/
theorem test_quant1 :
    [quant1 0x4059000000000000 16 0x10000, quant1 0x4004000000000000 16 0x10000, quant1 0x3FF8000000000000 16 0x10000,
      quant1 0xBFE0000000000000 16 0x10000, quant1 0xBFF8000000000000 16 0x10000, quant1 0xC004000000000000 16 0x10000,
      quant1 0x4090000000000000 16 0x8000, quant1 0x4090000000000000 16 0x20000, quant1 0x408F400000000000 16 0x30000,
      quant1 0x401C000000000000 99 0x1] = [100, 2, 2, 0, -2, -2, 2048, 512, 333, 74142] := by decide +kernel

/-- V-Q5: COEF_OVERFLOW of 70368744112128.0 at p = 1, with QB1 as it was. -/
theorem test_quant_overflow :
    after (exec (.quant 1 0) (given 0 0 0x10000 (single 0 0 0 0x42CFFFFFFF800000) (flat 0) [])) (fun t =>
      t.status == 0x00000606 && t.qb == (given 0 0 0x10000 (flat 0) (flat 0) []).qb) = true := by decide +kernel

/-- V-Q2a–V-Q2g: the scalar dequantizer. -/
theorem test_deq1 :
    [deq1 (-5) 16 0x8000, deq1 1 99 0x8000, deq1 1 11 0x8000, deq1 2147483647 16 0x7FFFFFFF, deq1 3 16 0x1,
      deq1 1 16 0x10000] = [0xC004000000000000, 0x4008C00000000000, 0x3FD6000000000000, 0x42CFFFFFFF800000,
      0x3F08000000000000, 0x3FF0000000000000] := by decide +kernel

/-- V-Q2: RB1[0][0] = −2.5 from QB0[0][0] = −5 at p = 0.5, and +0.0 where QB0 is 0. -/
theorem test_deq :
    after (exec (.deq 1 0) (given 0 0 0x8000 (flat 0) (single 0 0 0 (BitVec.ofInt 32 (-5))) [])) (fun t =>
      elem t.rb[1].vals 0 0 == 0xC004000000000000 && elem t.rb[1].vals 7 7 == 0) = true := by decide +kernel

/-- V-C1: the DC coefficient of a flat block of 128.0. -/
theorem test_c2q_dc :
    elem (c2qBlock defaultParams 0x10000 0 0 (flat 0x4060000000000000)) 0 0 = 1024 := by decide +kernel

/-- V-Q4: C2Q with P = 0x80000000. -/
theorem test_c2q_parameter :
    after (exec (.c2q 0 0) (given 0 0 0x80000000 (flat 0) (flat 0) [])) (fun t => t.status == 0x00000206) = true := by
  decide +kernel

/-- V-C2: RB1[0][0] from the single DC coefficient 1024. -/
theorem test_q2c_dc :
    after (exec (.q2c 1 0) (given 0 0 0x10000 (flat 0) (single 0 0 0 1024) [])) (fun t =>
      elem t.rb[1].vals 0 0 == 0x4060000000000001) = true := by decide +kernel

/-- V-C3 and V-C4: clamped to 255.0 and to +0.0. -/
theorem test_q2c_clamp :
    (after (exec (.q2c 1 0) (given 0 0 0x10000 (flat 0) (single 0 0 0 4000) [])) (fun t =>
      elem t.rb[1].vals 3 5 == 0x406FE00000000000) &&
    after (exec (.q2c 1 0) (given 0 0 0x10000 (flat 0) (single 0 0 0 (BitVec.ofInt 32 (-100))) [])) (fun t =>
      elem t.rb[1].vals 0 0 == 0)) = true := by decide +kernel

/-- V-R2: the mean of 0, 0, 1, 1 is 1 (half rounds up). -/
theorem test_ldblk_chroma :
    after (exec (.ldblk 0 4 0) (given 16 16 0 (flat 0) (flat 0)
      [(0x200000, 0), (0x200001, 0), (0x200400, 1), (0x200401, 1)])) (fun t =>
      elem t.rb[0].vals 0 0 == 0x3FF0000000000000) = true := by decide +kernel

/-- V-R1: `ldblk rb1, 3, tr` of a 32×32 picture reads IN Y (24 + j, 16 + i), here (25, 18) = 7. -/
theorem test_ldblk_luma :
    after (exec (.ldblk 1 1 3) (given 32 32 0 (flat 0) (flat 0) [(0x100000 + 18 * 1024 + 25, 7)])) (fun t =>
      elem t.rb[1].vals 2 1 == 0x401C000000000000) = true := by decide +kernel

/-- V-R4: OUT Cb (15, 15) and (2, 0) of the block with 63.0 at [7][7] and 8.0 at [0][1], and no luma byte. -/
theorem test_stblk_chroma :
    after (exec (.stblk 0 4 0) (given 16 16 0 (mkBlock fun i j => if i = 7 ∧ j = 7 then 0x404F800000000000
        else if i = 0 ∧ j = 1 then 0x4020000000000000 else 0) (flat 0) [])) (fun t =>
      t.mem.lookup (0x500000 + 15 * 1024 + 15) == some 63 && t.mem.lookup (0x500000 + 2) == some 8 &&
        t.mem.lookup 0x400000 == none) = true := by decide +kernel

/-- V-R7: `stblk rb0, 0, tl` with WIDTH = 17. -/
theorem test_stblk_dimensions :
    after (exec (.stblk 0 0 0) (given 17 16 0 (flat 0) (flat 0) [])) (fun t => t.status == 0x00000106) = true := by
  decide +kernel

/-- V-R6: element [7][7] of `ldq qb0, 4095, cr` is at 0xDFFFFC, little-endian, with WIDTH = 0 and P = 0. -/
theorem test_ldq_last :
    after (exec (.ldq 0 5 4095) (given 0 0 0 (flat 0) (flat 0)
      [(0xDFFFFC, 0x78), (0xDFFFFD, 0x56), (0xDFFFFE, 0x34), (0xDFFFFF, 0x12)])) (fun t =>
      elem t.qb[0].vals 7 7 == 0x12345678) = true := by decide +kernel

/-- V-R6: `stq qb1, 5, br` writes window bytes 0x802100–0x8021FF and no more. -/
theorem test_stq_place :
    after (exec (.stq 1 3 5) (given 0 0 0 (flat 0) (flat 0x12345678) [])) (fun t =>
      t.mem.length == 256 && t.mem.lookup 0x802100 == some 0x78 && t.mem.lookup 0x8021FF == some 0x12) = true := by
  decide +kernel

/-- V-R6: `stq qb0, 4096, tl` raises INDEX_RANGE and leaves COEF. -/
theorem test_stq_index :
    after (exec (.stq 0 0 4096) (given 0 0 0 (flat 0) (flat 0) [])) (fun t =>
      t.status == 0x00000506 && t.mem == []) = true := by decide +kernel

/-- V-M1: a flat tile of 128 has DC 1024 in block 0. -/
theorem test_codeMb_dc :
    elem ((given 16 16 0x10000 (flat 0) (flat 0) ((List.range 8).flatMap fun y =>
      cellsFrom (0x100000 + 1024 * y) (List.replicate 8 128))).codeBlock 0 0) 0 0 = 1024 := by decide +kernel

/-- V-E5 and V-E8: INDEX_RANGE of `code_mb 16` on 64×64; PARAM before INDEX. -/
theorem test_codeMb_checks :
    (after (exec (.codeMb 16) (given 64 64 0x10000 (flat 0) (flat 0) [])) (fun t => t.status == 0x00000506) &&
    after (exec (.codeMb 99) (given 32 32 0 (flat 0) (flat 0) [])) (fun t => t.status == 0x00000206)) = true := by
  decide +kernel

/-- V-M2: the pixel [0][0] of block 5 of a slot whose DC is 1024. -/
theorem test_reconMb_pixel :
    pix .rhe (elem ((given 16 16 0x10000 (flat 0) (flat 0)
      (cellsFrom 0x800500 (blockBytes (single 0 0 0 1024)))).reconBlock 0 5) 0 0) = 128 := by decide +kernel

/-- V-M4 for RECON_MB: INDEX_RANGE at MBI = TILES. -/
theorem test_reconMb_index :
    after (exec (.reconMb 4) (given 32 32 0x10000 (flat 0) (flat 0) [])) (fun t => t.status == 0x00000506) = true := by
  decide +kernel

/-- V-E2 and V-X2: INVALID_DIMENSIONS of CODE_PIC, MB_COUNT as it was, and before the parameter check. -/
theorem test_codePic_dimensions :
    (after (exec .codePic { given 17 32 0x10000 (flat 0) (flat 0) [] with mbCount := 9 }) (fun t =>
      t.status == 0x00000106 && t.mbCount == 9) &&
    after (exec .codePic State.reset) (fun t => t.status == 0x00000106)) = true := by decide +kernel

/-- V-E9: the first error is kept. -/
theorem test_codePic_first_error :
    after (exec .codePic { given 32 32 0 (flat 0) (flat 0) [] with err := true, errCode := 1 }) (fun t =>
      t.status == 0x00000106) = true := by decide +kernel

/-- V-E4 and V-E7: LENGTH_MISMATCH, and DIMS before it. -/
theorem test_reconPic_checks :
    (after (exec .reconPic { given 64 64 0x10000 (flat 0) (flat 0) [] with mbCount := 3 }) (fun t =>
      t.status == 0x00000306 && t.mem == []) &&
    after (exec .reconPic { given 17 64 0 (flat 0) (flat 0) [] with mbCount := 3 }) (fun t =>
      t.status == 0x00000106)) = true := by decide +kernel

/-! ## Rounding, accesses and reset -/

/-- V-R5: PIX of 0.5, 1.5, 2.5, 127.5, 254.5, 255.7, 300.0, −3.0, −0.0 under RHE and TRUNC. -/
theorem test_pix :
    ([0x3FE0000000000000, 0x3FF8000000000000, 0x4004000000000000, 0x405FE00000000000, 0x406FD00000000000,
      0x406FF66666666666, 0x4072C00000000000, 0xC008000000000000, 0x8000000000000000].map fun v =>
      (pix .rhe v, pix .trunc v)) =
    [(0, 0), (2, 1), (2, 2), (128, 127), (254, 254), (255, 255), (255, 255), (0, 0), (0, 0)] := by decide +kernel

/-- V-B1, V-B2: a write to ID and a read of 0x028 are bus errors, and change only BUSERR. -/
theorem test_bus_errors :
    State.reset.hostWrite 0 .b4 0 = { State.reset with busErr := true, resp := some .busError, draws := 1 } ∧
      State.reset.hostRead 0x28 .b4 =
        { State.reset with busErr := true, resp := some (.busErrorData .b4 0), draws := 1 } := by decide +kernel

/-- V-B3, V-B4, V-B5, V-B6: width, read-only window, alignment and unmapped offset. -/
theorem test_bus_errors_forms :
    (State.reset.hostRead 0xC .b2).resp = some (.busErrorData .b2 0) ∧
      (State.reset.hostWrite 0x1000 .b8 0).resp = some .busError ∧
      (State.reset.hostRead 0x100001 .b4).resp = some (.busErrorData .b4 0) ∧
      (State.reset.hostRead 0xE00000 .b4).resp = some (.busErrorData .b4 0) := by decide +kernel

/-- V-B7, V-B8, V-B9: while BUSY = 1, P and CMD keep their values and CTRL is written. -/
theorem test_busy_writes :
    ((running 0 ready).hostWrite 0x14 .b4 5).p = 0x10000 ∧ ((running 0x12 ready).hostWrite 0x10 .b4 0).cmd = 0x12 ∧
      ((running 0 ready).hostWrite 0x8 .b4 1).ie = true ∧ ((running 0 ready).hostWrite 0x8 .b4 1).busErr = false := by
  decide +kernel

/-- V-B11: an 8-byte read of QBWIN has QB0[0][0] in bits 31:0 and QB0[0][1] in bits 63:32. -/
theorem test_qbwin_wide :
    ((given 0 0 0 (flat 0) (mkBlock fun _ j => if j = 0 then 0xAAAAAAAA else 0x55555555) []).hostRead 0x2000 .b8).resp =
      some (.okData .b8 0x55555555AAAAAAAA) := by decide +kernel

/-- V-X3: Q2C with P = 0x10000 on a QB0 never written completes and leaves UNINIT naming it (log 5). -/
theorem test_uninit :
    after (exec (.q2c 0 0) { State.reset with p := 0x10000 }) (fun t => t.done && t.uninit == some "Q2C") = true := by
  decide +kernel

/-- The first UNINIT is kept; a written register leaves none; and a check that fails first reads no register (log 20). -/
theorem test_uninit_first :
    (after (exec (.fdct 0 0) { State.reset with uninit := some "Q2C" }) (fun t => t.uninit == some "Q2C") &&
      after (exec (.stq 3 5 4095) ready) (fun t => t.uninit == none) &&
      after (exec (.quant 0 0) State.reset) (fun t => t.uninit == none && t.err)) = true := by decide +kernel

/-- V-X4: irq after a completion with IE = 1, and not after clearing DONE, nor from a bus error alone. -/
theorem test_irq :
    (after (exec .nop { State.reset with ie := true }) fun t =>
      t.irq && !(t.hostWrite 0xC .b4 2).irq && !((t.hostWrite 0xC .b4 2).hostWrite 0 .b4 0).irq) = true := by
  decide +kernel

/-! ## Witnesses: for each statement with hypotheses, states and operands that meet them together -/

theorem given_rb (w h p : Word) (x : Block B64) (q : Block Word) (mem : Memory) (r : Fin 4) :
    rbWritten (given w h p x q mem) r := by
  intro i j
  simp [given, BlockReg.full, elem]

theorem given_qb (w h p : Word) (x : Block B64) (q : Block Word) (mem : Memory) (r : Fin 4) :
    qbWritten (given w h p x q mem) r := by
  intro i j
  simp [given, BlockReg.full, elem]

theorem ready_rb (r : Fin 4) : rbWritten ready r := given_rb 16 16 0x10000 (flat 0) (flat 0) [] r

theorem ready_qb (r : Fin 4) : qbWritten ready r := given_qb 16 16 0x10000 (flat 0) (flat 0) [] r

theorem default_valid : defaultParams.Valid :=
  ⟨by decide, by decide, by decide, by decide, by decide, by decide, by decide, by decide, trivial⟩

/-- Another legal choice of parameters: WHT, BOUNDED, the widest plane. -/
def otherParams : Params :=
  { maxW := 65520, maxH := 16, kind := .wht, impl := .bounded (1 / 1000), pixRound := .trunc, qtable := flat 1 }

theorem other_valid : otherParams.Valid :=
  ⟨by decide, by decide, by decide, by decide, by decide, by decide, by decide, by decide, by show (0 : Rat) ≤ 1 / 1000; norm_num⟩

/-- A state with other parameters and written registers. -/
def readyOther : State := { ready with cfg := otherParams }

theorem test_witness_DecodeEncode : (Instr.stq 3 5 65535).WellFormed ∧ (Instr.ldblk 0 0 0).WellFormed := by decide

theorem test_witness_EncodeDecode : decode 0x00034008 = .ok (.ldblk 0 4 3) := by decide

/-- (a), (b) and (c) of R302, one word each. -/
theorem test_witness_IllegalCommand :
    (∃ e, decode (running 0x00000007 ready).lc = .error e) ∧ (∃ e, decode (running 0x00008010 ready).lc = .error e) ∧
      (∃ e, decode (running 0x00006008 ready).lc = .error e) ∧ (∃ e, decode (running 0xFFFF7C0B ready).lc = .error e) :=
  ⟨⟨.reservedOpcode 7, by decide⟩, ⟨.reservedBits "CODE_MB", by decide⟩, ⟨.blockSelector "LDBLK" 6, by decide⟩,
    ⟨.blockSelector "STQ" 7, by decide⟩⟩

theorem test_witness_StepRunsDecodedCommand :
    (decode (running 0x101 ready).lc = .ok (.fdct 1 0) ∧ (Instr.fdct 1 0).WellFormed ∧
      (running 0x101 ready).phase = .busy ∧ (running 0x101 ready).moves = []) ∧
    ({ running 0x101 ready with moves := [.engine, .reset] } : State).moves = .engine :: [.reset] ∧
    decodeTableWord 32 0x101 = some (.fdct 1 0) := by
  refine ⟨⟨by decide, by decide, rfl, rfl⟩, rfl, by decide⟩

theorem test_witness_EngineStepOwed :
    let s : State := { running 0x12 ready with moves := [.read 0x100000 .b1, .write 0x8 .b4 1, .write 0x14 .b4 0] }
    s.phase = .busy ∧ ∀ m ∈ s.moves, isAccess m = true := by decide

theorem test_witness_BusyInputsKept : (running 0x12 ready).phase = .busy := rfl

theorem test_witness_IdleEngineDoesNothing :
    (ready.phase = .idle ∧ ready.moves = []) ∧
      ({ ready with moves := [.engine] } : State).phase = .idle ∧
      ({ ready with moves := [.engine] } : State).moves = .engine :: [] := ⟨⟨rfl, rfl⟩, rfl, rfl⟩

theorem test_witness_ResetMove :
    (({ ready with moves := [.reset] } : State).moves = .reset :: [] ∧
      ({ ready with moves := [.reset] } : State).phase = .idle) ∧
      ({ running 0 ready with moves := [.reset] } : State).phase = .busy := ⟨⟨rfl, rfl⟩, rfl⟩

theorem test_witness_ResetSatisfiesInvariant : defaultParams.Valid ∧ otherParams.Valid := ⟨default_valid, other_valid⟩

/-- A command that writes memory, from a state that satisfies the invariant. -/
theorem test_witness_StepKeepsInvariant :
    let s := running 0x00000009 ready
    Invariant s ∧ ∃ t, step s = .next t ∧ t.mem ≠ [] := by
  refine ⟨⟨default_valid, fun _ r i j _ => ?_, by decide, by intro x hx; exact absurd hx (List.not_mem_nil), by decide, by decide,
    fun _ => rfl⟩, _, rfl, ?_⟩
  · simp [running, ready, given, BlockReg.full, elem, flat, isFinite, expField]
  · decide +kernel

/-- Each check of R309 as the first failing one, and none. -/
theorem test_witness_ChecksInOrder :
    sourceWritten ready (.quant 1 0) ∧ firstError (.stq 0 6 0) ready = some .illegalCommand ∧
      firstError .reconPic State.reset = some .invalidDimensions ∧
      firstError (.codeMb 1) { ready with p := 0 } = some .invalidParameter ∧
      firstError .reconPic ready = some .lengthMismatch ∧ firstError (.codeMb 1) ready = some .indexRange ∧
      firstError (.quant 1 0) (given 0 0 1 (flat 0x42CFFFFFFF800000) (flat 0) []) = some .coefOverflow ∧
      firstError (.quant 1 0) ready = none :=
  ⟨ready_rb _, by decide, by decide, by decide, by decide +kernel, by decide +kernel, by decide +kernel,
    by decide +kernel⟩

/-- The ends of IN. -/
theorem test_witness_InPictureNeverWritten :
    (∃ t, exec (.stblk 0 0 0) ready = .next t) ∧ (0x100000 ≤ 0x100000 ∧ 0x100000 < 0x400000) ∧
      0x100000 ≤ 0x3FFFFF ∧ 0x3FFFFF < 0x400000 := ⟨⟨_, rfl⟩, by decide⟩

/-- Two memories that differ at both ends of OUT. -/
theorem test_witness_OutPictureNeverRead :
    ready.cfg.Valid ∧ ∀ a, a < 0x400000 ∨ 0x700000 ≤ a →
      Memory.lookup [(0x400000, 1), (0x6FFFFF, 2)] a = ready.mem.lookup a := by
  refine ⟨default_valid, fun a ha => ?_⟩
  have h1 : (0x400000 == a) = false := by simp; omega
  have h2 : (0x6FFFFF == a) = false := by simp; omega
  show Memory.lookup _ a = none
  simp [Memory.lookup, h1, h2]

theorem test_witness_CoarseCommandsIgnoreBlockRegisters :
    (∃ m, Instr.codeMb 0 = .codeMb m) ∧ (∃ m, Instr.reconMb 0 = .reconMb m) := ⟨⟨0, rfl⟩, 0, rfl⟩

theorem test_witness_ParameterNotRead :
    ¬ readsP (.stblk 0 0 0) ∧ ∃ t, exec (.stblk 0 0 0) ready = .next t := ⟨by decide, _, rfl⟩

/-- Each clause of R304 at its edge: WIDTH 0, 17, 1040 and 0x80000010, HEIGHT 8. -/
theorem test_witness_InvalidDimensions :
    Instr.codePic.WellFormed ∧ readsDims .codePic ∧
      ∀ s ∈ [given 0 16 1 (flat 0) (flat 0) [], given 17 16 1 (flat 0) (flat 0) [], given 1040 16 1 (flat 0) (flat 0) [],
        given 0x80000010 16 1 (flat 0) (flat 0) [], given 16 8 1 (flat 0) (flat 0) []],
        ¬ (s.width.toNat % 16 = 0 ∧ 16 ≤ s.width.toNat ∧ s.width.toNat ≤ s.cfg.maxW ∧
          s.height.toNat % 16 = 0 ∧ 16 ≤ s.height.toNat ∧ s.height.toNat ≤ s.cfg.maxH) := by
  refine ⟨by decide, by decide, ?_⟩
  decide +kernel

/-- P = 0 and P = 0x80000000, in a command that checks the dimensions and in one that does not. -/
theorem test_witness_InvalidParameter :
    let s := { ready with p := 0 }
    readsP .codePic ∧ readsP (.quant 0 0) ∧ dimsValid s.cfg s.width.toNat s.height.toNat = true ∧ s.p.toInt ≤ 0 ∧
      (0x80000000#32).toInt ≤ 0 := by decide +kernel

theorem test_witness_LengthMismatch :
    let s := ready
    dimsValid s.cfg s.width.toNat s.height.toNat = true ∧ 0 < s.p.toInt ∧
      s.mbCount.toNat ≠ (s.width.toNat / 16) * (s.height.toNat / 16) := by decide +kernel

/-- BSEL 5, MBI = TILES and MBI = MAX_MB. -/
theorem test_witness_IndexRange :
    let s := ready
    (5#3).toNat < 6 ∧ dimsValid s.cfg s.width.toNat s.height.toNat = true ∧
      (s.width.toNat / 16) * (s.height.toNat / 16) ≤ (1#16).toNat ∧ 0 < s.p.toInt ∧
      (s.cfg.maxW / 16) * (s.cfg.maxH / 16) ≤ (4096#16).toNat := by decide +kernel

theorem test_witness_UninitNamesCommand :
    let s := { State.reset with p := 0x7FFFFFFF, width := 1024, height := 1024 }
    (¬ rbWritten s 3 ∧ ¬ qbWritten s 3) ∧ (s.phase = .idle ∧ elem s.rb[(3 : Fin 4)].written 7 7 = false ∧
      elem s.qb[(3 : Fin 4)].written 7 7 = false) ∧ 0 < s.p.toInt ∧ dimsValid s.cfg s.width.toNat s.height.toNat = true ∧
      (4095#16).toNat < s.tiles ∧ (4095#16).toNat < maxMb s.cfg := by
  refine ⟨⟨fun h => ?_, fun h => ?_⟩, by decide +kernel⟩
  · exact absurd (h 0 0) (by decide)
  · exact absurd (h 0 0) (by decide)

theorem test_witness_TransformsRef64 : ready.cfg.impl = .ref64 ∧ rbWritten ready 3 := ⟨rfl, ready_rb _⟩

/-- +0.0 is admitted in the transforms of the zero block, so both clauses speak of elements. -/
theorem test_witness_BoundedTransforms :
    let M := transformMatrix .wht
    readyOther.cfg.impl = .bounded (1 / 1000) ∧ rbWritten readyOther 0 ∧
      (∀ i j, isFinite (elem readyOther.rb[(0 : Fin 4)].vals i j) = true) ∧
      Admitted (1 / 1000) (flat 0) (∑ i, ∑ j, M 0 i * M 7 j * ((realValue (elem (flat 0) i j) : Rat) : ℝ)) 0 ∧
      Admitted (1 / 1000) (flat 0) (∑ u, ∑ v, M u 7 * M v 0 * ((realValue (elem (flat 0) u v) : Rat) : ℝ)) 0 := by
  have h0 : realValue 0 = 0 := by rw [realValue]; simp [scaled, mag, expField, fracField]
  have he : ∀ i j, realValue (elem (flat 0) i j) = 0 := fun i j => by
    rw [show elem (flat (0 : B64)) i j = 0 by simp [flat, elem], h0]
  have ha : ∀ t : ℝ, t = 0 → Admitted (1 / 1000) (flat 0) t 0 := fun t ht => by
    subst ht
    refine ⟨by decide, ?_⟩
    simp only [he, h0]
    norm_num
  refine ⟨rfl, ?_, ?_, ha _ (by simp only [he]; simp), ha _ (by simp only [he]; simp)⟩
  · intro i j
    simp [readyOther, ready, given, BlockReg.full, elem]
  · intro i j
    simp [readyOther, ready, given, BlockReg.full, elem, flat, isFinite, expField]

/-- 2^56 in every element is at the edge of the hypothesis. -/
theorem test_witness_TransformsStayFinite :
    (isFinite 0x4370000000000000 = true ∧ mag 0x4370000000000000 = 2 ^ 56 * unit64) ∧
      (∃ t, exec (.fdct 1 0) readyOther = .next t) ∧
      (∀ a b, isFinite (elem readyOther.rb[(0 : Fin 4)].vals a b) = true) ∧ ∀ _ _ : Fin 8, |(-1 : ℝ)| ≤ 1 := by
  refine ⟨by decide +kernel, ⟨_, rfl⟩, fun i j => ?_, fun _ _ => by norm_num⟩
  simp [readyOther, ready, given, BlockReg.full, elem, flat, isFinite, expField]

/-- n = d · 2^1023 is at the edge of the hypothesis. -/
theorem test_witness_RoundingNearestEven :
    0 < 3 ∧ 3 * 2 ^ 1023 ≤ 3 * 2 ^ 1023 ∧ isFinite 0x5F30000000000000 = true ∧
      mag 0x5F30000000000000 = 2 ^ 500 * unit64 := by decide +kernel

theorem test_witness_QuantRoundsOnce :
    0 < ready.p.toInt ∧ rbWritten ready 0 ∧ (∀ i j, isFinite (elem ready.rb[(0 : Fin 4)].vals i j) = true) ∧
      ∀ k : Fin 64, ready.cfg.qtable[k] ≠ 0#8 := by
  refine ⟨by decide, ready_rb _, ?_, default_valid.table⟩
  intro i j
  simp [ready, given, BlockReg.full, elem, flat, isFinite, expField]

theorem test_witness_DeqRoundsOnce : 0 < ready.p.toInt ∧ qbWritten ready 0 := ⟨by decide, ready_qb _⟩

theorem test_witness_C2qIsFdctThenQuant : 0 < ready.p.toInt ∧ rbWritten ready 2 := ⟨by decide, ready_rb _⟩

/-- Samples of 255.0, and both ends of the range of EPS. -/
theorem test_witness_PixelsNeverOverflow :
    let s := given 16 16 0x10000 (flat 0x406FE00000000000) (flat 0) []
    (s.cfg.Valid ∧ accurate s.cfg.impl ∧ 0 < s.p.toInt ∧ accurate (.bounded 0) ∧ accurate (.bounded (1 / 2 ^ 20))) ∧
      rbWritten s 3 ∧ (∀ i j, isFinite (elem s.rb[(3 : Fin 4)].vals i j) = true ∧
        0 ≤ realValue (elem s.rb[(3 : Fin 4)].vals i j) ∧ realValue (elem s.rb[(3 : Fin 4)].vals i j) ≤ 255) ∧
      dimsValid s.cfg s.width.toNat s.height.toNat = true ∧ (0#16).toNat < s.tiles := by
  have h255 : realValue 0x406FE00000000000 = 255 := by
    rw [realValue, scaled, mag_255, show signBit 0x406FE00000000000 = false by decide]
    push_cast
    exact mul_div_cancel_right₀ _ unit64_rat_pos.ne'
  refine ⟨⟨default_valid, trivial, by decide, by show (0 : Rat) ≤ _; norm_num, le_refl _⟩, given_rb _ _ _ _ _ _ _, ?_,
    by decide +kernel, by decide +kernel⟩
  intro i j
  have he : elem (given 16 16 0x10000 (flat 0x406FE00000000000) (flat 0) []).rb[(3 : Fin 4)].vals i j =
      0x406FE00000000000 := by simp [given, BlockReg.full, elem, flat]
  rw [he, h255]
  exact ⟨by decide, by norm_num, by norm_num⟩

/-- REF64 for the last clause. -/
theorem test_witness_Q2cClamps :
    (ready.cfg.impl = .ref64 ∧ 0 < ready.p.toInt ∧ qbWritten ready 2) ∧
      readyOther.cfg.impl = .bounded (1 / 1000) ∧ 0 < readyOther.p.toInt ∧ qbWritten readyOther 2 :=
  ⟨⟨rfl, by decide, ready_qb _⟩, rfl, by decide, ready_qb _⟩

/-- The largest q, t and P. -/
theorem test_witness_RequantizationExact :
    (-2147483648 : Int).natAbs ≤ 2 ^ 31 ∧ 1 ≤ 255 ∧ 255 ≤ 255 ∧ 1 ≤ 2147483647 ∧ 2147483647 < 2 ^ 31 := by decide

theorem test_witness_QuantizationError :
    isFinite 0x4059000000000000 = true ∧ 1 ≤ 255 ∧ 255 ≤ 255 ∧ 1 ≤ 0x10000 ∧ 0x10000 < 2 ^ 31 ∧
      (quant1 0x4059000000000000 255 0x10000).natAbs ≤ 2 ^ 31 := by decide +kernel

theorem test_witness_QuantizationMonotone :
    isFinite 0xC004000000000000 = true ∧ 1 ≤ 16 ∧ 1 ≤ 1 ∧ 1 < 2147483647 := by decide

theorem test_witness_QuantizerOdd :
    isFinite 0x8000000000000000 = true ∧ 1 ≤ 99 ∧ 99 ≤ 255 ∧ 1 ≤ 0x10000 ∧ 0x10000 < 2 ^ 31 ∧
      (-2147483648 : Int).natAbs ≤ 2 ^ 31 := by decide

theorem test_witness_PixelRounding : isFinite 0x405FE00000000000 = true := by decide

/-- The last luma block and the last chroma block of the last tile. -/
theorem test_witness_LdblkLoadsBlock :
    (3#3).toNat ≤ 3 ∧ 4 ≤ (5#3).toNat ∧ (5#3).toNat < 6 ∧
      dimsValid ready.cfg ready.width.toNat ready.height.toNat = true ∧ (0#16).toNat < ready.tiles := by decide +kernel

theorem test_witness_StblkLuma :
    (3#3).toNat ≤ 3 ∧ dimsValid ready.cfg ready.width.toNat ready.height.toNat = true ∧ (0#16).toNat < ready.tiles ∧
      rbWritten ready 1 := ⟨by decide, by decide +kernel, by decide +kernel, ready_rb _⟩

theorem test_witness_StblkChroma :
    4 ≤ (5#3).toNat ∧ (5#3).toNat ≤ 5 ∧ dimsValid ready.cfg ready.width.toNat ready.height.toNat = true ∧
      (0#16).toNat < ready.tiles ∧ rbWritten ready 1 :=
  ⟨by decide, by decide, by decide +kernel, by decide +kernel, ready_rb _⟩

theorem test_witness_LdqCopies :
    (5#3).toNat < 6 ∧ (4095#16).toNat < (ready.cfg.maxW / 16) * (ready.cfg.maxH / 16) := by decide +kernel

theorem test_witness_StqCopies :
    (5#3).toNat < 6 ∧ (4095#16).toNat < (ready.cfg.maxW / 16) * (ready.cfg.maxH / 16) ∧ qbWritten ready 3 :=
  ⟨by decide, by decide +kernel, ready_qb _⟩

/-- The last sample of a 1024×1024 picture, and one inside the first tile. -/
theorem test_witness_TilesPartition :
    (dimsValid defaultParams 1024 1024 = true ∧ 1023 < 1024) ∧ dimsValid defaultParams 16 16 = true ∧ 15 < 16 := by
  decide +kernel

/-- The blocks of the picture fit int32 under BOUNDED(1/1000) too: 16 · (2040 + 16.321) < 32902. -/
theorem readyOther_fits (m b : Nat) (i j : Fin 8) :
    -2 ^ 31 ≤ elem (quantize otherParams 65536 (fwd otherParams 0 (6 * m + b) (readyOther.blockIn m b))) i j ∧
      elem (quantize otherParams 65536 (fwd otherParams 0 (6 * m + b) (readyOther.blockIn m b))) i j ≤ 2 ^ 31 - 1 := by
  have hf := fwd_samples_within (c := otherParams) rfl le_rfl (by rw [pixelEps]; norm_num) 0 (6 * m + b)
    (blockIn_samples readyOther m b) i j
  rw [quantize, elem_mkBlock, show (elem otherParams.qtable i j).toNat = 1 by simp [otherParams, flat, elem]]
  have := quant1_le (t := 1) (p := 65536) (N := 32902) hf.1 (by decide) (by
    have := hf.2
    norm_num at this ⊢
    linarith)
  omega

/-- The last macroblock of a picture of one tile, under REF64 and, for the clause on other transforms, BOUNDED(1/1000). -/
theorem test_witness_CodeMbFillsSlot :
    (ready.cfg.Valid ∧ dimsValid ready.cfg ready.width.toNat ready.height.toNat = true ∧ 0 < ready.p.toInt ∧
      (0#16).toNat < ready.tiles ∧ accurate ready.cfg.impl) ∧
    readyOther.cfg.Valid ∧ dimsValid readyOther.cfg readyOther.width.toNat readyOther.height.toNat = true ∧
      0 < readyOther.p.toInt ∧ (0#16).toNat < readyOther.tiles ∧ ¬ accurate readyOther.cfg.impl ∧
      let q := fun b => quantize readyOther.cfg readyOther.p.toInt.toNat
        (fwd readyOther.cfg readyOther.draws (6 * (0#16).toNat + b) (readyOther.blockIn (0#16).toNat b))
      ∀ b < 6, ∀ i j, -2 ^ 31 ≤ elem (q b) i j ∧ elem (q b) i j ≤ 2 ^ 31 - 1 :=
  ⟨⟨default_valid, by decide +kernel, by decide, by decide +kernel, trivial⟩, other_valid, by decide +kernel, by decide,
    by decide +kernel, by simp only [accurate, readyOther, otherParams]; norm_num,
    fun b _ i j => readyOther_fits 0 b i j⟩

theorem test_witness_ReconMbRebuildsTile :
    let s := { ready with width := 1024, height := 1024 }
    s.cfg.Valid ∧ dimsValid s.cfg s.width.toNat s.height.toNat = true ∧ 0 < s.p.toInt ∧
      (4095#16).toNat < s.tiles := ⟨default_valid, by decide +kernel, by decide, by decide +kernel⟩

theorem test_witness_CodePicCodesPicture :
    (ready.cfg.Valid ∧ accurate ready.cfg.impl ∧ dimsValid ready.cfg ready.width.toNat ready.height.toNat = true ∧
      0 < ready.p.toInt) ∧
    readyOther.cfg.Valid ∧ dimsValid readyOther.cfg readyOther.width.toNat readyOther.height.toNat = true ∧
      0 < readyOther.p.toInt ∧
      let q := fun m b => quantize readyOther.cfg readyOther.p.toInt.toNat
        (fwd readyOther.cfg readyOther.draws (6 * m + b) (readyOther.blockIn m b))
      ∀ m < readyOther.tiles, ∀ b < 6, ∀ i j, -2 ^ 31 ≤ elem (q m b) i j ∧ elem (q m b) i j ≤ 2 ^ 31 - 1 :=
  ⟨⟨default_valid, trivial, by decide +kernel, by decide⟩, other_valid, by decide +kernel, by decide,
    fun m _ b _ i j => readyOther_fits m b i j⟩

theorem test_witness_ReconPicRebuildsPicture :
    let s := { ready with mbCount := 1 }
    s.cfg.Valid ∧ dimsValid s.cfg s.width.toNat s.height.toNat = true ∧ 0 < s.p.toInt ∧
      s.mbCount.toNat = s.tiles := ⟨default_valid, by decide +kernel, by decide, by decide +kernel⟩

/-- The rows of the first tile in the three planes of IN. -/
def tileRows : List (Nat × List Byte) :=
  (List.range 48).map fun k => (0x100000 + k / 16 * 0x100000 + k % 16 * 1024, List.replicate 16 (128 : Byte))

/-- Memory in which every sample of the first tile and every byte of slot 0 has been written. -/
@[irreducible] def filledMem : Memory := (Memory.writeRuns [] tileRows).write 0x800000 (List.replicate 1536 (0 : Byte))

theorem filledMem_tile {c x y : Nat} (hc : c ≤ 2) (hx : x < 16) (hy : y < 16) :
    Memory.lookup filledMem (0x100000 + c * 0x100000 + y * 1024 + x) = some 128 := by
  unfold filledMem
  rw [lookup_write_ne (by omega)]
  apply lookup_writeRuns_of_covered
  · refine ⟨_, List.mem_map_of_mem (List.mem_range.mpr (show 16 * c + y < 48 by omega)), ?_⟩
    unfold covers
    simp only [List.length_replicate]
    omega
  · intro r hr hcov
    obtain ⟨k, _, rfl⟩ := List.mem_map.mp hr
    unfold covers at hcov
    simp only [List.length_replicate] at hcov
    rw [List.getElem?_replicate, if_pos (by omega)]

theorem filledMem_slot {k : Nat} (hk : k < 1536) : Memory.lookup filledMem (0x800000 + k) = some 0 := by
  unfold filledMem
  rw [lookup_write, if_pos (by simp only [List.length_replicate]; omega), List.getElem?_replicate, if_pos (by omega)]

theorem written_tile {s : State} (hm : s.mem = filledMem) (hc : s.cfg = defaultParams) (hw : s.width = 16) {c x y : Nat}
    (h : c ≤ 2) (hx : x < 16) (hy : y < 16) :
    s.mem.lookup (inAddr s.cfg c (tileX s.tpr 0 + x) (tileY s.tpr 0 + y)) ≠ none := by
  have e : inAddr s.cfg c (tileX s.tpr 0 + x) (tileY s.tpr 0 + y) = 0x100000 + c * 0x100000 + y * 1024 + x := by
    unfold inAddr tileX tileY State.tpr
    rw [hc, hw]
    simp [defaultParams]
  rw [hm, e, filledMem_tile h hx hy]
  exact Option.some_ne_none _

theorem test_witness_MacroblockIsItsBlockSequence :
    let s := { ready with mem := filledMem }
    (s.cfg.Valid ∧ s.cfg.impl = .ref64 ∧ dimsValid s.cfg s.width.toNat s.height.toNat = true ∧ 0 < s.p.toInt ∧
      (0#16).toNat < s.tiles) ∧
    (∀ c ≤ 2, ∀ x y : Fin 16,
      s.mem.lookup (inAddr s.cfg c (tileX s.tpr 0 + x.val) (tileY s.tpr 0 + y.val)) ≠ none) ∧
    (∀ k < 1536, s.mem.lookup (0x800000 + 1536 * 0 + k) ≠ none) := by
  refine ⟨⟨default_valid, rfl, by decide +kernel, by decide, by decide +kernel⟩, ?_, ?_⟩
  · intro c hc x y
    exact written_tile (s := { ready with mem := filledMem }) rfl rfl rfl hc x.isLt y.isLt
  · intro k hk h
    exact Option.some_ne_none _ ((filledMem_slot hk).symm.trans h)

/-- An unmapped place, a wrong width, a wrong alignment, a read-only place, a write while BUSY = 1, and good accesses. -/
theorem test_witness_BusErrors :
    badPlace defaultParams 0x028 .b4 ∧ badWidth defaultParams 0x00C .b2 ∧ badWidth defaultParams 0x100001 .b4 ∧
      isReadOnly 0x17FF ∧ ((running 0 ready).phase = .busy ∧ 0x014 ≠ 0x008 ∧ 0x014 ≠ 0x00C) ∧
      ¬ (badPlace defaultParams 0xDFFFF8 .b8 ∨ badWidth defaultParams 0xDFFFF8 .b8 ∨ isReadOnly 0xDFFFF8 ∨
        (ready.phase = .busy ∧ 0xDFFFF8 ≠ 0x008 ∧ 0xDFFFF8 ≠ 0x00C)) ∧
      regionOf defaultParams 0x00C = some .regs := by
  refine ⟨?_, ⟨.regs, by decide, by decide⟩, ⟨.inPic, by decide +kernel, by decide⟩, by unfold isReadOnly; omega,
    ⟨rfl, by decide⟩, ?_, by decide⟩
  · rintro ⟨r, h⟩
    have h0 := h 0 (by decide)
    rw [show regionOf defaultParams (0x028 + 0) = none by decide] at h0
    cases h0
  · rintro (h | h | h | h)
    · exact h ⟨.coef, by decide +kernel⟩
    · obtain ⟨r, h1, h2⟩ := h
      rw [show regionOf defaultParams 0xDFFFF8 = some .coef by decide +kernel] at h1
      cases h1
      revert h2
      decide
    · unfold isReadOnly at h; omega
    · exact absurd h.1 (by decide)

theorem test_witness_ReadOnlyRegisters :
    ready.cfg.Valid ∧ (0x028 ≤ (0x000028#24).toNat ∧ (0x000028#24).toNat < 0x100) ∧
      (0x200 ≤ (0x000FFF#24).toNat ∧ (0x000FFF#24).toNat < 0x1000) := ⟨default_valid, by decide, by decide⟩

theorem test_witness_CommandAndConfigurationRegisters :
    ready.phase = .idle ∧ (running 0 ready).phase = .busy ∧
      ((0x000020 : Offset) = 0x000010 ∨ (0x000020 : Offset) = 0x000014 ∨ (0x000020 : Offset) = 0x000018 ∨
        (0x000020 : Offset) = 0x00001C ∨ (0x000020 : Offset) = 0x000020) := ⟨rfl, rfl, by decide⟩

theorem test_witness_RbWindow :
    (ready.phase = .idle ∧ elem ready.rb[(3 : Fin 4)].written 7 7 = true) ∧
      (0x001000 ≤ (0x001000#24).toNat ∧ (0x001000#24).toNat < 0x001800) ∧
      0x001000 ≤ (0x0017FF#24).toNat ∧ (0x0017FF#24).toNat < 0x001800 :=
  ⟨⟨rfl, given_rb 16 16 0x10000 (flat 0) (flat 0) [] 3 7 7⟩, by decide, by decide⟩

theorem test_witness_QbWindow :
    ready.phase = .idle ∧ ((6 : Fin 8).val % 2 = 0 ∧ (7 : Fin 8).val = (6 : Fin 8).val + 1) ∧
      elem ready.qb[(3 : Fin 4)].written 7 6 = true ∧ elem ready.qb[(3 : Fin 4)].written 7 7 = true :=
  ⟨rfl, by decide, given_qb 16 16 0x10000 (flat 0) (flat 0) [] 3 7 6, given_qb 16 16 0x10000 (flat 0) (flat 0) [] 3 7 7⟩

/-- The last sample of the last plane, and the last access of each width there. -/
theorem test_witness_PictureSamples :
    ready.cfg.Valid ∧ ready.phase = .idle ∧ 2 ≤ 2 ∧ 1023 < ready.cfg.maxW ∧ 1023 < ready.cfg.maxH ∧
      (1023 % widthBytes .b1 = 0 ∧ 1022 % widthBytes .b2 = 0 ∧ 1020 % widthBytes .b4 = 0 ∧ 1016 % widthBytes .b8 = 0) ∧
      (0x400000 = 0x100000 ∨ 0x400000 = 0x400000) := ⟨default_valid, rfl, by decide⟩

theorem test_witness_CoefficientElements :
    ready.cfg.Valid ∧ ready.phase = .idle ∧ 4095 < (ready.cfg.maxW / 16) * (ready.cfg.maxH / 16) ∧ 5 < 6 ∧
      (Width.b8 = .b8 ∧ (6 : Fin 8).val % 2 = 0) :=
  ⟨default_valid, rfl, by decide +kernel, by decide, by decide⟩

theorem test_witness_DoneRace :
    let s := running 0x00000000 ready
    s.phase = .busy ∧ decode s.lc = .ok .nop ∧ ∃ t, exec .nop s = .next t := ⟨rfl, by decide, _, rfl⟩

end Sys2Proof.Tests
end

section
/-! The obligation of 00_scope: sums and products of values of magnitude at most 2^500 stay far below the overflow bound
2^1023 of `rne64_isRne64`, so each is its exact result rounded once (R20). -/

namespace Sys2Proof

open Machine

/-- Two values of magnitude at most 2^500 have a sum that one rounding meets without overflow. -/
theorem add64_isRne64_of_abs_le {a b : B64} (ha : isFinite a = true) (hb : isFinite b = true)
    (ha' : |realValue a| ≤ 2 ^ 500) (hb' : |realValue b| ≤ 2 ^ 500) :
    IsRne64 (add64 a b) (realValue a + realValue b) := by
  have hK : 2 ^ 501 ≤ 2 ^ 1023 := pow_le_pow_right₀ one_le_two (by decide)
  refine add64_isRne64 ha hb hK ?_
  calc |realValue a + realValue b| ≤ |realValue a| + |realValue b| := abs_add_le _ _
    _ ≤ 2 ^ 500 + 2 ^ 500 := add_le_add ha' hb'
    _ = ((2 ^ 501 : Nat) : Rat) := by rw [Nat.cast_pow, Nat.cast_two, pow_succ _ 500, mul_two]

/-- Two values of magnitude at most 2^500 have a product that one rounding meets without overflow. -/
theorem mul64_isRne64_of_abs_le {a b : B64} (ha : isFinite a = true) (hb : isFinite b = true)
    (ha' : |realValue a| ≤ 2 ^ 500) (hb' : |realValue b| ≤ 2 ^ 500) :
    IsRne64 (mul64 a b) (realValue a * realValue b) := by
  have hK : 2 ^ (500 + 500) ≤ 2 ^ 1023 := pow_le_pow_right₀ one_le_two (by decide)
  refine mul64_isRne64 ha hb hK ?_
  calc |realValue a * realValue b| = |realValue a| * |realValue b| := abs_mul _ _
    _ ≤ 2 ^ 500 * 2 ^ 500 := mul_le_mul ha' hb' (abs_nonneg _) (pow_nonneg zero_le_two _)
    _ = ((2 ^ (500 + 500) : Nat) : Rat) := by rw [Nat.cast_pow, Nat.cast_two, pow_add]

/-- Settles O29: 2^1023 is below the overflow bound, and a sum or product of values up to 2^500 is below 2^1023. -/
theorem roundingNearestEven : Obligations.RoundingNearestEven :=
  ⟨fun neg _ _ hd h => rne64_isRne64 neg hd h, fun _ _ ha hb ha' hb' =>
    ⟨add64_isRne64_of_abs_le ha hb ha' hb', mul64_isRne64_of_abs_le ha hb ha' hb'⟩⟩

end Sys2Proof
end

section
/-! IN, OUT and COEF under the commands (10_state R72): no command writes IN, and none reads OUT. The second is a relation
between two runs: from two memories that agree outside OUT every command leaves memories that agree outside OUT. -/

namespace Sys2Proof

open Machine

variable {s t : State} {m m' : Memory} {k b : Nat}

/-! ## IN is never written -/

/-- The engine's places lie at or beyond the start of OUT. -/
theorem enginePlace_above_in {a : Nat} (h : enginePlace s a) : 0x400000 ≤ a := by
  rcases h with ⟨_, c, x, y, _, _, _, rfl⟩ | ⟨h, _⟩
  · unfold outAddr; omega
  · unfold slotAddr at h; omega

/-- A completed command leaves every byte below OUT. -/
theorem Completed.lookup_below_out {count : Prop} (h : Completed count s t) {a : Nat} (ha : a < 0x400000) :
    t.mem.lookup a = s.mem.lookup a := by
  rcases h with ⟨e, ht⟩ | ⟨rb, qb, runs, mb, ⟨ht, hruns⟩, _⟩
  · rw [ht]; rfl
  · rw [ht]
    refine lookup_writeRuns_of_not_covered runs s.mem a fun r hr hc => ?_
    have := enginePlace_above_in (hruns r hr a hc)
    omega

/-- Settles O15: the engine writes OUT and COEF only, and IN lies below both. -/
theorem inPictureNeverWritten : Obligations.InPictureNeverWritten :=
  fun _ _ _ h _ _ ha => (exec_next h).lookup_below_out ha

/-! ## Memories that agree outside OUT -/

/-- The window offsets outside OUT (20_memory R101). -/
def outsideOut (a : Nat) : Prop := a < 0x400000 ∨ 0x700000 ≤ a

/-- Two memories list the same bytes outside OUT. -/
def AgreeOutsideOut (m m' : Memory) : Prop := ∀ a, outsideOut a → m'.lookup a = m.lookup a

theorem AgreeOutsideOut.write (h : AgreeOutsideOut m m') (a : Nat) (bs : List Byte) :
    AgreeOutsideOut (m.write a bs) (m'.write a bs) := fun x hx => by
  rw [lookup_write, lookup_write, h x hx]

theorem AgreeOutsideOut.writeRuns (h : AgreeOutsideOut m m') (runs : List (Nat × List Byte)) :
    AgreeOutsideOut (m.writeRuns runs) (m'.writeRuns runs) := by
  induction runs generalizing m m' with
  | nil => exact h
  | cons r rs ih => exact ih (h.write r.1 r.2)

/-- A byte read outside OUT does not depend on OUT. -/
theorem AgreeOutsideOut.byteAt (h : AgreeOutsideOut s.mem m) {a : Nat} (ha : outsideOut a) :
    (s.withMem m).byteAt a = s.byteAt a :=
  congrArg (Option.getD · (Config.drawByte s.draws a)) (h a ha)

/-! ## What the commands read -/

/-- Samples of IN lie below OUT (20_memory R101, 00_scope R11). -/
theorem inAddr_outsideOut {c : Params} (hc : c.Valid) {p x y : Nat} (hp : p ≤ 2) (hx : x < c.maxW) (hy : y < c.maxH) :
    outsideOut (inAddr c p x y) := by
  have h1 := plane_offset hx hy
  have h2 := hc.area
  left
  unfold inAddr
  omega

theorem withMem_tpr (s : State) (m : Memory) : (s.withMem m).tpr = s.tpr := rfl

section
variable (hv : s.cfg.Valid) (h : AgreeOutsideOut s.mem m)
include h

theorem AgreeOutsideOut.coef : (s.withMem m).coef k b = s.coef k b := by
  have word (a : Nat) (ha : 0x800000 ≤ a) : (s.withMem m).wordAt a = s.wordAt a := by
    have byte (n : Nat) : (s.withMem m).byteAt (a + n) = s.byteAt (a + n) := h.byteAt (.inr (by omega))
    rw [State.wordAt, State.wordAt, ← Nat.add_zero a, byte, Nat.add_zero, byte, byte, byte]
  exact mkBlock_congr fun i j => word _ (by unfold coefAddr; omega)

theorem AgreeOutsideOut.reconMacroblockRuns : (s.withMem m).reconMacroblockRuns k = s.reconMacroblockRuns k := by
  have block (b : Nat) : (s.withMem m).reconBlock k b = s.reconBlock k b :=
    congrArg (q2cBlock s.cfg s.pInt.toNat s.draws (6 * k + b)) h.coef
  exact congrArg (List.flatMap · (List.range 6)) (funext fun b => congrArg (blockOutRuns s k b) (block b))

theorem AgreeOutsideOut.reconPictureRuns : (s.withMem m).reconPictureRuns = s.reconPictureRuns :=
  congrArg (List.flatMap · (List.range s.tiles)) (funext fun _ => h.reconMacroblockRuns)

include hv

theorem AgreeOutsideOut.pixIn {c x y : Nat} (hc : c ≤ 2) (hx : x < s.cfg.maxW) (hy : y < s.cfg.maxH) :
    (s.withMem m).pixIn c x y = s.pixIn c x y :=
  h.byteAt (inAddr_outsideOut hv hc hx hy)

variable (hd : s.dimsOk = true) (hk : k < s.tiles)
include hd hk

theorem AgreeOutsideOut.lumaSample (hb : b ≤ 3) (i j : Fin 8) :
    (s.withMem m).lumaSample k b i j = s.lumaSample k b i j := by
  obtain ⟨hx, hy, hw, hh⟩ := tile_bounds hd hk
  have hbx := lumaX_le b
  have hby := lumaY_le hb
  unfold State.lumaSample
  simp (disch := omega) only [withMem_tpr, h.pixIn hv]

theorem AgreeOutsideOut.chromaSample {c : Nat} (hc : c ≤ 2) (i j : Fin 8) :
    (s.withMem m).chromaSample k c i j = s.chromaSample k c i j := by
  obtain ⟨hx, hy, hw, hh⟩ := tile_bounds hd hk
  unfold State.chromaSample
  simp (disch := omega) only [withMem_tpr, h.pixIn hv]

/-- A block of a tile of the picture is read from IN alone (42_region R226). -/
theorem AgreeOutsideOut.blockIn (hb : b < 6) : (s.withMem m).blockIn k b = s.blockIn k b := by
  refine mkBlock_congr fun i j => congrArg b64OfNat ?_
  by_cases h3 : b ≤ 3
  · rw [if_pos h3, if_pos h3, h.lumaSample hv hd hk h3]
  · rw [if_neg h3, if_neg h3, h.chromaSample hv hd hk (by omega)]

theorem AgreeOutsideOut.codeMacroblock : (s.withMem m).codeMacroblock k = s.codeMacroblock k :=
  List.map_congr_left fun b hb => congrArg (c2qBlock s.cfg s.pInt.toNat s.draws (6 * k + b))
    (h.blockIn hv hd hk (List.mem_range.mp hb))

omit hk in
theorem AgreeOutsideOut.codePicture : (s.withMem m).codePicture = s.codePicture :=
  List.flatMap_congr fun _ hk => h.codeMacroblock hv hd (List.mem_range.mp hk)

end

/-! ## Two runs of one command -/

/-- The error of the checks of a command that reads or writes IN, OUT or COEF (46_control R288). -/
def memoryError (s : State) : Instr → Option CmdError
  | .nop | .fdct _ _ | .idct _ _ | .quant _ _ | .deq _ _ | .c2q _ _ | .q2c _ _ => none
  | .ldblk _ b m | .stblk _ b m => s.tileError b m
  | .ldq _ b m | .stq _ b m => s.slotError b m
  | .codeMb m | .reconMb m => s.macroblockError m
  | .codePic => s.pictureError
  | .reconPic => s.reconPicError

theorem memoryError_withMem (s : State) (m : Memory) (i : Instr) : memoryError (s.withMem m) i = memoryError s i := by
  cases i <;> rfl

/-- Such a command whose checks fail completes with that error and does nothing else. -/
theorem exec_memoryError {i : Instr} {e : CmdError} (he : memoryError s i = some e) :
    exec i s = .next (s.completeErr e) := by
  cases i with
  | nop | fdct _ _ | idct _ _ | quant _ _ | deq _ _ | c2q _ _ | q2c _ _ => cases he
  | ldblk _ _ _ => rw [exec, execLdblk, show s.tileError _ _ = some e from he]
  | stblk _ _ _ => rw [exec, execStblk, show s.tileError _ _ = some e from he]
  | ldq _ _ _ => rw [exec, execLdq, show s.slotError _ _ = some e from he]
  | stq _ _ _ => rw [exec, execStq, show s.slotError _ _ = some e from he]
  | codeMb _ => rw [exec, execCodeMb, show s.macroblockError _ = some e from he]
  | reconMb _ => rw [exec, execReconMb, show s.macroblockError _ = some e from he]
  | codePic => rw [exec, execCodePic, show s.pictureError = some e from he]
  | reconPic => rw [exec, execReconPic, show s.reconPicError = some e from he]

/-- Two outcomes are next states that are equal but for bytes of OUT. -/
def EqualButOut (o o' : Host.Outcome State Fault Refusal) : Prop :=
  ∃ t m', o = .next t ∧ o' = .next (t.withMem m') ∧ AgreeOutsideOut t.mem m'

theorem equalButOut_next (h : AgreeOutsideOut t.mem m) : EqualButOut (.next t) (.next (t.withMem m)) :=
  ⟨t, m, rfl, rfl, h⟩

theorem EqualButOut.ite {c : Prop} [Decidable c] {o o' p p' : Host.Outcome State Fault Refusal} (ho : EqualButOut o o')
    (hp : EqualButOut p p') : EqualButOut (if c then o else p) (if c then o' else p') := by
  by_cases h : c
  · rwa [if_pos h, if_pos h]
  · rwa [if_neg h, if_neg h]

theorem equalButOut_commit (h : AgreeOutsideOut s.mem m) (rd : Fin 4) (q : Block Int) :
    EqualButOut (.next (s.commitQuantized rd q)) (.next ((s.withMem m).commitQuantized rd q)) := by
  unfold State.commitQuantized
  by_cases hq : blockFits q
  · rw [if_pos hq, if_pos hq]; exact equalButOut_next h
  · rw [if_neg hq, if_neg hq]; exact equalButOut_next h

/-- From two memories that agree outside OUT a command gives equal states, but for bytes of OUT. -/
theorem exec_equalButOut (hv : s.cfg.Valid) (h : AgreeOutsideOut s.mem m) (i : Instr) :
    EqualButOut (exec i s) (exec i (s.withMem m)) := by
  cases he : memoryError s i with
  | some e =>
    rw [exec_memoryError he, exec_memoryError ((memoryError_withMem s m i).trans he)]
    exact equalButOut_next h
  | none =>
    cases i with
    | nop => exact equalButOut_next h
    | fdct _ _ => exact equalButOut_next h
    | idct _ _ => exact equalButOut_next h
    | quant rd rs => exact .ite (equalButOut_commit (s := s.noteRead "QUANT" s.rb[rs]) h rd _) (equalButOut_next h)
    | deq _ _ => exact .ite (equalButOut_next h) (equalButOut_next h)
    | c2q rd rs => exact .ite (equalButOut_commit (s := s.noteRead "C2Q" s.rb[rs]) h rd _) (equalButOut_next h)
    | q2c _ _ => exact .ite (equalButOut_next h) (equalButOut_next h)
    | ldblk rd b k =>
      obtain ⟨hb, hd, hk⟩ := tileError_bounds he
      rw [exec, exec, execLdblk_tile he, execLdblk_tile (s := s.withMem m) he, h.blockIn hv hd hk hb]
      exact equalButOut_next h
    | stblk rs b k =>
      rw [exec, exec, execStblk_reads he, execStblk_reads (s := s.withMem m) he]
      exact equalButOut_next (h.writeRuns _)
    | ldq rd b k =>
      rw [exec, exec, execLdq_slot he, execLdq_slot (s := s.withMem m) he, h.coef]
      exact equalButOut_next h
    | stq rs b k =>
      rw [exec, exec, execStq_reads he, execStq_reads (s := s.withMem m) he]
      exact equalButOut_next (h.write _ _)
    | codeMb k =>
      obtain ⟨hd, _, hk⟩ := macroblockError_bounds he
      rw [exec, exec, execCodeMb_checked he, execCodeMb_checked (s := s.withMem m) he, h.codeMacroblock hv hd hk]
      exact .ite (equalButOut_next (h.write _ _)) (equalButOut_next h)
    | reconMb k =>
      rw [exec, exec, execReconMb_checked he, execReconMb_checked (s := s.withMem m) he, h.reconMacroblockRuns]
      exact equalButOut_next (h.writeRuns _)
    | codePic =>
      obtain ⟨hd, _⟩ := pictureError_bounds he
      rw [exec, exec, execCodePic_checked he, execCodePic_checked (s := s.withMem m) he, h.codePicture hv hd]
      exact .ite (equalButOut_next (h.write _ _)) (equalButOut_next h)
    | reconPic =>
      rw [exec, exec, execReconPic_checked he, execReconPic_checked (s := s.withMem m) he, h.reconPictureRuns]
      exact equalButOut_next (h.writeRuns _)

/-- Settles O16: the samples of IN and the slots of COEF that a command reads lie outside OUT. -/
theorem outPictureNeverRead : Obligations.OutPictureNeverRead := by
  intro i s m hv h
  obtain ⟨t, m', e, e', h'⟩ := exec_equalButOut hv h i
  change exec i { s with mem := m } = _ at e'
  rw [e, e']
  exact ⟨rfl, h'⟩

end Sys2Proof
end

section
/-! The register region as the host sees it (10_state R43–R61): its read-only locations, its holes, CTRL and STATUS. -/

namespace Sys2Proof

open Machine

variable {s : State} {a : Nat} {n : Width} {addr : Offset} {v : BitVec 64}

/-! ## Refused writes -/

/-- A write is refused at any place whose every access is to a read-only location, or to no region at all. -/
theorem writeRegion_none (h : ∀ r, accessRegion s.cfg a n = some r → readOnly r a = true) : s.writeRegion a n = none := by
  cases hw : s.writeRegion a n with
  | none => rfl
  | some r =>
    obtain ⟨hr, hro, _⟩ := writeRegion_iff.mp hw
    rw [h r hr] at hro
    cases hro

/-- A write of any width to a read-only location is a bus error, whatever BUSY is (20_memory R110 (c)). -/
theorem hostWrite_isReadOnly (h : isReadOnly addr.toNat) : s.hostWrite addr n v = busErrored .busError s :=
  hostWrite_none (writeRegion_none fun _ hr =>
    (readOnly_iff ((accessRegion_iff.mp hr).1 0 (widthBytes_pos n))).mpr h)

/-- 10_state R60: these offsets hold no register. -/
theorem accessRegion_hole {c : Params} (h : (0x028 ≤ a ∧ a < 0x100) ∨ (0x200 ≤ a ∧ a < 0x1000)) :
    accessRegion c a n = none := by
  have : regionOf c a = none := by rw [regionOf, if_pos (by omega), if_neg (by omega)]
  rw [accessRegion, this]

theorem hostAccess_hole (h : (0x028 ≤ addr.toNat ∧ addr.toNat < 0x100) ∨ (0x200 ≤ addr.toNat ∧ addr.toNat < 0x1000)) :
    s.hostRead addr n = busErrored (.busErrorData n 0) s ∧ s.hostWrite addr n v = busErrored .busError s := by
  have hn : accessRegion s.cfg addr.toNat n = none := accessRegion_hole h
  refine ⟨hostRead_none hn, hostWrite_none (writeRegion_none fun r hr => ?_)⟩
  rw [hn] at hr
  cases hr

/-! ## Constants -/

/-- The MAXDIM word on the bus; both dimensions are below 2^16 (00_scope R11; 10_state R53). -/
theorem maxdim_setWidth {c : Params} (hc : c.Valid) : (maxdim c).setWidth 64 = BitVec.ofNat 64 (c.maxH * 65536 + c.maxW) := by
  have hw := hc.wHigh
  have hh := hc.hHigh
  apply BitVec.eq_of_toNat_eq
  rw [BitVec.toNat_setWidth, maxdim_toNat, BitVec.toNat_ofNat, Nat.mod_eq_of_lt (b := 65536) (by omega),
    Nat.mod_eq_of_lt (b := 65536) (by omega)]

theorem toNat_ofNat24 (h : a < 2 ^ 24) : (BitVec.ofNat 24 a).toNat = a := by
  rw [BitVec.toNat_ofNat, Nat.mod_eq_of_lt h]

theorem hostRead_qtable (k : Fin 64) :
    s.hostRead (BitVec.ofNat 24 (0x100 + 4 * k.val)) .b4 =
      answered (.okData .b4 (BitVec.ofNat 64 (s.cfg.qtable[k]).toNat)) s := by
  have e : (BitVec.ofNat 24 (0x100 + 4 * k.val)).toNat = 0x100 + 4 * k.val := toNat_ofNat24 (by omega)
  rw [hostRead_reg (by omega) (by omega), e, readReg_qtable]
  rw [BitVec.setWidth_setWidth (by decide), BitVec.ofNat_toNat]

/-- Settles O52: each constant is read through its register, and every write there or access to a hole is refused. -/
theorem readOnlyRegisters : Obligations.ReadOnlyRegisters := by
  intro s v hv
  refine ⟨hostRead_reg (by decide) (by decide), hostRead_reg (by decide) (by decide), ?_, ?_, fun k => ⟨hostRead_qtable k, ?_⟩,
    fun a n h => hostAccess_hole h⟩
  · rw [← maxdim_setWidth hv]
    exact hostRead_reg (by decide) (by decide)
  · rintro a (rfl | rfl | rfl) <;> exact hostWrite_isReadOnly (by unfold isReadOnly; decide)
  · refine hostWrite_isReadOnly ?_
    rw [toNat_ofNat24 (by omega)]
    unfold isReadOnly
    omega

/-! ## CTRL and STATUS -/

theorem toNat_append_eq {p q : Nat} (x : BitVec p) (y : BitVec q) : (x ++ y).toNat = x.toNat * 2 ^ q + y.toNat := by
  rw [BitVec.toNat_append, ← Nat.shiftLeft_add_eq_or_of_lt y.isLt, Nat.shiftLeft_eq]

theorem getLsbD_low32 {i : Nat} (h : i < 32) : (v.extractLsb' 0 32).getLsbD i = v.getLsbD i := by
  simp [h]

/-- The CTRL word on the bus after IE was taken from bit 0 of `v` (10_state R46). -/
theorem ctrl_setWidth (h : s.ie = v.getLsbD 0) : s.ctrl.setWidth 64 = v &&& 1 := by
  apply BitVec.eq_of_getLsbD_eq
  intro i hi
  unfold State.ctrl
  rw [h, BitVec.getLsbD_setWidth, BitVec.getLsbD_append]
  rcases i with _ | i <;> simp

/-- Settles O53: CTRL is one of the two registers whose write BUSY does not refuse, and IE is its one bit. -/
theorem ctrlRegister : Obligations.CtrlRegister := by
  intro s v
  have hw : s.hostWrite 0x000008 .b4 v = answered .ok { s with ie := v.getLsbD 0 } := by
    rw [hostWrite_reg (by decide) (by decide) (by decide) (.inr (.inl rfl)), ← getLsbD_low32 (by decide)]
    rfl
  refine ⟨hw, ?_, ?_, fun c => ⟨show 0#31 ++ BitVec.ofBool false = 0#32 by decide, rfl⟩⟩
  · rw [hw, ← ctrl_setWidth (s := answered .ok { s with ie := v.getLsbD 0 }) rfl]
    exact hostRead_reg (by decide) (by decide)
  · simp only [State.irq, Bool.and_eq_true, Bool.or_eq_true]

/-- The STATUS word as a number (10_state R47). -/
theorem status_toNat (s : State) :
    s.status.toNat = (if s.phase = .busy then 1 else 0) + (if s.done then 2 else 0) + (if s.err then 4 else 0) +
      (if s.busErr then 8 else 0) + 256 * s.errCode.toNat := by
  have bit (b : Bool) (k : Nat) : (if b then k else 0) = b.toNat * k := by cases b <;> simp
  have busy : (if s.phase = .busy then 1 else 0) = s.busy.toNat := by
    rw [State.busy]; cases s.phase <;> rfl
  unfold State.status
  simp only [toNat_append_eq, BitVec.toNat_ofBool, BitVec.toNat_ofNat, bit, busy]
  omega

/-- Settles O54: the word a read gives is the number of its bits, and a write, which BUSY does not refuse, clears by ones. -/
theorem statusRegister : Obligations.StatusRegister := by
  intro s v
  constructor
  · rw [hostRead_reg (by decide) (by decide), ← status_toNat, BitVec.ofNat_toNat]
    rfl
  · rw [hostWrite_reg (by decide) (by decide) (by decide) (.inr (.inr rfl))]
    have clear (b c : Bool) : (b && !c) = if c then false else b := by cases c <;> simp
    change answered .ok (s.clearStatus (v.extractLsb' 0 32)) = _
    rw [State.clearStatus, getLsbD_low32 (by decide), getLsbD_low32 (by decide), getLsbD_low32 (by decide), clear, clear, clear]

end Sys2Proof
end

section
/-! RBWIN and QBWIN as the host sees them while BUSY = 0 (10_state R63, R65, R66; 20_memory R105): which element, or half
of one, or pair, an access reads or writes. -/

namespace Sys2Proof

open Machine

variable {s : State} {r : Fin 4} {i j : Fin 8} {k : Nat} {n : Width} {v : BitVec 64}

/-! ## The elements' places -/

/-- The index 64·r + k of element [i][j] of register r in its file. -/
def elemIndex (r : Fin 4) (i j : Fin 8) : Nat := 64 * r.val + (8 * i.val + j.val)

theorem elemIndex_lt (r : Fin 4) (i j : Fin 8) : elemIndex r i j < 256 := by unfold elemIndex; omega

theorem elemIndex_succ {j1 : Fin 8} (h : j1.val = j.val + 1) : elemIndex r i j + 1 = elemIndex r i j1 := by
  unfold elemIndex; omega

theorem accessRegion_rbElem (hn : n = .b4 ∨ n = .b8) (hk : k + widthBytes n ≤ 8) (h0 : k % widthBytes n = 0) :
    accessRegion s.cfg (BitVec.ofNat 24 (0x001000 + 8 * elemIndex r i j + k)).toNat n = some .rbwin := by
  have := elemIndex_lt r i j
  have hw : 8 % widthBytes n = 0 := by rcases hn with rfl | rfl <;> rfl
  rw [toNat_ofNat24 (by omega), accessRegion_iff]
  refine ⟨fun x hx => regionOf_rbwin (by omega) (by omega), by rcases hn with rfl | rfl <;> rfl, ?_⟩
  rcases hn with rfl | rfl <;> (simp only [widthBytes] at *; omega)

theorem accessRegion_qbElem (hn : n = .b4 ∨ n = .b8 ∧ j.val % 2 = 0) :
    accessRegion s.cfg (BitVec.ofNat 24 (0x002000 + 4 * elemIndex r i j)).toNat n = some .qbwin := by
  have := elemIndex_lt r i j
  have hj : (4 * elemIndex r i j) % widthBytes n = 0 ∧ 4 * elemIndex r i j + widthBytes n ≤ 0x400 := by
    unfold elemIndex
    rcases hn with rfl | ⟨rfl, hj⟩ <;> simp only [widthBytes] <;> omega
  rw [toNat_ofNat24 (by omega), accessRegion_iff]
  refine ⟨fun x hx => regionOf_qbwin (by omega) (by omega), by rcases hn with rfl | ⟨rfl, _⟩ <;> rfl, ?_⟩
  rcases hn with rfl | ⟨rfl, _⟩ <;> (simp only [widthBytes] at *; omega)

/-! ## Reads -/

theorem leNat_append (bs cs : List Byte) : leNat (bs ++ cs) = leNat bs + 256 ^ bs.length * leNat cs := by
  induction bs with
  | nil => simp [leNat]
  | cons b bs ih => rw [List.cons_append, leNat, leNat, ih, List.length_cons, pow_succ]; ring

/-- A word of n bytes is below 256^n. -/
theorem toNat_mod_bytes {w n : Nat} (h : w = 8 * n) (x : BitVec w) : x.toNat % 256 ^ n = x.toNat := by
  subst h
  exact Nat.mod_eq_of_lt (x.isLt.trans_eq (pow_mul 2 8 n))

theorem dataByte_rbwin (e : Nat) (hk : k < 8) : s.dataByte .rbwin (0x001000 + 8 * e + k) = byteOf (s.rbHost e).toNat k := by
  rw [State.dataByte, show (0x001000 + 8 * e + k - 0x001000) / 8 = e by omega,
    show (0x001000 + 8 * e + k - 0x001000) % 8 = k by omega]

theorem dataByte_qbwin (e : Nat) (hk : k < 4) : s.dataByte .qbwin (0x002000 + 4 * e + k) = byteOf (s.qbHost e).toNat k := by
  rw [State.dataByte, show (0x002000 + 4 * e + k - 0x002000) / 4 = e by omega,
    show (0x002000 + 4 * e + k - 0x002000) % 4 = k by omega]

/-- A read of a data region while BUSY = 0 assembles its bytes. -/
theorem readData_idle {a : Nat} {g : Region} (hi : s.phase = .idle) (hg : g ≠ .regs) :
    s.readData g a n = BitVec.ofNat 64 (leNat ((List.range (widthBytes n)).map fun x => s.dataByte g (a + x))) := by
  rw [State.readData, if_neg hg, s.not_busy_iff.mpr hi, if_neg (by decide)]

/-- The bytes k, k + 1, … of an RB element. -/
theorem hostRead_rbElem (hi : s.phase = .idle) (hn : n = .b4 ∨ n = .b8) (hk : k + widthBytes n ≤ 8)
    (h0 : k % widthBytes n = 0) :
    s.hostRead (BitVec.ofNat 24 (0x001000 + 8 * elemIndex r i j + k)) n = answered (.okData n
      (BitVec.ofNat 64 ((s.rbHost (elemIndex r i j)).toNat / 256 ^ k % 256 ^ widthBytes n))) s := by
  have := elemIndex_lt r i j
  have bytes : (List.range (widthBytes n)).map (fun x => s.dataByte .rbwin (0x001000 + 8 * elemIndex r i j + k + x)) =
      (List.range (widthBytes n)).map fun x => byteOf (s.rbHost (elemIndex r i j)).toNat (k + x) :=
    List.map_congr_left fun x hx => by
      have := List.mem_range.mp hx
      rw [Nat.add_assoc _ k, dataByte_rbwin _ (by omega)]
  rw [hostRead_some (accessRegion_rbElem hn hk h0), readData_idle hi (by decide), toNat_ofNat24 (by omega), bytes,
    leNat_byteOf]

/-- An 8-byte read of RBWIN: the whole element. -/
theorem hostRead_rbElem_b8 (hi : s.phase = .idle) :
    s.hostRead (BitVec.ofNat 24 (0x001000 + 8 * elemIndex r i j)) .b8 =
      answered (.okData .b8 (s.rbHost (elemIndex r i j))) s := by
  have h := hostRead_rbElem (k := 0) (n := .b8) (r := r) (i := i) (j := j) hi (.inr rfl) (by decide) (by decide)
  rwa [Nat.add_zero, pow_zero, Nat.div_one, toNat_mod_bytes (show 64 = 8 * widthBytes .b8 from rfl), BitVec.ofNat_toNat,
    BitVec.setWidth_eq] at h

theorem leNat_qbElem (e : Nat) :
    leNat ((List.range 4).map fun x => s.dataByte .qbwin (0x002000 + 4 * e + x)) = (s.qbHost e).toNat := by
  have bytes : (List.range 4).map (fun x => s.dataByte .qbwin (0x002000 + 4 * e + x)) =
      (List.range 4).map fun x => byteOf (s.qbHost e).toNat (0 + x) :=
    List.map_congr_left fun x hx => by rw [dataByte_qbwin e (List.mem_range.mp hx), Nat.zero_add]
  rw [bytes, leNat_byteOf, pow_zero, Nat.div_one, toNat_mod_bytes (show 32 = 8 * 4 from rfl)]

/-- A 4-byte read of QBWIN: the element. -/
theorem hostRead_qbElem (hi : s.phase = .idle) :
    s.hostRead (BitVec.ofNat 24 (0x002000 + 4 * elemIndex r i j)) .b4 =
      answered (.okData .b4 ((s.qbHost (elemIndex r i j)).setWidth 64)) s := by
  have := elemIndex_lt r i j
  rw [hostRead_some (accessRegion_qbElem (.inl rfl)), readData_idle hi (by decide), toNat_ofNat24 (by omega), widthBytes,
    leNat_qbElem, BitVec.ofNat_toNat]

/-- An 8-byte read of QBWIN: an element of an even column and, above it, the next one. -/
theorem hostRead_qbPair (hi : s.phase = .idle) (hj : j.val % 2 = 0) :
    s.hostRead (BitVec.ofNat 24 (0x002000 + 4 * elemIndex r i j)) .b8 =
      answered (.okData .b8 (s.qbHost (elemIndex r i j + 1) ++ s.qbHost (elemIndex r i j))) s := by
  have := elemIndex_lt r i j
  have bytes : (List.range 8).map (fun x => s.dataByte .qbwin (0x002000 + 4 * elemIndex r i j + x)) =
      (List.range 4).map (fun x => s.dataByte .qbwin (0x002000 + 4 * elemIndex r i j + x)) ++
        (List.range 4).map fun x => s.dataByte .qbwin (0x002000 + 4 * (elemIndex r i j + 1) + x) := by
    rw [show List.range 8 = List.range 4 ++ (List.range 4).map (4 + ·) from rfl, List.map_append, List.map_map]
    refine congrArg _ (List.map_congr_left fun x _ => ?_)
    rw [Function.comp, show 0x002000 + 4 * elemIndex r i j + (4 + x) = 0x002000 + 4 * (elemIndex r i j + 1) + x by omega]
  rw [hostRead_some (accessRegion_qbElem (.inr ⟨rfl, hj⟩)), readData_idle hi (by decide), toNat_ofNat24 (by omega),
    widthBytes, bytes, leNat_append, leNat_qbElem, leNat_qbElem, List.length_map, List.length_range]
  congr 2
  apply BitVec.eq_of_toNat_eq
  have lo := (s.qbHost (elemIndex r i j)).isLt
  have hi := (s.qbHost (elemIndex r i j + 1)).isLt
  rw [toNat_append_eq, BitVec.toNat_ofNat]
  omega

/-! ## Writes -/

/-- A 4-byte write of QBWIN: one element. -/
theorem hostWrite_qbElem (hi : s.phase = .idle) :
    s.hostWrite (BitVec.ofNat 24 (0x002000 + 4 * elemIndex r i j)) .b4 v =
      answered .ok (s.writeQbElem (elemIndex r i j) (v.setWidth 32)) := by
  have := elemIndex_lt r i j
  have hw : s.writeRegion (BitVec.ofNat 24 (0x002000 + 4 * elemIndex r i j)).toNat .b4 = some .qbwin :=
    writeRegion_iff.mpr ⟨accessRegion_qbElem (.inl rfl), rfl, fun hb => by rw [hi] at hb; cases hb⟩
  rw [hostWrite_some hw, State.writeData, if_neg (by decide), toNat_ofNat24 (by omega), low32,
    show (0x002000 + 4 * elemIndex r i j - 0x002000) / 4 = elemIndex r i j by omega]

/-- An 8-byte write of QBWIN: an element of an even column and the next one. -/
theorem hostWrite_qbPair (hi : s.phase = .idle) (hj : j.val % 2 = 0) :
    s.hostWrite (BitVec.ofNat 24 (0x002000 + 4 * elemIndex r i j)) .b8 v =
      answered .ok ((s.writeQbElem (elemIndex r i j) (v.setWidth 32)).writeQbElem (elemIndex r i j + 1)
        ((v >>> 32).setWidth 32)) := by
  have := elemIndex_lt r i j
  have hw : s.writeRegion (BitVec.ofNat 24 (0x002000 + 4 * elemIndex r i j)).toNat .b8 = some .qbwin :=
    writeRegion_iff.mpr ⟨accessRegion_qbElem (.inr ⟨rfl, hj⟩), rfl, fun hb => by rw [hi] at hb; cases hb⟩
  have high : v.extractLsb' 32 32 = (v >>> 32).setWidth 32 := by
    apply BitVec.eq_of_toNat_eq
    rw [BitVec.extractLsb'_toNat, BitVec.toNat_setWidth, BitVec.toNat_ushiftRight]
  rw [hostWrite_some hw, State.writeData, if_pos rfl, toNat_ofNat24 (by omega), low32, high,
    show (0x002000 + 4 * elemIndex r i j - 0x002000) / 4 = elemIndex r i j by omega]

/-! ## The windows -/

/-- The address of an RB element, as 10_state R63 writes it. -/
theorem rbAddr_eq (r : Fin 4) (i j : Fin 8) :
    0x001000 + 512 * r.val + 8 * (8 * i.val + j.val) = 0x001000 + 8 * elemIndex r i j := by unfold elemIndex; omega

/-- The address of a QB element, as 10_state R65 writes it. -/
theorem qbAddr_eq (r : Fin 4) (i j : Fin 8) :
    0x002000 + 256 * r.val + 4 * (8 * i.val + j.val) = 0x002000 + 4 * elemIndex r i j := by unfold elemIndex; omega

theorem rbHost_written (h : elem s.rb[r].written i j = true) : s.rbHost (elemIndex r i j) = elem s.rb[r].vals i j :=
  (rbHost_elem s r i j).trans (if_pos h)

theorem rbHost_unwritten (h : elem s.rb[r].written i j = false) :
    s.rbHost (elemIndex r i j) = Config.drawReal s.draws (elemIndex r i j) :=
  (rbHost_elem s r i j).trans (if_neg (Bool.eq_false_iff.mp h))

theorem qbHost_written (h : elem s.qb[r].written i j = true) : s.qbHost (elemIndex r i j) = elem s.qb[r].vals i j :=
  (qbHost_elem s r i j).trans (if_pos h)

theorem qbHost_unwritten (h : elem s.qb[r].written i j = false) :
    s.qbHost (elemIndex r i j) = Config.drawInt s.draws (elemIndex r i j) :=
  (qbHost_elem s r i j).trans (if_neg (Bool.eq_false_iff.mp h))

theorem ofNat_lowHalf (x : BitVec 64) : BitVec.ofNat 64 (x.toNat / 256 ^ 0 % 256 ^ 4) = x &&& 0xFFFFFFFF := by
  apply BitVec.eq_of_toNat_eq
  rw [BitVec.toNat_ofNat, BitVec.toNat_and, show (0xFFFFFFFF : BitVec 64).toNat = 2 ^ 32 - 1 from rfl,
    Nat.and_two_pow_sub_one_eq_mod]
  omega

theorem ofNat_highHalf (x : BitVec 64) : BitVec.ofNat 64 (x.toNat / 256 ^ 4 % 256 ^ 4) = x >>> 32 := by
  apply BitVec.eq_of_toNat_eq
  have := x.isLt
  rw [BitVec.toNat_ofNat, BitVec.toNat_ushiftRight, Nat.shiftRight_eq_div_pow]
  omega

/-- Settles O56: a read gives the element or its half, and the window is read-only. -/
theorem rbWindow : Obligations.RbWindow := by
  refine fun s => ⟨fun r i j hi hw => ?_, fun a n v h1 h2 => hostWrite_isReadOnly (by unfold isReadOnly; omega)⟩
  have half (k : Nat) (hk : k + 4 ≤ 8) (h0 : k % 4 = 0) := hostRead_rbElem (r := r) (i := i) (j := j) hi (.inl rfl) hk h0
  rw [rbHost_written hw] at half
  dsimp only
  rw [rbAddr_eq]
  refine ⟨?_, ?_, ?_⟩
  · rw [hostRead_rbElem_b8 hi, rbHost_written hw]
  · rw [← ofNat_lowHalf]
    exact half 0 (by decide) (by decide)
  · rw [← ofNat_highHalf]
    exact half 4 (by decide) (by decide)

section
variable {j1 : Fin 8} {w w1 : Word}

theorem elem_vals_qbPair (h : j1 ≠ j) (r' : Fin 4) (i' j' : Fin 8) :
    elem ((s.writeQbElem (elemIndex r i j) w).writeQbElem (elemIndex r i j1) w1).qb[r'].vals i' j' =
      if r' = r ∧ i' = i ∧ j' = j then w
      else if r' = r ∧ i' = i ∧ j' = j1 then w1 else elem s.qb[r'].vals i' j' := by
  refine (elem_vals_writeQbElem (s.writeQbElem (elemIndex r i j) w) r r' i j1 i' j' w1).trans ?_
  rw [elemIndex, elem_vals_writeQbElem]
  by_cases h1 : j' = j1
  · subst h1; simp [h]
  · simp [h1]

theorem elem_written_qbPair (r' : Fin 4) (i' j' : Fin 8) :
    elem ((s.writeQbElem (elemIndex r i j) w).writeQbElem (elemIndex r i j1) w1).qb[r'].written i' j' =
      if r' = r ∧ i' = i ∧ (j' = j ∨ j' = j1) then true else elem s.qb[r'].written i' j' := by
  refine (elem_written_writeQbElem (s.writeQbElem (elemIndex r i j) w) r r' i j1 i' j' w1).trans ?_
  rw [elemIndex, elem_written_writeQbElem, ← ite_or]
  exact if_congr (by tauto) rfl rfl

/-- An element reads back what the register file holds. -/
theorem qbElem_readsBack (hi : s.phase = .idle) (hw : elem s.qb[r].written i j = true)
    (hv : elem s.qb[r].vals i j = w) :
    (s.hostRead (BitVec.ofNat 24 (0x002000 + 4 * elemIndex r i j)) .b4).resp = some (.okData .b4 (w.setWidth 64)) := by
  rw [hostRead_qbElem hi, qbHost_written hw, hv]; rfl

theorem qbPair_readsBack (hi : s.phase = .idle) (hj : j.val % 2 = 0) (h1 : j1.val = j.val + 1)
    (hw : elem s.qb[r].written i j = true) (hw1 : elem s.qb[r].written i j1 = true) (hv : elem s.qb[r].vals i j = w)
    (hv1 : elem s.qb[r].vals i j1 = w1) :
    (s.hostRead (BitVec.ofNat 24 (0x002000 + 4 * elemIndex r i j)) .b8).resp = some (.okData .b8 (w1 ++ w)) := by
  rw [hostRead_qbPair hi hj, elemIndex_succ h1, qbHost_written hw, qbHost_written hw1, hv, hv1]; rfl

end

theorem append_low32_high32 (v : BitVec 64) : (v >>> 32).setWidth 32 ++ v.setWidth 32 = v := by
  apply BitVec.eq_of_toNat_eq
  have := v.isLt
  rw [toNat_append_eq, BitVec.toNat_setWidth, BitVec.toNat_setWidth, BitVec.toNat_ushiftRight, Nat.shiftRight_eq_div_pow]
  omega

/-- Settles O23: with an unwritten source, a command's meaning is its reading form with UNINIT noted. -/
theorem uninitNamesCommand : Obligations.UninitNamesCommand := by
  intro s rd rs
  refine ⟨fun h => ?_, fun h => ?_, fun hi i j => ⟨fun h => ?_, fun h => ?_⟩⟩
  · refine ⟨?_, ?_, fun hp => ⟨?_, ?_⟩, fun b m hb hd hm => ?_⟩
    · rw [exec, execFdct_reads, noteRb_unwritten h]
    · rw [exec, execIdct_reads, noteRb_unwritten h]
    · rw [exec, execQuant_reads hp, noteRb_unwritten h, commitQuantized_eq]
    · rw [exec, execC2q_reads hp, noteRb_unwritten h, commitQuantized_eq]
    · rw [exec, execStblk_reads (tileError_none hb hd hm), noteRb_unwritten h]
  · refine ⟨fun hp => ⟨?_, ?_⟩, fun b m hb hm => ?_⟩
    · rw [exec, execDeq_reads hp, noteQb_unwritten h]
    · rw [exec, execQ2c_reads hp, noteQb_unwritten h, q2cBlock]
    · rw [exec, execStq_reads (slotError_none hb hm), noteQb_unwritten h]
  · rw [rbAddr_eq, hostRead_rbElem_b8 hi, rbHost_unwritten h]
    rfl
  · rw [qbAddr_eq, hostRead_qbElem hi, qbHost_unwritten h]
    rfl

/-- Settles O57: a write sets the one or two elements, marked as written, that the same access then reads. -/
theorem qbWindow : Obligations.QbWindow := by
  intro s r i j v hi
  dsimp only
  rw [qbAddr_eq, hostWrite_qbElem hi]
  have vals := elem_vals_writeQbElem s r (i := i) (j := j) (v := v.setWidth 32)
  have written := elem_written_writeQbElem s r (i := i) (j := j) (v := v.setWidth 32)
  refine ⟨⟨rfl, vals, written, ?_⟩, fun j1 hj h1 => ?_⟩
  · exact qbElem_readsBack (s := answered .ok (s.writeQbElem (elemIndex r i j) (v.setWidth 32))) hi
      ((written r i j).trans (if_pos ⟨rfl, rfl, rfl⟩)) ((vals r i j).trans (if_pos ⟨rfl, rfl, rfl⟩))
  have ne : j1 ≠ j := by rintro rfl; omega
  rw [hostWrite_qbPair hi hj, elemIndex_succ h1]
  have vals := elem_vals_qbPair (s := s) (r := r) (i := i) (w := v.setWidth 32) (w1 := (v >>> 32).setWidth 32) ne
  have written := elem_written_qbPair (s := s) (r := r) (i := i) (j := j) (j1 := j1) (w := v.setWidth 32)
    (w1 := (v >>> 32).setWidth 32)
  refine ⟨⟨rfl, vals, written, ?_⟩, fun h h' => ?_⟩
  · have back := qbPair_readsBack (s := answered .ok ((s.writeQbElem (elemIndex r i j) (v.setWidth 32)).writeQbElem
        (elemIndex r i j1) ((v >>> 32).setWidth 32))) hi hj h1
      ((written r i j).trans (if_pos ⟨rfl, rfl, .inl rfl⟩)) ((written r i j1).trans (if_pos ⟨rfl, rfl, .inr rfl⟩))
      ((vals r i j).trans (if_pos ⟨rfl, rfl, rfl⟩))
      ((vals r i j1).trans ((if_neg fun h => ne h.2.2).trans (if_pos ⟨rfl, rfl, rfl⟩)))
    rwa [append_low32_high32] at back
  · rw [hostRead_qbPair hi hj, elemIndex_succ h1, qbHost_written h, qbHost_written h']

end Sys2Proof
end

section
/-! Accesses to the memories IN, OUT and COEF while BUSY = 0 (10_state R71, R76; 20_memory R103, R105): what every such
access does, then where the samples and the coefficients lie. -/

namespace Sys2Proof

open Machine

variable {s : State} {g : Region} {a : Nat} {n : Width} {v : BitVec 64}

/-! ## Accesses to a memory -/

/-- The regions that hold memory: IN, OUT and COEF (10_state R70). -/
def memoryRegion (g : Region) : Prop := g = .inPic ∨ g = .outPic ∨ g = .coef

theorem memoryRegion.ne_regs (hg : memoryRegion g) : g ≠ .regs := by rcases hg with rfl | rfl | rfl <;> decide

/-- The state after an n-byte write of `v` at `a` in a memory. -/
def stored (a : Nat) (n : Width) (v : BitVec 64) (s : State) : State :=
  answered .ok (s.withMem (s.mem.write a (leBytes (widthBytes n) v.toNat)))

theorem lookup_stored (x : Nat) :
    (stored a n v s).mem.lookup x = if a ≤ x ∧ x < a + widthBytes n then some (BitVec.ofNat 8 (v.toNat / 256 ^ (x - a)))
      else s.mem.lookup x := by
  refine (lookup_write s.mem a _ x).trans ?_
  rw [length_leBytes]
  by_cases h : a ≤ x ∧ x < a + widthBytes n
  · rw [if_pos h, if_pos h, getElem?_leBytes (by omega)]
  · rw [if_neg h, if_neg h]

theorem byteAt_stored {i : Nat} (h : i < widthBytes n) :
    (stored a n v s).byteAt (a + i) = BitVec.ofNat 8 (v.toNat / 256 ^ i) :=
  byteAt_some (by rw [lookup_stored, if_pos (by omega), Nat.add_sub_cancel_left])

section
variable (hi : s.phase = .idle) (hg : memoryRegion g) (ha : accessRegion s.cfg (BitVec.ofNat 24 a).toNat n = some g)
  (hlt : a < 2 ^ 24)
include hi hg ha hlt

theorem hostWrite_memory : s.hostWrite (BitVec.ofNat 24 a) n v = stored a n v s := by
  have hro : readOnly g (BitVec.ofNat 24 a).toNat = false := by rcases hg with rfl | rfl | rfl <;> rfl
  rw [hostWrite_some (writeRegion_iff.mpr ⟨ha, hro, fun hb => by rw [hi] at hb; cases hb⟩), toNat_ofNat24 hlt]
  rcases hg with rfl | rfl | rfl <;> rfl

theorem hostRead_memory :
    s.hostRead (BitVec.ofNat 24 a) n =
      answered (.okData n (BitVec.ofNat 64 (leNat ((List.range (widthBytes n)).map fun i => s.byteAt (a + i))))) s := by
  rw [hostRead_some ha, readData_idle hi hg.ne_regs, toNat_ofNat24 hlt]
  rcases hg with rfl | rfl | rfl <;> rfl

/-- A write reads back. -/
theorem stored_readsBack :
    ((stored a n v s).hostRead (BitVec.ofNat 24 a) n).resp =
      some (.okData n (BitVec.ofNat 64 (v.toNat % 256 ^ widthBytes n))) := by
  have bytes : (List.range (widthBytes n)).map (fun i => (stored a n v s).byteAt (a + i)) =
      leBytes (widthBytes n) v.toNat := by
    refine List.ext_getElem (by simp) fun i h1 h2 => ?_
    have hlt : i < widthBytes n := by simpa using h1
    rw [List.getElem_map, List.getElem_range, byteAt_stored hlt]
    exact Option.some.inj ((getElem?_leBytes hlt).symm.trans (List.getElem?_eq_getElem h2))
  rw [hostRead_memory (s := stored a n v s) hi hg ha hlt, bytes, leNat_leBytes]
  rfl

/-- A read gives each byte that is stored, or its draw. -/
theorem hostRead_memory_bytes :
    ∃ d, s.hostRead (BitVec.ofNat 24 a) n = answered (.okData n d) s ∧ d.toNat < 256 ^ widthBytes n ∧
      ∀ i < widthBytes n, BitVec.ofNat 8 (d.toNat / 256 ^ i) =
        (s.mem.lookup (a + i)).getD (Config.drawByte s.draws (a + i)) := by
  have e := hostRead_some ha
  rw [toNat_ofNat24 hlt] at e
  exact ⟨_, e, readData_bytes hg (s.not_busy_iff.mpr hi)⟩

end

/-! ## Samples -/

/-- An aligned access at a sample lies inside its row (20_memory R109; MAX_W is a multiple of 16, 00_scope R11). -/
theorem row_access {w x : Nat} (hw : w % 16 = 0) (hx : x < w) (h0 : x % widthBytes n = 0) : x + widthBytes n ≤ w := by
  cases n <;> simp only [widthBytes] at * <;> omega

/-- The address of a sample is aligned as its column is. -/
theorem sample_aligned {w x : Nat} (hw : w % 16 = 0) (h0 : x % widthBytes n = 0) (p y : Nat) :
    (16 * p + y * w + x) % widthBytes n = 0 := by
  obtain ⟨q, rfl⟩ := Nat.dvd_of_mod_eq_zero hw
  rw [Nat.mul_left_comm]
  generalize y * q = z
  cases n <;> simp only [widthBytes] at * <;> omega

/-- An access at a sample of IN or OUT lies in that picture (20_memory R101). -/
theorem accessRegion_sample {base c x y : Nat} (hv : s.cfg.Valid) (hc : c ≤ 2) (hx : x < s.cfg.maxW) (hy : y < s.cfg.maxH)
    (h0 : x % widthBytes n = 0) (hb : base = 0x100000 ∨ base = 0x400000) :
    base + c * 0x100000 + y * s.cfg.maxW + x < 2 ^ 24 ∧
      ∃ g, memoryRegion g ∧ accessRegion s.cfg (base + c * 0x100000 + y * s.cfg.maxW + x) n = some g := by
  have hrow := row_access hv.wMultiple hx h0
  have harea := hv.area
  have inside (k : Nat) (hk : k < widthBytes n) : y * s.cfg.maxW + (x + k) < s.cfg.maxW * s.cfg.maxH :=
    plane_offset (by omega) hy
  have aligned (p : Nat) := sample_aligned hv.wMultiple h0 p y
  have start := inside 0 (widthBytes_pos n)
  refine ⟨by omega, ?_⟩
  rcases hb with rfl | rfl
  · refine ⟨.inPic, .inl rfl, accessRegion_iff.mpr ⟨fun k hk => ?_, rfl, ?_⟩⟩
    · have := inside k hk
      exact regionOf_inPic (by omega) (by omega) (by omega)
    · rw [show 0x100000 + c * 0x100000 = 16 * (0x10000 + c * 0x10000) by ring]
      exact aligned _
  · refine ⟨.outPic, .inr (.inl rfl), accessRegion_iff.mpr ⟨fun k hk => ?_, rfl, ?_⟩⟩
    · have := inside k hk
      exact regionOf_outPic (by omega) (by omega) (by omega)
    · rw [show 0x400000 + c * 0x100000 = 16 * (0x40000 + c * 0x10000) by ring]
      exact aligned _

/-- Settles O58: an aligned access at a sample is an access to its picture's memory. -/
theorem pictureSamples : Obligations.PictureSamples := by
  intro s base c x y n v hv hi hc hx hy h0 hb
  obtain ⟨hlt, g, hg, ha⟩ := accessRegion_sample hv hc hx hy h0 hb
  rw [← toNat_ofNat24 hlt] at ha
  dsimp only
  rw [hostWrite_memory hi hg ha hlt]
  exact ⟨rfl, lookup_stored, stored_readsBack hi hg ha hlt, hostRead_memory_bytes hi hg ha hlt⟩

/-! ## Coefficients -/

/-- An access at a coefficient, or at a pair of them, lies in COEF (10_state R76; 20_memory R101, R108). -/
theorem accessRegion_coefficient {m b : Nat} {i j : Fin 8} (hv : s.cfg.Valid) (hm : m < maxMb s.cfg) (hb : b < 6)
    (hn : n = .b4 ∨ (n = .b8 ∧ j.val % 2 = 0)) :
    coefAddr m b + 4 * (8 * i.val + j.val) < 2 ^ 24 ∧
      accessRegion s.cfg (coefAddr m b + 4 * (8 * i.val + j.val)) n = some .coef := by
  have hmax := maxMb_le hv
  have haligned : 4 * (8 * i.val + j.val) % widthBytes n = 0 ∧ 4 * (8 * i.val + j.val) + widthBytes n ≤ 256 := by
    rcases hn with rfl | ⟨rfl, hj⟩ <;> simp only [widthBytes] <;> omega
  unfold coefAddr
  refine ⟨by omega, accessRegion_iff.mpr ⟨fun k hk => regionOf_coef (by omega) (by omega) (by omega), ?_, ?_⟩⟩
  · rcases hn with rfl | ⟨rfl, _⟩ <;> rfl
  · rcases hn with rfl | ⟨rfl, _⟩ <;> simp only [widthBytes] at * <;> omega

/-- The low four bytes of a number are those of its low word. -/
theorem ofNat_byte_mod (u : Nat) {i : Nat} (hi : i < 4) :
    BitVec.ofNat 8 (u / 256 ^ i) = BitVec.ofNat 8 (u % 2 ^ 32 / 256 ^ i) := by
  apply BitVec.eq_of_toNat_eq
  rw [BitVec.toNat_ofNat, BitVec.toNat_ofNat]
  interval_cases i <;> omega

/-- Four of the bytes that a write stores, as a word. -/
theorem wordAt_stored {o : Nat} (h : o + 4 ≤ widthBytes n) :
    (stored a n v s).wordAt (a + o) = (v >>> (8 * o)).setWidth 32 := by
  refine wordAt_of_bytes fun i hi => ?_
  rw [lookup_stored, if_pos (by omega), show a + o + i - a = o + i by omega, pow_add, ← Nat.div_div_eq_div_mul,
    BitVec.toNat_setWidth, BitVec.toNat_ushiftRight, Nat.shiftRight_eq_div_pow, pow_mul, ofNat_byte_mod _ hi]
  rfl

/-- Settles O59: an access of four or eight bytes at a coefficient is an access to COEF, and its words are coefficients. -/
theorem coefficientElements : Obligations.CoefficientElements := by
  intro s m b i j n v hv hi hm hb hn
  obtain ⟨hlt, ha⟩ := accessRegion_coefficient (i := i) hv hm hb hn
  have hg : memoryRegion .coef := .inr (.inr rfl)
  rw [← toNat_ofNat24 hlt] at ha
  have word (o : Nat) (j' : Fin 8) (hj : 4 * j'.val = 4 * j.val + o) (ho : o + 4 ≤ widthBytes n) :
      elem ((stored (coefAddr m b + 4 * (8 * i.val + j.val)) n v s).coef m b) i j' = (v >>> (8 * o)).setWidth 32 := by
    rw [State.coef, elem_mkBlock, ← wordAt_stored ho]
    congr 1
    omega
  dsimp only
  rw [← coefAddr, hostWrite_memory hi hg ha hlt]
  refine ⟨rfl, ?_, fun j1 h8 h1 => ?_, lookup_stored, stored_readsBack hi hg ha hlt, hostRead_memory_bytes hi hg ha hlt⟩
  · exact word 0 j rfl (by rcases hn with rfl | ⟨rfl, _⟩ <;> decide)
  · exact word 4 j1 (by omega) (by rw [h8]; decide)

end Sys2Proof
end

section
/-! The access rules of 20_memory and what every step keeps: when the bus refuses an access (R110), why no access reaches
an input of the running command (R123), and the invariant over each kind of move. -/

namespace Sys2Proof

open Machine

variable {s t : State} {r : Region} {a : Nat} {n : Width} {addr : Offset} {v : BitVec 64}

/-! ## What an access can do -/

theorem regionOf_of_accessRegion {c : Params} (h : accessRegion c a n = some r) : regionOf c a = some r :=
  (accessRegion_iff.mp h).1 0 (widthBytes_pos n)

/-- Everything a host read can do. -/
theorem hostRead_cases (s : State) (addr : Offset) (n : Width) :
    s.hostRead addr n = busErrored (.busErrorData n 0) s ∨ ∃ d, s.hostRead addr n = answered (.okData n d) s := by
  cases h : accessRegion s.cfg addr.toNat n with
  | none => exact .inl (hostRead_none h)
  | some r => exact .inr ⟨_, hostRead_some h⟩

/-- Everything a host write can do. -/
theorem hostWrite_cases (s : State) (addr : Offset) (n : Width) (v : BitVec 64) :
    s.hostWrite addr n v = busErrored .busError s ∨
      ∃ r, s.writeRegion addr.toNat n = some r ∧
        s.hostWrite addr n v = answered .ok (s.writeData r addr.toNat n v) := by
  cases h : s.writeRegion addr.toNat n with
  | none => exact .inl (hostWrite_none h)
  | some r => exact .inr ⟨r, rfl, hostWrite_some h⟩

/-- A write to a register clears bits of STATUS, issues a command, or sets IE or an operand of the commands. -/
theorem writeReg_cases (s : State) (a : Nat) (w : Word) :
    (a = 0x00C ∧ s.writeReg a w = s.clearStatus w) ∨ s.writeReg a w = s.issue w ∨
      ∃ ie p x y k, s.writeReg a w = { s with ie := ie, p := p, width := x, height := y, mbCount := k } := by
  unfold State.writeReg
  split_ifs with h1 h2
  · exact .inr (.inr ⟨_, _, _, _, _, rfl⟩)
  · exact .inl ⟨h2, rfl⟩
  · exact .inr (.inl rfl)
  all_goals exact .inr (.inr ⟨_, _, _, _, _, rfl⟩)

/-- A write that R110 does not refuse is to a register, to QB or to a memory; RBWIN is read-only. -/
theorem writeData_cases (h : s.writeRegion a n = some r) (v : BitVec 64) :
    s.writeData r a n v = s.writeReg a (v.extractLsb' 0 32) ∨ (∃ qb, s.writeData r a n v = { s with qb := qb }) ∨
      memoryRegion r ∧ s.writeData r a n v = s.withMem (s.mem.write a (leBytes (widthBytes n) v.toNat)) := by
  cases r with
  | regs => exact .inl rfl
  | rbwin =>
    obtain ⟨_, hro, _⟩ := writeRegion_iff.mp h
    exact absurd hro (Bool.false_ne_true ·.symm)
  | qbwin =>
    refine .inr (.inl ?_)
    unfold State.writeData
    split_ifs <;> exact ⟨_, rfl⟩
  | inPic => exact .inr (.inr ⟨.inl rfl, rfl⟩)
  | outPic => exact .inr (.inr ⟨.inr (.inl rfl), rfl⟩)
  | coef => exact .inr (.inr ⟨.inr (.inr rfl), rfl⟩)

/-! ## Bus errors -/

/-- The two registers whose write BUSY does not refuse (20_memory R110 (d)). -/
theorem writableWhileBusy_iff : writableWhileBusy a = true ↔ a = 0x008 ∨ a = 0x00C := by
  simp [writableWhileBusy, offCtrl, offStatus]

/-- No region: one of the conditions (a)–(d) of 20_memory R110. -/
theorem writeRegion_none_iff :
    s.writeRegion a n = none ↔
      badPlace s.cfg a n ∨ badWidth s.cfg a n ∨ isReadOnly a ∨ (s.phase = .busy ∧ a ≠ 0x008 ∧ a ≠ 0x00C) := by
  rw [← or_assoc, ← accessRegion_none_iff, Option.eq_none_iff_forall_not_mem]
  simp only [Option.mem_def, writeRegion_iff]
  cases hr : accessRegion s.cfg a n with
  | none => simp
  | some r =>
    have h0 := regionOf_of_accessRegion hr
    have hregs : a = 0x008 ∨ a = 0x00C → r = .regs := fun h =>
      Option.some.inj (h0.symm.trans (regionOf_regs (by omega)))
    rw [← readOnly_iff h0]
    simp only [Option.some.injEq, writableWhileBusy_iff]
    constructor
    · intro h
      by_contra hc
      simp only [reduceCtorEq, false_or, not_or, not_and, Bool.not_eq_true, ne_eq, not_not] at hc
      have hw : s.phase = .busy → a = 0x008 ∨ a = 0x00C := fun hb => or_iff_not_imp_left.mpr (hc.2 hb)
      exact h r ⟨rfl, hc.1, fun hb => ⟨hregs (hw hb), hw hb⟩⟩
    · rintro h _ ⟨rfl, hro, hbusy⟩
      rcases h with h | h | ⟨hb, h8, hC⟩
      · cases h
      · rw [hro] at h; cases h
      · exact (hbusy hb).2.elim h8 hC

/-- Only a write to STATUS clears BUSERR. -/
theorem writeData_busErr (h : s.writeRegion a n = some r) (ha : a ≠ 0x00C) : (s.writeData r a n v).busErr = s.busErr := by
  rcases writeData_cases h v with e | ⟨_, e⟩ | ⟨_, e⟩ <;> rw [e]
  · rcases writeReg_cases s a (v.extractLsb' 0 32) with ⟨h', _⟩ | e | ⟨_, _, _, _, _, e⟩
    · exact absurd h' ha
    · rw [e]; rfl
    · rw [e]
  · rfl

/-- Settles O51: an access is refused exactly where it has no region to be performed in. -/
theorem busErrors : Obligations.BusErrors := by
  intro s addr n v
  rw [← accessRegion_none_iff, ← writeRegion_none_iff]
  refine ⟨hostRead_none, fun h => ?_, hostWrite_none, fun h => ?_⟩
  · obtain ⟨r, hr⟩ := Option.ne_none_iff_exists'.mp h
    refine ⟨⟨_, hostRead_some hr⟩, fun hregs => ?_⟩
    obtain rfl : r = .regs := Option.some.inj ((regionOf_of_accessRegion hr).symm.trans hregs)
    exact hostRead_some hr
  · obtain ⟨r, hr⟩ := Option.ne_none_iff_exists'.mp h
    rw [hostWrite_some hr]
    exact ⟨rfl, writeData_busErr hr⟩

/-! ## Inputs of the running command -/

/-- `t` is `s` but for IE, STATUS, and the model's own record of the access (logs 3 and 4): nothing that a command reads
is changed. -/
def SameInputs (s t : State) : Prop :=
  t = { s with ie := t.ie, done := t.done, err := t.err, busErr := t.busErr, errCode := t.errCode,
               resp := t.resp, draws := t.draws }

theorem sameInputs_hostRead (s : State) (addr : Offset) (n : Width) : SameInputs s (s.hostRead addr n) := by
  rcases hostRead_cases s addr n with e | ⟨_, e⟩ <;> rw [e] <;> rfl

/-- While BUSY = 1 a write reaches CTRL and STATUS only (20_memory R110 (d)). -/
theorem sameInputs_hostWrite (hb : s.phase = .busy) (addr : Offset) (n : Width) (v : BitVec 64) :
    SameInputs s (s.hostWrite addr n v) := by
  rcases hostWrite_cases s addr n v with e | ⟨r, hr, e⟩ <;> rw [e]
  · rfl
  · obtain ⟨_, _, hbusy⟩ := writeRegion_iff.mp hr
    obtain ⟨rfl, hw⟩ := hbusy hb
    rcases writableWhileBusy_iff.mp hw with ha | ha <;> rw [ha] <;> rfl

/-- Settles O7: a read records its answer only, and a write while BUSY = 1 is refused unless it is to CTRL or STATUS. -/
theorem busyInputsKept : Obligations.BusyInputsKept := by
  intro s addr n v hb t ht
  have h : SameInputs s t := by
    rcases ht with rfl | rfl
    · exact sameInputs_hostRead s addr n
    · exact sameInputs_hostWrite hb addr n v
  rw [h]
  exact ⟨hb, rfl, rfl, rfl, rfl, rfl, rfl, rfl, rfl, rfl, rfl⟩

/-! ## Memory stays mapped -/

/-- The bytes that a performed write covers lie in its region (20_memory R110 (a)). -/
theorem memoryMapped_write (h : memoryMapped s.cfg s.mem) (hr : s.writeRegion a n = some r) (hg : memoryRegion r)
    {bs : List Byte} (hlen : bs.length = widthBytes n) : memoryMapped s.cfg (s.mem.write a bs) := fun x hx => by
  rcases mem_write hx with hx | ⟨hlo, hhi⟩
  · exact h x hx
  · have hin := (accessRegion_iff.mp (writeRegion_iff.mp hr).1).1 (x.1 - a) (by omega)
    rw [Nat.add_sub_cancel' hlo] at hin
    rcases hg with rfl | rfl | rfl
    · exact .inl hin
    · exact .inr (.inl hin)
    · exact .inr (.inr hin)

/-- The places that the engine writes are mapped: samples of the picture in OUT, and slots in COEF (20_memory R101). -/
theorem regionOf_enginePlace (hv : s.cfg.Valid) (h : enginePlace s a) :
    regionOf s.cfg a = some .outPic ∨ regionOf s.cfg a = some .coef := by
  rcases h with ⟨hd, c, x, y, hc, hx, hy, rfl⟩ | ⟨hlo, hhi⟩
  · obtain ⟨_, _, _, _, hw, hh⟩ := dims_tiles hd
    have hoff : y * s.cfg.maxW + x < s.cfg.maxW * s.cfg.maxH := plane_offset (by omega) (by omega)
    have harea := hv.area
    unfold outAddr
    exact .inl (regionOf_outPic (by omega) (by omega) (by omega))
  · have hmax := maxMb_le hv
    unfold slotAddr at hlo hhi
    exact .inr (regionOf_coef (by omega) (by omega) (by omega))

theorem memoryMapped_writeRuns {runs : List (Nat × List Byte)} (hv : s.cfg.Valid) (h : memoryMapped s.cfg s.mem)
    (hruns : ∀ q ∈ runs, ∀ a, covers q a → enginePlace s a) : memoryMapped s.cfg (s.mem.writeRuns runs) := fun x hx => by
  rcases mem_writeRuns hx with hx | ⟨q, hq, hc⟩
  · exact h x hx
  · exact .inr (regionOf_enginePlace hv (hruns q hq x.1 hc))

/-! ## The host keeps the invariant -/

theorem Invariant.answered (h : Invariant s) (q : Response) : Invariant (answered q s) := { h with }

theorem Invariant.busErrored (h : Invariant s) (q : Response) : Invariant (busErrored q s) := { h with }

theorem Invariant.hostRead (h : Invariant s) (addr : Offset) (n : Width) : Invariant (s.hostRead addr n) := by
  rcases hostRead_cases s addr n with e | ⟨_, e⟩ <;> rw [e]
  · exact h.busErrored _
  · exact h.answered _

/-- ERR and ERRCODE are cleared together (10_state R47, R50). -/
theorem Invariant.clearStatus (h : Invariant s) (w : Word) : Invariant (s.clearStatus w) := by
  have record := h.errRecord
  have low := h.errCodeLow
  have code := s.clearStatus_errCode w
  have err := s.clearStatus_err w
  cases hw : w.getLsbD 2 <;> rw [hw] at code err
  · rw [Bool.not_false, Bool.and_true] at err
    exact { h with errRecord := by rw [err, code]; exact record, errCodeLow := by rw [code]; exact low }
  · exact { h with errRecord := by rw [err, code]; simp, errCodeLow := by rw [code]; exact Nat.zero_le 6 }

theorem Invariant.writeReg (h : Invariant s) (a : Nat) (w : Word) : Invariant (s.writeReg a w) := by
  rcases writeReg_cases s a w with ⟨_, e⟩ | e | ⟨_, _, _, _, _, e⟩ <;> rw [e]
  · exact h.clearStatus w
  · exact { h with commandKept := fun _ => rfl }
  · exact { h with }

theorem Invariant.hostWrite (h : Invariant s) (addr : Offset) (n : Width) (v : BitVec 64) :
    Invariant (s.hostWrite addr n v) := by
  rcases hostWrite_cases s addr n v with e | ⟨r, hr, e⟩ <;> rw [e]
  · exact h.busErrored _
  · refine Invariant.answered ?_ _
    rcases writeData_cases hr v with e | ⟨_, e⟩ | ⟨hg, e⟩ <;> rw [e]
    · exact h.writeReg _ _
    · exact { h with }
    · exact { h with
        canonical := wf_write h.canonical _ _
        mapped := memoryMapped_write h.mapped hr hg (length_leBytes _ _) }

/-! ## The engine and reset keep the invariant -/

/-- The codes of 60_exceptions R301 are 1 to 6. -/
theorem errorCode_range (e : CmdError) : errorCode e ≠ 0#4 ∧ (errorCode e).toNat ≤ 6 := by
  cases e <;> decide

theorem Invariant.failWith (h : Invariant s) (e : CmdError) : Invariant (failWith (errorCode e) s) := by
  obtain ⟨hne, hle⟩ := errorCode_range e
  have record := h.errRecord
  have code : (Sys2Proof.failWith (errorCode e) s).errCode = if s.err then s.errCode else errorCode e := rfl
  cases herr : s.err
  · rw [herr, if_neg Bool.false_ne_true] at code
    exact { h with
      errRecord := by rw [code]; exact iff_of_false Bool.true_eq_false.mp hne
      errCodeLow := by rw [code]; exact hle
      commandKept := nofun }
  · rw [herr, if_pos rfl] at code
    rw [herr] at record
    exact { h with
      errRecord := by rw [code]; exact record
      errCodeLow := by rw [code]; exact h.errCodeLow
      commandKept := nofun }

/-- A command keeps the invariant: it completes, it writes places that are mapped, and it keeps RB finite. -/
theorem Invariant.exec {i : Instr} (h : Invariant s) (ht : exec i s = .next t) : Invariant t := by
  have hfin : t.uninit = none → rbFinite t := fun hu => exec_rbFinite ht hu (h.finiteRb (uninit_none ht hu))
  rcases exec_next ht with ⟨e, et⟩ | ⟨rb, qb, runs, mb, ⟨et, hruns⟩, _⟩
  · generalize t.uninit = u at et hfin
    subst et
    exact Invariant.failWith (s := { s with uninit := u }) { h with finiteRb := hfin } e
  · generalize t.uninit = u at et hfin
    subst et
    exact { h with
      finiteRb := hfin
      canonical := wf_writeRuns h.canonical runs
      mapped := memoryMapped_writeRuns h.params h.mapped hruns
      commandKept := nofun }

theorem Invariant.engineTurn (h : Invariant s) (ht : engineTurn s = .next t) : Invariant t := by
  unfold Machine.engineTurn engineStep at ht
  split at ht
  · split at ht
    · exact h.exec ht
    · exact Host.Outcome.next.inj ht ▸ h.failWith .illegalCommand
  · exact Host.Outcome.next.inj ht ▸ h

/-- The state after reset satisfies the invariant, for every legal choice of parameters (70_reset R341). -/
theorem invariant_resetWith {c : Params} (hc : c.Valid) : Invariant (State.resetWith c) where
  params := hc
  finiteRb _ := rbFinite_reset c
  canonical := rfl
  mapped := nofun
  errRecord := iff_of_true rfl rfl
  errCodeLow := Nat.zero_le 6
  commandKept := nofun

theorem Invariant.resetMove (h : Invariant s) (ht : resetMove s = .next t) : Invariant t := by
  unfold Machine.resetMove at ht
  split at ht
  · cases ht
  · exact Host.Outcome.next.inj ht ▸ { invariant_resetWith h.params with }

theorem Invariant.performMove {m : Move} (h : Invariant s) (ht : performMove m s = .next t) : Invariant t := by
  cases m with
  | read addr n => exact Host.Outcome.next.inj ht ▸ h.hostRead addr n
  | write addr n v => exact Host.Outcome.next.inj ht ▸ h.hostWrite addr n v
  | engine => exact h.engineTurn ht
  | reset => exact h.resetMove ht

/-- Settles O12: a step is one move, and each kind of move keeps the invariant. -/
theorem stepKeepsInvariant : Obligations.StepKeepsInvariant := by
  intro s t h ht
  unfold step nextMove at ht
  split at ht
  · exact h.engineTurn ht
  · next ms _ => exact Invariant.performMove (s := s.withMoves ms) { h with } ht

end Sys2Proof
end

section
/-! Decoding and encoding are inverse (30_encoding R141, R149, R153). A row of the opcode map matches a word exactly when
the word is the encoding of the command that the row builds from it (`matchesWord_iff_encode`). With that one equivalence,
decoding gives a command exactly when it is well-formed and the word is its encoding. -/

namespace Sys2Proof

variable {w v : Word} {i : Instr} {r : OpRow} {opc : BitVec 8} {rd rs : Fin 4} {b : BitVec 3} {m : BitVec 16}

/-! ## A word and its fields -/

/-- A word is its MBI, bit 15, BSEL, RS, RD and OPC in a row (30_encoding R141). -/
theorem append_fields (w : Word) :
    (fieldsOf w).mbi ++ BitVec.ofBool (w.getLsbD 15) ++ (fieldsOf w).bsel ++ BitVec.ofFin (w := 2) (fieldsOf w).rs ++
      BitVec.ofFin (w := 2) (fieldsOf w).rd ++ opcOf w = w := by
  apply BitVec.eq_of_getLsbD_eq
  intro k hk
  simp only [fieldsOf, opcOf, BitVec.ofFin_toFin, BitVec.getLsbD_append, BitVec.getLsbD_extractLsb', BitVec.getLsbD_ofBool]
  interval_cases k <;> simp

/-- OPC, the operand fields and bit 15 determine a word. -/
theorem word_eq_iff :
    w = v ↔ opcOf w = opcOf v ∧ w.getLsbD 15 = v.getLsbD 15 ∧ fieldsOf w = fieldsOf v := by
  constructor
  · rintro rfl
    exact ⟨rfl, rfl, rfl⟩
  · rintro ⟨hopc, hbit, hf⟩
    rw [← append_fields w, ← append_fields v, hopc, hbit, hf]

/-- The fields that a command word was built from (30_encoding R141). -/
@[simp] theorem fieldsOf_commandWord : fieldsOf (commandWord opc rd rs b m) = ⟨rd, rs, b, m⟩ := by
  rw [commandWord_halves, fieldsOf_append]
  simp only [BitVec.extractLsb'_append_eq_ite]
  simp

/-- A word is the command word with the given fields exactly when these are its fields and bit 15 is 0. -/
theorem commandWord_eq_iff : commandWord opc rd rs b m = w ↔
    opcOf w = opc ∧ w.getLsbD 15 = false ∧ rd = (fieldsOf w).rd ∧ rs = (fieldsOf w).rs ∧ b = (fieldsOf w).bsel ∧
      m = (fieldsOf w).mbi := by
  obtain ⟨hopc, hbit⟩ := Laws.EncodedOpcode.commandWord_opcode opc rd rs b m
  rw [word_eq_iff, hopc, hbit, fieldsOf_commandWord, eq_comm, eq_comm (a := false)]
  simp only [fieldsOf, Fields.mk.injEq]

/-! ## The masks of the opcode map -/

theorem opcOf_and : opcOf (w &&& v) = opcOf w &&& opcOf v := BitVec.extractLsb'_and

theorem fieldsOf_and : fieldsOf (w &&& v) =
    ⟨(fieldsOf w).rd &&& (fieldsOf v).rd, (fieldsOf w).rs &&& (fieldsOf v).rs, (fieldsOf w).bsel &&& (fieldsOf v).bsel,
      (fieldsOf w).mbi &&& (fieldsOf v).mbi⟩ := by
  simp only [fieldsOf, BitVec.extractLsb'_and, BitVec.toFin_and]

/-- A mask that covers OPC and bit 15 matches an opcode exactly when these two agree and every masked field is 0. -/
theorem and_eq_commandWord_iff {mask : Word} (hopc : opcOf mask = BitVec.allOnes 8) (hbit : mask.getLsbD 15 = true) :
    (w &&& mask == commandWord opc 0 0 0 0) = true ↔
      opcOf w = opc ∧ w.getLsbD 15 = false ∧ 0 = (fieldsOf w).rd &&& (fieldsOf mask).rd ∧
        0 = (fieldsOf w).rs &&& (fieldsOf mask).rs ∧ 0 = (fieldsOf w).bsel &&& (fieldsOf mask).bsel ∧
          0 = (fieldsOf w).mbi &&& (fieldsOf mask).mbi := by
  rw [beq_iff_eq, eq_comm, commandWord_eq_iff, opcOf_and, hopc, BitVec.and_allOnes, BitVec.getLsbD_and, hbit, Bool.and_true,
    fieldsOf_and]

theorem reg_and_zero (x : Fin 4) : x &&& 0 = 0 := by decide +revert

theorem reg_and_three (x : Fin 4) : x &&& 3 = x := by decide +revert

/-- The mask of a command without operands. -/
theorem matches_plain_iff (opc : BitVec 8) (w : Word) :
    (w &&& 0xFFFFFFFF == commandWord opc 0 0 0 0) = true ↔ commandWord opc 0 0 0 0 = w := by
  rw [and_eq_commandWord_iff rfl rfl, commandWord_eq_iff,
    show fieldsOf 0xFFFFFFFF = ⟨3, 3, BitVec.allOnes 3, BitVec.allOnes 16⟩ from rfl]
  simp only [reg_and_three, BitVec.and_allOnes]

/-- The mask of a command with RD and RS. -/
theorem matches_regs_iff (opc : BitVec 8) (w : Word) :
    (w &&& 0xFFFFF0FF == commandWord opc 0 0 0 0) = true ↔
      commandWord opc (fieldsOf w).rd (fieldsOf w).rs 0 0 = w := by
  rw [and_eq_commandWord_iff rfl rfl, commandWord_eq_iff,
    show fieldsOf 0xFFFFF0FF = ⟨0, 0, BitVec.allOnes 3, BitVec.allOnes 16⟩ from rfl]
  simp only [reg_and_zero, BitVec.and_allOnes]

/-- The mask of a command that loads a block register. -/
theorem matches_load_iff (opc : BitVec 8) (w : Word) :
    (w &&& 0x00008CFF == commandWord opc 0 0 0 0) = true ↔
      commandWord opc (fieldsOf w).rd 0 (fieldsOf w).bsel (fieldsOf w).mbi = w := by
  rw [and_eq_commandWord_iff rfl rfl, commandWord_eq_iff, show fieldsOf 0x00008CFF = ⟨0, 3, 0#3, 0#16⟩ from rfl]
  simp only [reg_and_zero, reg_and_three, BitVec.and_zero, BitVec.ofNat_eq_ofNat]

/-- The mask of a command that stores a block register. -/
theorem matches_store_iff (opc : BitVec 8) (w : Word) :
    (w &&& 0x000083FF == commandWord opc 0 0 0 0) = true ↔
      commandWord opc 0 (fieldsOf w).rs (fieldsOf w).bsel (fieldsOf w).mbi = w := by
  rw [and_eq_commandWord_iff rfl rfl, commandWord_eq_iff, show fieldsOf 0x000083FF = ⟨3, 0, 0#3, 0#16⟩ from rfl]
  simp only [reg_and_zero, reg_and_three, BitVec.and_zero, BitVec.ofNat_eq_ofNat]

/-- The mask of a command with MBI alone. -/
theorem matches_mbi_iff (opc : BitVec 8) (w : Word) :
    (w &&& 0x0000FFFF == commandWord opc 0 0 0 0) = true ↔ commandWord opc 0 0 0 (fieldsOf w).mbi = w := by
  rw [and_eq_commandWord_iff rfl rfl, commandWord_eq_iff,
    show fieldsOf 0x0000FFFF = ⟨3, 3, BitVec.allOnes 3, 0#16⟩ from rfl]
  simp only [reg_and_three, BitVec.and_allOnes, BitVec.and_zero, BitVec.ofNat_eq_ofNat]

/-! ## The rows of the opcode map -/

/-- A row matches a word exactly when the word encodes the command that the row builds from it (30_encoding R149). -/
theorem matchesWord_iff_encode :
    ∀ r ∈ opcodeMap, ∀ w, r.matchesWord w = true ↔ encode (r.build (fieldsOf w)) = w := by
  simp only [opcodeMap, List.forall_mem_cons]
  exact ⟨matches_plain_iff 0x00, matches_regs_iff 0x01, matches_regs_iff 0x02, matches_regs_iff 0x03,
    matches_regs_iff 0x04, matches_regs_iff 0x05, matches_regs_iff 0x06, matches_load_iff 0x08, matches_store_iff 0x09,
    matches_load_iff 0x0A, matches_store_iff 0x0B, matches_mbi_iff 0x10, matches_mbi_iff 0x11, matches_plain_iff 0x12,
    matches_plain_iff 0x13, nofun⟩

/-- The rows that use BSEL are those of the commands whose well-formedness asks for it (30_encoding R145). -/
theorem rejects_eq_not_wellFormed (hr : r ∈ opcodeMap) (f : Fields) :
    (r.usesBsel && !blockSelectorOk f.bsel) = !(r.build f).wellFormed := by
  fin_cases hr <;> rfl

/-- Every command is built by a row of the opcode map from the fields of its word. -/
theorem exists_row_build_encode (i : Instr) : ∃ r ∈ opcodeMap, r.build (fieldsOf (encode i)) = i := by
  cases i <;> simp [encode, opcodeMap]

theorem opcOf_pattern_of_matchesWord (hr : r ∈ opcodeMap) (hw : r.matchesWord w = true) :
    opcOf r.pattern = opcOf w := by
  have covered : ∀ r ∈ opcodeMap, opcOf r.mask = BitVec.allOnes 8 := by
    simp only [opcodeMap, List.forall_mem_cons]
    decide
  rw [← beq_iff_eq.mp hw, opcOf_and, covered r hr, BitVec.and_allOnes]

/-- The rows have different opcodes, so at most one row matches a word. -/
theorem matchesWord_unique {q : OpRow} (hr : r ∈ opcodeMap) (hq : q ∈ opcodeMap) (hrw : r.matchesWord w = true)
    (hqw : q.matchesWord w = true) : r = q := by
  have distinct : (opcodeMap.map (opcOf ·.pattern)).Nodup := by decide
  exact List.inj_on_of_nodup_map distinct hr hq <|
    (opcOf_pattern_of_matchesWord hr hrw).trans (opcOf_pattern_of_matchesWord hq hqw).symm

/-- The decoder's search finds whichever row matches. -/
theorem find_eq_some_iff :
    opcodeMap.find? (fun r => r.matchesWord w) = some r ↔ r ∈ opcodeMap ∧ r.matchesWord w = true := by
  constructor
  · intro h
    exact ⟨List.mem_of_find?_eq_some h, List.find?_some h⟩
  · rintro ⟨hr, hw⟩
    obtain ⟨q, hq⟩ := Option.isSome_iff_exists.mp (List.find?_isSome.mpr ⟨r, hr, hw⟩)
    rw [hq, matchesWord_unique hr (List.mem_of_find?_eq_some hq) hw (List.find?_some hq)]

/-! ## The decoder -/

/-- What the decoder answers on a word that a row matches (30_encoding R153). -/
theorem decode_of_matchesWord (hr : r ∈ opcodeMap) (hw : r.matchesWord w = true) :
    decode w = if (r.build (fieldsOf w)).wellFormed then .ok (r.build (fieldsOf w))
      else .error (.blockSelector r.mnemonic (fieldsOf w).bsel) := by
  unfold decode
  rw [find_eq_some_iff.mpr ⟨hr, hw⟩]
  simp only [rejects_eq_not_wellFormed hr]
  cases (r.build (fieldsOf w)).wellFormed <;> rfl

theorem exists_matchesWord_of_decode (h : decode w = .ok i) : ∃ r ∈ opcodeMap, r.matchesWord w = true := by
  unfold decode at h
  split at h
  · next r hf => exact ⟨r, find_eq_some_iff.mp hf⟩
  · split at h <;> cases h

/-- Decoding gives a command exactly when the word is its encoding and it is well-formed. -/
theorem decode_eq_ok_iff : decode w = .ok i ↔ encode i = w ∧ i.WellFormed := by
  constructor
  · intro h
    obtain ⟨r, hr, hw⟩ := exists_matchesWord_of_decode h
    rw [decode_of_matchesWord hr hw] at h
    split at h
    · next hwf =>
      obtain rfl := Except.ok.inj h
      exact ⟨(matchesWord_iff_encode r hr w).mp hw, hwf⟩
    · cases h
  · rintro ⟨rfl, hwf⟩
    obtain ⟨r, hr, hi⟩ := exists_row_build_encode i
    have hw : r.matchesWord (encode i) = true := (matchesWord_iff_encode r hr _).mpr (congrArg encode hi)
    rw [decode_of_matchesWord hr hw, hi, if_pos hwf]

/-! ## The obligations of 30_encoding -/

/-- Settles O2: a well-formed command's word decodes to it, the one direction of `decode_eq_ok_iff`. -/
theorem decodeEncode : Obligations.DecodeEncode := fun _ hwf => decode_eq_ok_iff.mpr ⟨rfl, hwf⟩

/-- Settles O3: a word that decodes is its command's word, the other direction of `decode_eq_ok_iff`. -/
theorem encodeDecode : Obligations.EncodeDecode := fun _ _ h => decode_eq_ok_iff.mp h

/-- Settles O1: on the fixed lines and words of 30_encoding R158 assembler, encoder and decoder are evaluated. -/
theorem encodingExamples : Obligations.EncodingExamples := by
  unfold Obligations.EncodingExamples
  decide

end Sys2Proof
end

section
/-! The obligations of 40_transform. REF64: both transforms are one double dot product over the block, rows first, and the
entries of M64 are at most 1/2, so each stage grows a block at most fourfold. BOUNDED: every element of a block of draws is
bounded against its exact element. The matrices: the exact transforms are `A * X * Aᵀ` for the orthogonal matrix A. -/

namespace Sys2Proof

open Machine
open scoped Matrix

/-! ## REF64 -/

/-- The dot product as the loop of 40_transform R174. -/
theorem dot8_eq_foldl (x y : Fin 8 → B64) :
    dot8 x y = ([1, 2, 3, 4, 5, 6, 7] : List (Fin 8)).foldl (fun acc k => add64 acc (mul64 (x k) (y k)))
      (mul64 (x 0) (y 0)) := rfl

/-- FWD, its two stages in one (40_transform R174). -/
theorem fwdRef64_eq (kind : XformKind) (x : Block B64) :
    fwdRef64 kind x = mkBlock fun u v =>
      dot8 (fun i => m64 kind u i) fun i => dot8 (fun j => elem x i j) fun j => m64 kind v j := by
  simp only [fwdRef64, fwdCols, fwdRows, elem_mkBlock]

/-- INV, its two stages in one (40_transform R175). -/
theorem invRef64_eq (kind : XformKind) (f : Block B64) :
    invRef64 kind f = mkBlock fun i j =>
      dot8 (fun u => m64 kind u i) fun u => dot8 (fun v => elem f u v) fun v => m64 kind v j := by
  simp only [invRef64, invCols, invRows, elem_mkBlock]

theorem fwd_ref64 {c : Params} (hc : c.impl = .ref64) (draws site : Nat) (x : Block B64) :
    fwd c draws site x = fwdRef64 c.kind x := by
  rw [fwd, hc]

theorem inv_ref64 {c : Params} (hc : c.impl = .ref64) (draws site : Nat) (f : Block B64) :
    inv c draws site f = invRef64 c.kind f := by
  rw [inv, hc]

/-- Settles O25: the command writes the transform, and each of its elements is a dot product of dot products. -/
theorem transformsRef64 : Obligations.TransformsRef64 := by
  intro s rd rs hc hw
  simp only [← dot8_eq_foldl]
  constructor
  · rw [exec, execFdct_written hw, fwd_ref64 hc, fwdRef64_eq]
  · rw [exec, execIdct_written hw, inv_ref64 hc, invRef64_eq]

/-! ## BOUNDED(EPS) -/

theorem fwd_bounded {c : Params} {eps : Rat} (hc : c.impl = .bounded eps) (draws site : Nat) (x : Block B64) :
    fwd c draws site x = boundedBlock eps draws site x (fwdExact c.kind x) := by
  rw [fwd, hc]

theorem inv_bounded {c : Params} {eps : Rat} (hc : c.impl = .bounded eps) (draws site : Nat) (f : Block B64) :
    inv c draws site f = boundedBlock eps draws site f (invExact c.kind f) := by
  rw [inv, hc]

theorem elem_boundedBlock {x : Block B64} (h : BlockFinite x) (eps : Rat) (draws site : Nat)
    (exact : Fin 8 → Fin 8 → Deg8) (i j : Fin 8) :
    elem (boundedBlock eps draws site x exact) i j =
      boundedElem eps (absSum x) (exact i j) (Config.drawXform draws site (8 * i.val + j.val)) := by
  rw [boundedBlock, elem_mkBlock, if_pos (allBlock_iff.mpr h)]

/-- What R176 (with log 10) says of the element `c` of a transform of the block x, whose exact value is `t`. -/
def BoundedDraw (eps : Rat) (x : Block B64) (t : ℝ) (draw c : B64) : Prop :=
  ((∃ w, Admitted eps x t w) → Admitted eps x t c) ∧ (c = draw ∨ ¬ Admitted eps x t draw) ∧ isFinite c = true

theorem boundedBlock_boundedDraw {x : Block B64} (h : BlockFinite x) (eps : Rat) (draws site : Nat)
    {exact : Fin 8 → Fin 8 → Deg8} {t : ℝ} {i j : Fin 8} (ht : deg8Real (exact i j) = 16 * (unit64 : ℝ) * t) :
    BoundedDraw eps x t (Config.drawXform draws site (8 * i.val + j.val))
      (elem (boundedBlock eps draws site x exact) i j) := by
  rw [elem_boundedBlock h]
  obtain ⟨hdraw, hadm, hfin⟩ := boundedElem_admitted (eps := eps) ht (Config.drawXform draws site (8 * i.val + j.val))
  exact ⟨hadm, (em _).imp_left hdraw, hfin⟩

/-- Settles O26: the model's exact elements are the transforms of R173, so its block of draws is bounded against them. -/
theorem boundedTransforms : Obligations.BoundedTransforms := by
  intro s rd rs eps hc hw hf
  constructor
  · exact ⟨_, (execFdct_written hw).trans (by rw [fwd_bounded hc]), fun u v =>
      boundedBlock_boundedDraw hf eps s.draws 0 (fwdExact_val s.cfg.kind s.rb[rs].vals u v)⟩
  · exact ⟨_, (execIdct_written hw).trans (by rw [inv_bounded hc]), fun i j =>
      boundedBlock_boundedDraw hf eps s.draws 0 (invExact_val s.cfg.kind s.rb[rs].vals i j)⟩

/-! ## The matrices -/

/-- The sign of an entry, and the coefficient of R177 that it takes. -/
theorem transformMatrix_coeff (kind : XformKind) (k n : Fin 8) :
    transformMatrix kind k n = (if matIndex kind k n < 0 then -1 else 1) *
      (deg8Real (cos2[(matIndex kind k n).natAbs % 8]'(Nat.mod_lt _ (by decide))) / 4) := by
  have h := mExact_val kind k n
  rw [mExact, deg8Real_mul, deg8Real_ofInt] at h
  push_cast at h
  linarith

/-- Each entry of M64 is nearest the exact entry: the coefficient is, and negation keeps distances. -/
theorem m64_nearest (kind : XformKind) (k n : Fin 8) {w : B64} (hw : isFinite w = true) :
    |((realValue (m64 kind k n) : Rat) : ℝ) - transformMatrix kind k n| ≤
      |((realValue w : Rat) : ℝ) - transformMatrix kind k n| := by
  have near := coeff_nearest ⟨(matIndex kind k n).natAbs % 8, Nat.mod_lt _ (by decide)⟩ (matIndex_range kind k n)
  rw [transformMatrix_coeff, m64]
  split
  · have h := near (negate w) (by rw [isFinite_negate]; exact hw)
    rw [realValue_negate, Rat.cast_neg, neg_sub_left, abs_neg, add_comm] at h
    rw [realValue_negate, Rat.cast_neg, neg_one_mul, neg_sub_neg, abs_sub_comm, sub_neg_eq_add]
    exact h
  · rw [one_mul]
    exact near w hw

/-- `A X Aᵀ` by elements: the form of R173. -/
theorem mul_mul_transpose_apply (A X : Matrix (Fin 8) (Fin 8) ℝ) (u v : Fin 8) :
    (A * X * Aᵀ) u v = ∑ i, ∑ j, A u i * A v j * X i j := by
  simp only [Matrix.mul_apply, Matrix.transpose_apply, Finset.sum_mul]
  rw [Finset.sum_comm]
  exact Finset.sum_congr rfl fun i _ => Finset.sum_congr rfl fun j _ => by ring

theorem transpose_mul_transformMatrix (kind : XformKind) :
    (Matrix.of (transformMatrix kind))ᵀ * Matrix.of (transformMatrix kind) = 1 := by
  ext k n
  simpa only [Matrix.mul_apply, Matrix.one_apply, Matrix.transpose_apply, Matrix.of_apply] using
    (transformMatrix_orthonormal kind k n).2

/-- The exact inverse transform undoes the forward one: `Aᵀ (A X Aᵀ) A = X` (40_transform R173). -/
theorem inverse_forward (kind : XformKind) (X : Fin 8 → Fin 8 → ℝ) (i j : Fin 8) :
    ∑ u, ∑ v, transformMatrix kind u i * transformMatrix kind v j *
      (∑ a, ∑ b, transformMatrix kind u a * transformMatrix kind v b * X a b) = X i j := by
  have hA := transpose_mul_transformMatrix kind
  set A := Matrix.of (transformMatrix kind)
  have h : Aᵀ * (A * Matrix.of X * Aᵀ) * Aᵀᵀ = Matrix.of X := by
    calc Aᵀ * (A * Matrix.of X * Aᵀ) * Aᵀᵀ = Aᵀ * A * Matrix.of X * (Aᵀ * A) := by
          simp only [Matrix.transpose_transpose, Matrix.mul_assoc]
      _ = Matrix.of X := by rw [hA, Matrix.one_mul, Matrix.mul_one]
  have hij := congrFun (congrFun h i) j
  simpa only [mul_mul_transpose_apply, Matrix.transpose_apply, Matrix.of_apply, A] using hij

/-- Settles O27: nearest entries, orthonormal rows, and orthonormal columns for the inverse. -/
theorem transformMatrices : Obligations.TransformMatrices := fun kind =>
  ⟨fun k n => ⟨isFinite_m64 kind k n, fun _ hw => m64_nearest kind k n hw⟩,
    fun k n => (transformMatrix_orthonormal kind k n).1, inverse_forward kind⟩

/-! ## Sizes -/

/-- A bound 2^n on a finite value, in units of 2^-1074. -/
theorem below_two_pow {v : B64} {n : Nat} : Below v 1 (n + 1074) ↔ isFinite v = true ∧ |realValue v| ≤ 2 ^ n := by
  refine and_congr_right fun _ => ?_
  rw [abs_realValue, div_le_iff₀ unit64_rat_pos, one_mul, pow_add, ← unit64_eq]
  exact_mod_cast Iff.rfl

/-- Two stages of dot products with entries of M64 take values up to 2^56 to values up to 2^62: each stage sums eight
products with entries of at most 1/2. -/
theorem stages_below {x : Block B64} (hx : ∀ i j, Below (elem x i j) 1 (56 + 1074)) {p q : Fin 8 → B64}
    (hp : ∀ i, Below (p i) 524288 1054) (hq : ∀ j, Below (q j) 524288 1054) :
    Below (dot8 p fun i => dot8 (fun j => elem x i j) q) 1 (62 + 1074) := by
  have rows : ∀ i, Below (dot8 (fun j => elem x i j) q) 4194304 1110 := fun i =>
    (dot8_entries_below (K := 1) (hx i) hq (by norm_num) (by norm_num) (by norm_num)).1
  obtain ⟨hfin, hmag⟩ := (dot8_entries_below (g := 1090) rows hp (by norm_num) (by norm_num) (by norm_num)).2
  refine ⟨hfin, hmag.trans ?_⟩
  rw [show 62 + 1074 = 46 + 1090 from rfl, pow_add, ← Nat.mul_assoc]
  exact Nat.mul_le_mul_right _ (by norm_num)

theorem abs_transform_le_norm (kind : XformKind) (X : Fin 8 → Fin 8 → ℝ) (k n : Fin 8) :
    |∑ i, ∑ j, transformMatrix kind k i * transformMatrix kind n j * X i j| ≤ √(∑ i, ∑ j, X i j ^ 2) ∧
      |∑ u, ∑ v, transformMatrix kind u k * transformMatrix kind v n * X u v| ≤ √(∑ i, ∑ j, X i j ^ 2) :=
  (transform_norm kind X k n).imp Real.abs_le_sqrt Real.abs_le_sqrt

theorem sqrt_norm_le (X : Fin 8 → Fin 8 → ℝ) {B : ℝ} (h : ∀ i j, |X i j| ≤ B) : √(∑ i, ∑ j, X i j ^ 2) ≤ 8 * B := by
  have hB : 0 ≤ B := (abs_nonneg _).trans (h 0 0)
  exact Real.sqrt_le_iff.mpr ⟨by positivity, norm_le X h⟩

/-- Settles O28: the sizes of the two stages under REF64, the commands' finite writes, and the norm of the block. -/
theorem transformsStayFinite : Obligations.TransformsStayFinite := by
  refine ⟨fun kind x hx i j => ?_, fun _ _ _ ht hs => exec_writesFinite ht hs, fun kind X B k n hX => ?_⟩
  · have hx' := fun i j => below_two_pow.mpr (hx i j)
    obtain ⟨ffin, fmag⟩ := below_two_pow.mp (stages_below hx' (m64_below_half kind i) (m64_below_half kind j))
    obtain ⟨ifin, imag⟩ := below_two_pow.mp
      (stages_below hx' (fun u => m64_below_half kind u i) (fun v => m64_below_half kind v j))
    rw [fwdRef64_eq, invRef64_eq, elem_mkBlock, elem_mkBlock]
    exact ⟨ffin, fmag, ifin, imag⟩
  · obtain ⟨forward, inverse⟩ := abs_transform_le_norm kind X k n
    exact ⟨forward, inverse, sqrt_norm_le X hX⟩

end Sys2Proof
end

section
/-! The obligations of 41_quantizer: each command writes what QUANT1 and DEQ1 give elementwise, and each property of R194-R204
is one of the two roundings: RHE of the exact quotient, and RNE64 of the exact product. -/

namespace Sys2Proof

open Machine

/-! ## The operands of the quantizer -/

theorem fitsInt32_iff {q : Int} : fitsInt32 q = true ↔ -2 ^ 31 ≤ q ∧ q ≤ 2 ^ 31 - 1 := by
  simp [fitsInt32]

theorem blockFits_iff {q : Block Int} : blockFits q = true ↔ ∀ i j, -2 ^ 31 ≤ elem q i j ∧ elem q i j ≤ 2 ^ 31 - 1 :=
  allBlock_iff.trans (forall₂_congr fun _ _ => fitsInt32_iff)

/-- A legal p as a natural number (10_state R55). -/
theorem param_range {p : Word} (hp : 0 < p.toInt) : 1 ≤ p.toInt.toNat ∧ p.toInt.toNat < 2 ^ 31 := by
  have := p.toInt_lt
  omega

theorem cast_param {p : Word} (hp : 0 < p.toInt) : ((p.toInt.toNat : Nat) : Rat) = (p.toInt : Rat) := by
  exact_mod_cast Int.toNat_of_nonneg hp.le

/-- A legal table entry (00_scope R15). -/
theorem qtable_pos {c : Params} (h : ∀ k : Fin 64, c.qtable[k] ≠ 0#8) (i j : Fin 8) : 1 ≤ (elem c.qtable i j).toNat :=
  Nat.one_le_iff_ne_zero.mpr fun h0 => h ⟨8 * i.val + j.val, by omega⟩ (BitVec.eq_of_toNat_eq h0)

/-- Every element of a QB register is in the range of R196 and R197. -/
theorem toInt_natAbs_le (w : Word) : w.toInt.natAbs ≤ 2 ^ 31 := by
  have := w.toInt_lt
  have := w.le_toInt
  omega

theorem elem_quantize (c : Params) (p : Nat) (x : Block B64) (i j : Fin 8) :
    elem (quantize c p x) i j = quant1 (elem x i j) (elem c.qtable i j).toNat p :=
  elem_mkBlock _ i j

theorem elem_dequantize (c : Params) (p : Nat) (q : Block Word) (i j : Fin 8) :
    elem (dequantize c p q) i j = deq1 (elem q i j).toInt (elem c.qtable i j).toNat p :=
  elem_mkBlock _ i j

/-- An int32 is stored with no change of value (41_quantizer R192). -/
theorem toInt_elem_toWords {q : Block Int} {i j : Fin 8} (h : -2 ^ 31 ≤ elem q i j ∧ elem q i j ≤ 2 ^ 31 - 1) :
    (elem (toWords q) i j).toInt = elem q i j := by
  obtain ⟨low, high⟩ := h
  rw [toWords, elem_mapBlock]
  exact BitVec.toInt_ofInt_eq_self (by decide) low (Int.lt_of_le_sub_one high)

/-! ## The write of a block register -/

@[simp] theorem loadRb_vals (rd : Fin 4) (x : Block B64) (s : State) : (loadRb rd x s).rb[rd].vals = x := by
  simp [loadRb, succeed]

@[simp] theorem loadRb_cfg (rd : Fin 4) (x : Block B64) (s : State) : (loadRb rd x s).cfg = s.cfg := rfl

theorem loadRb_rbWritten (rd : Fin 4) (x : Block B64) (s : State) : rbWritten (loadRb rd x s) rd := by
  intro i j
  simp [loadRb, succeed, elem]

/-! ## QUANT and DEQ -/

/-- Settles O30: each element of `quantize` is the RHE of its quotient, and the commit writes or raises COEF_OVERFLOW. -/
theorem quantRoundsOnce : Obligations.QuantRoundsOnce := by
  intro s rd rs hp hw hfin htable
  refine ⟨elem (quantize s.cfg s.p.toInt.toNat s.rb[rs].vals), fun i j => ?_, fun hfit => ?_, fun hfit => ?_⟩
  · have h := quant1_isRhe (hfin i j) (qtable_pos htable i j) (param_range hp).1
    rw [cast_param hp] at h
    rwa [elem_quantize]
  · rw [exec, execQuant_written hp hw, commitQuantized_eq, if_pos (blockFits_iff.mpr hfit)]
    rfl
  · rw [exec, execQuant_written hp hw, commitQuantized_eq, if_neg (blockFits_iff.not.mpr hfit)]

theorem deq1_zero (t p : Nat) : deq1 0 t p = 0 := by
  rw [deq1, Int.natAbs_zero, Nat.zero_mul, Nat.zero_mul]
  decide +kernel

/-- DEQ1 of an int32 is below 2^50 (41_quantizer R197). -/
theorem deq1_lt {q : Int} {t p : Nat} (hq : q.natAbs ≤ 2 ^ 31) (ht : t ≤ 255) (hp : p < 2 ^ 31) :
    |realValue (deq1 q t p)| < 2 ^ 50 := by
  have h := (deq1_below hq ht hp).abs_le
  rw [show 1116 = 42 + 1074 from rfl, pow_add, ← unit64_eq, ← Nat.mul_assoc, Nat.cast_mul,
    mul_div_cancel_right₀ _ unit64_rat_pos.ne'] at h
  exact h.trans_lt (by norm_num)

/-- Settles O31: each element of `dequantize` is the RNE64 of its product. -/
theorem deqRoundsOnce : Obligations.DeqRoundsOnce := by
  intro s rd rs hp hw
  refine ⟨_, execDeq_written hp hw, fun i j => ?_⟩
  have hq := toInt_natAbs_le (elem s.qb[rs].vals i j)
  have ht := byte_le (elem s.cfg.qtable i j)
  have hp' := (param_range hp).2
  rw [elem_dequantize, ← cast_param hp]
  refine ⟨deq1_isRne64 hq ht hp', deq1_lt hq ht hp', fun h0 => ?_⟩
  rw [h0]
  exact deq1_zero _ _

/-! ## C2Q and Q2C -/

/-- A commit leaves of the RB registers and of the draw count only what it found: after a write to a scratch register it
differs from the commit without that write in those two alone. -/
theorem commitQuantized_loadRb (rd scratch : Fin 4) (q : Block Int) (x : Block B64) (s : State) :
    s.commitQuantized rd q =
      { (loadRb scratch x s).commitQuantized rd q with rb := s.rb, draws := s.draws + 1 } := by
  rw [commitQuantized_eq, commitQuantized_eq]
  split <;> rfl

/-- Settles O32: C2Q and QUANT commit the same block. -/
theorem c2qIsFdctThenQuant : Obligations.C2qIsFdctThenQuant := by
  intro s rd rs scratch hp hw
  constructor
  · intro q hfit
    have hfit' : blockFits (quantize s.cfg s.p.toInt.toNat (fwd s.cfg s.draws 0 s.rb[rs].vals)) = true :=
      blockFits_iff.mpr fun i j => by
        rw [elem_quantize]
        exact hfit i j
    rw [exec, execC2q_written hp hw, commitQuantized_eq, if_pos hfit', toWords, mapBlock]
    simp only [elem_quantize, q]
  · set f := fwd s.cfg s.draws 0 s.rb[rs].vals with hf
    refine ⟨loadRb scratch f s, _, execFdct_written hw,
      execQuant_written hp (loadRb_rbWritten scratch f s), ?_⟩
    rw [loadRb_vals, exec, execC2q_written hp hw, ← hf]
    exact congrArg _ (commitQuantized_loadRb rd scratch _ f s)

theorem samples_of_range {x : Block B64}
    (h : ∀ i j, isFinite (elem x i j) = true ∧ 0 ≤ realValue (elem x i j) ∧ realValue (elem x i j) ≤ 255) : Samples x :=
  fun i j => by
    obtain ⟨hfin, low, high⟩ := h i j
    exact ⟨hfin, by rwa [abs_of_nonneg low]⟩

/-- Settles O33: an accurate transform of samples quantizes to ±`coded`, whatever the step. -/
theorem pixelsNeverOverflow : Obligations.PixelsNeverOverflow := by
  intro s _ hacc hp
  refine ⟨fun X draws site hX i j => ?_, fun rd rs hw hX => ?_, fun hd => ⟨fun m hm => ?_, ?_⟩⟩
  · have h := c2qBlock_samples hacc s.p.toInt.toNat draws site (samples_of_range hX) i j
    rw [c2qBlock, coded] at h
    omega
  · have h := c2qBlock_fits hacc s.p.toInt.toNat s.draws 0 (samples_of_range hX)
    rw [c2qBlock] at h
    rw [exec, execC2q_written hp hw, commitQuantized_eq, if_pos h, toWords]
  · rw [exec, execCodeMb_checked (macroblockError_none hd hp hm), if_pos (codeMacroblock_fits hacc _)]
    exact ⟨_, rfl, rfl, rfl⟩
  · rw [exec, execCodePic_checked (pictureError_none hd hp), if_pos (codePicture_fits hacc)]
    exact ⟨_, rfl, rfl, rfl⟩

/-- CLAMP of a finite value, by the order of the real values (41_quantizer R198). -/
theorem clamp_eq {v : B64} (h : isFinite v = true) :
    clamp v = if realValue v < 0 then 0 else if 255 < realValue v then 0x406FE00000000000 else v := by
  simp only [clamp, ltZero_iff h, gt255_iff h]

/-- Settles O34: a clamped finite element lies in [0, 255], and under REF64 the draws of the two commands do not matter. -/
theorem q2cClamps : Obligations.Q2cClamps := by
  intro s rd rs hp hw x
  have hinv : BlockFinite (inv s.cfg s.draws 0 (dequantize s.cfg s.p.toInt.toNat s.qb[rs].vals)) :=
    blockFinite_inv _ _ _ (blockFinite_dequantize _ _ _)
  refine ⟨execQ2c_written hp hw, fun i j => ?_, fun href => ?_⟩
  · rw [elem_mapBlock]
    refine ⟨isFinite_clamp (hinv i j), ?_, ?_⟩ <;> rw [realValue_clamp (hinv i j)]
    · exact le_max_left _ _
    · exact max_le (by norm_num) (min_le_left _ _)
  · refine ⟨_, _, execDeq_written hp hw, execIdct_written (loadRb_rbWritten rd _ s), fun i j => ?_⟩
    have same : ∀ draws f, inv s.cfg draws 0 f = inv s.cfg s.draws 0 f := fun _ _ =>
      (inv_ref64 href _ _ _).trans (inv_ref64 href _ _ _).symm
    rw [loadRb_vals, loadRb_vals, loadRb_cfg, same, elem_mapBlock]
    exact clamp_eq (hinv i j)

/-! ## Properties -/

/-- The quotient of R191 undoes the product of R193: a distance between real values becomes `2^20/(t·P)` times as large
between their quotients. -/
theorem quotient_sub (x q : Rat) {t p : Nat} (ht : 1 ≤ t) (hp : 1 ≤ p) :
    16 * x * 2 ^ 16 / ((t : Rat) * p) - q = (x - q * t * p / 2 ^ 20) * (2 ^ 20 / ((t : Rat) * p)) := by
  have : (0 : Rat) < t := by exact_mod_cast ht
  have : (0 : Rat) < p := by exact_mod_cast hp
  field_simp
  ring

/-- Quantizing a dequantized integer gives it back: the error of DEQ1 moves the quotient by less than one half
(41_quantizer R196). -/
theorem quant1_deq1 {q : Int} {t p : Nat} (hq : q.natAbs ≤ 2 ^ 31) (ht1 : 1 ≤ t) (ht : t ≤ 255) (hp1 : 1 ≤ p)
    (hp : p < 2 ^ 31) : quant1 (deq1 q t p) t p = q := by
  refine (quant1_isRhe (deq1_isRne64 hq ht hp).finite ht1 hp1).eq_of_near ?_
  have ht' : (0 : Rat) < t := by exact_mod_cast ht1
  have hp' : (0 : Rat) < p := by exact_mod_cast hp1
  have hq' : |(q : Rat)| ≤ 2 ^ 31 := by
    rw [← Int.cast_abs, Int.abs_eq_natAbs]
    exact_mod_cast hq
  rw [quotient_sub _ _ ht1 hp1, abs_mul, abs_of_pos (show (0 : Rat) < 2 ^ 20 / ((t : Rat) * p) by positivity)]
  calc |realValue (deq1 q t p) - (q : Rat) * t * p / 2 ^ 20| * (2 ^ 20 / ((t : Rat) * p))
      ≤ |(q : Rat) * t * p / 2 ^ 20| / 2 ^ 53 * (2 ^ 20 / ((t : Rat) * p)) :=
        mul_le_mul_of_nonneg_right (deq1_error hq ht1 ht hp1 hp) (by positivity)
    _ = |(q : Rat)| / 2 ^ 53 := by
        rw [abs_div, abs_mul, abs_mul, abs_of_pos ht', abs_of_pos hp', abs_of_pos (by norm_num : (0 : Rat) < 2 ^ 20)]
        field_simp
    _ < 1 / 2 := by linarith

/-- Settles O35: an int32 is stored without change, so the second pass quantizes each element to the integer of the first. -/
theorem requantizationExact : Obligations.RequantizationExact := by
  refine ⟨fun q t p hq ht1 ht hp1 hp => quant1_deq1 hq ht1 ht hp1 hp, ?_⟩
  intro c p x htable hp1 hp hfit d
  have again : quantize c p d = quantize c p x := block_ext fun i j => by
    have hd : elem d i j = deq1 (elem (quantize c p x) i j) (elem c.qtable i j).toNat p := by
      simp only [d, elem_dequantize, toInt_elem_toWords (hfit i j)]
    have hrange := hfit i j
    rw [elem_quantize, hd]
    exact quant1_deq1 (by omega) (qtable_pos htable i j) (byte_le _) hp1 hp
  rw [again]

/-- Settles O36: half a step from the quotient's rounding, half an ulp from the product's. -/
theorem quantizationError : Obligations.QuantizationError := by
  intro c t p hc ht1 ht hp1 hp hq result
  have ht' : (0 : Rat) < t := by exact_mod_cast ht1
  have hp' : (0 : Rat) < p := by exact_mod_cast hp1
  set q := quant1 c t p
  have hround : |(q : Rat) * t * p / 2 ^ 20 - realValue c| ≤ (t : Rat) * ((p : Rat) / 2 ^ 16) / 32 := by
    have h := (quant1_isRhe hc ht1 hp1).near
    rw [abs_sub_comm, quotient_sub _ _ ht1 hp1, abs_mul,
      abs_of_pos (show (0 : Rat) < 2 ^ 20 / ((t : Rat) * p) by positivity), ← le_div_iff₀ (by positivity)] at h
    rw [abs_sub_comm]
    refine h.trans_eq ?_
    field_simp
    norm_num
  calc |realValue result - realValue c|
      ≤ |realValue result - (q : Rat) * t * p / 2 ^ 20| + |(q : Rat) * t * p / 2 ^ 20 - realValue c| :=
        abs_sub_le _ _ _
    _ ≤ halfUlp result + (t : Rat) * ((p : Rat) / 2 ^ 16) / 32 := add_le_add (deq1_halfUlp hq ht hp) hround
    _ = (t : Rat) * ((p : Rat) / 2 ^ 16) / 32 + halfUlp result := add_comm _ _

theorem natAbs_roundHalfEvenSigned (neg : Bool) (n d : Nat) : (roundHalfEvenSigned neg n d).natAbs = roundHalfEven n d := by
  cases neg <;> simp [roundHalfEvenSigned]

theorem roundHalfEvenSigned_not (neg : Bool) (n d : Nat) :
    roundHalfEvenSigned (!neg) n d = -roundHalfEvenSigned neg n d := by
  cases neg <;> simp [roundHalfEvenSigned]

/-- Settles O37: RHE of a fraction with the larger denominator is no larger. -/
theorem quantizationMonotone : Obligations.QuantizationMonotone := by
  intro c t p1 p2 hc ht hp1 hlt
  have hd : ∀ p, 1 ≤ p → 0 < t * p * unit64 := fun p hp => Nat.mul_pos (Nat.mul_pos ht hp) unit64_pos
  rw [quant1, quant1, if_pos hc, if_pos hc, natAbs_roundHalfEvenSigned, natAbs_roundHalfEvenSigned]
  refine roundHalfEven_mono (hd p2 (hp1.trans hlt.le)) (hd p1 hp1) (Nat.mul_le_mul_left _ ?_)
  exact Nat.mul_le_mul_right _ (Nat.mul_le_mul_left _ hlt.le)

/-- RNE64 is odd-symmetric (00_scope R20). -/
theorem realValue_rne64_not (neg : Bool) {n d : Nat} (hd : 0 < d) (h : n ≤ d * 2 ^ 1023) :
    realValue (rne64 (!neg) n d) = -realValue (rne64 neg n d) := by
  have hov := roundPattern_lt hd h
  rw [realValue, realValue, scaled_rne64 hd hov, scaled_rne64 hd hov]
  cases neg <;> simp [neg_div]

/-- DEQ1 is odd-symmetric, at 0 because the value is 0 (41_quantizer R204). -/
theorem realValue_deq1_neg {q : Int} {t p : Nat} (hq : q.natAbs ≤ 2 ^ 31) (ht : t ≤ 255) (hp : p < 2 ^ 31) :
    realValue (deq1 (-q) t p) = -realValue (deq1 q t p) := by
  by_cases h0 : q = 0
  · have zero : realValue 0 = 0 := by simp [realValue, scaled, mag, expField, fracField]
    rw [h0, neg_zero, deq1_zero, zero, neg_zero]
  · have flip : decide (-q < 0) = !decide (q < 0) := by
      rw [← decide_not]
      exact decide_eq_decide.mpr (by omega)
    rw [deq1, deq1, Int.natAbs_neg, flip]
    exact realValue_rne64_not _ (pow2_pos 20) (deq1_noOverflow hq ht hp)

/-- Settles O38: both roundings are odd-symmetric. -/
theorem quantizerOdd : Obligations.QuantizerOdd := by
  intro c q t p hc _ ht _ hp hq
  refine ⟨?_, realValue_deq1_neg hq ht hp⟩
  rw [quant1, quant1, if_pos hc, if_pos ((isFinite_negate c).trans hc), signBit_negate, mag_negate,
    roundHalfEvenSigned_not]

end Sys2Proof
end

section
/-! The obligations of 42_region: PIX rounds the clamped value, each block move is the addresses of its samples or bytes
(a store through what its runs of bytes cover), and the tiles are the 16×16 squares of the picture by division. -/

namespace Sys2Proof

open Machine

variable {s : State}

/-! ## PIX -/

/-- Settles O39: PIX rounds `real(clamp v)`, which is the clamped real value, half to even or to its floor. -/
theorem pixelRounding : Obligations.PixelRounding := by
  intro v hv r
  have hr : (mag (clamp v) : Rat) / unit64 = r := by rw [← realValue_clamp_mag hv, realValue_clamp hv]
  refine ⟨?_, ?_, ?_⟩
  · have h := isRhe_signed false (n := mag (clamp v)) unit64_pos
    rw [if_neg Bool.false_ne_true, one_mul, hr] at h
    rwa [pix_rhe hv]
  · rw [pix_trunc hv, ← Nat.floor_div_eq_div (K := Rat), hr]
    exact Nat.floor_le (le_max_left _ _)
  · rw [pix_trunc hv, ← Nat.floor_div_eq_div (K := Rat), hr]
    exact Nat.lt_floor_add_one r

/-! ## LDBLK -/

theorem inAddr_right (c : Params) (p x y : Nat) : inAddr c p (x + 1) y = inAddr c p x y + 1 := rfl

theorem inAddr_down (c : Params) (p x y : Nat) : inAddr c p x (y + 1) = inAddr c p x y + c.maxW := by
  unfold inAddr
  rw [Nat.succ_mul]
  omega

/-- A luma block of IN holds the samples of its quadrant exactly (42_region R221, R225). -/
theorem blockIn_luma {k n : Nat} (hn : n ≤ 3) (i j : Fin 8) :
    IsExactly (elem (s.blockIn k n) i j) (s.byteAt (inAddr s.cfg 0 (tileX s.tpr k + lumaX n + j.val)
      (tileY s.tpr k + lumaY n + i.val))).toNat := by
  rw [State.blockIn, elem_mkBlock, if_pos hn]
  exact b64OfNat_exact ((byte_le _).trans (by norm_num))

/-- A chroma block of IN holds exactly the means of its 2×2 squares, each found from the address `a` of its first sample
(42_region R222, R225). -/
theorem blockIn_chroma {k n : Nat} (hn : 4 ≤ n) (i j : Fin 8) :
    let a := inAddr s.cfg (n - 3) (tileX s.tpr k + 2 * j.val) (tileY s.tpr k + 2 * i.val)
    IsExactly (elem (s.blockIn k n) i j)
      (mean4 (s.byteAt a) (s.byteAt (a + 1)) (s.byteAt (a + s.cfg.maxW)) (s.byteAt (a + s.cfg.maxW + 1))) := by
  rw [State.blockIn, elem_mkBlock, if_neg (by omega), State.chromaSample]
  simp only [State.pixIn, inAddr_right, inAddr_down]
  exact b64OfNat_exact ((mean4_le _ _ _ _).trans (by norm_num))

/-- Settles O40: the block loaded is `blockIn`, at the addresses of `inAddr`. -/
theorem ldblkLoadsBlock : Obligations.LdblkLoadsBlock := by
  intro s rd b m hb hd hm
  refine ⟨_, execLdblk_tile (tileError_none hb hd hm), fun hluma i j => ?_, fun hchroma i j => ?_⟩
  · exact blockIn_luma hluma i j
  · exact blockIn_chroma hchroma i j

/-! ## STBLK -/

/-- Runs that cover just the places `at' k`, and write `v k` there, set these bytes and no other. -/
theorem lookup_writeRuns_places {ι : Type} {runs : List (Nat × List Byte)} {at' : ι → Nat} {v : ι → Byte} (mem : Memory)
    (hit : ∀ k, ∃ r ∈ runs, covers r (at' k))
    (only : ∀ r ∈ runs, ∀ a, covers r a → ∃ k, a = at' k ∧ r.2[a - r.1]? = some (v k))
    (inj : at'.Injective) :
    (∀ k, (mem.writeRuns runs).lookup (at' k) = some (v k)) ∧
      ∀ a, (∀ k, a ≠ at' k) → (mem.writeRuns runs).lookup a = mem.lookup a := by
  constructor
  · refine fun k => lookup_writeRuns_of_covered runs mem _ _ (hit k) fun r hr hc => ?_
    obtain ⟨k', hk, hv⟩ := only r hr _ hc
    obtain rfl := inj hk
    exact hv
  · refine fun a ha => lookup_writeRuns_of_not_covered runs mem a fun r hr hc => ?_
    obtain ⟨k, hk, -⟩ := only r hr a hc
    exact ha k hk

/-- Settles O41: the runs of a luma block cover its samples, each once. -/
theorem stblkLuma : Obligations.StblkLuma := by
  intro s rs b m hb hd hm hw
  obtain ⟨htile, -, hplane, -⟩ := tile_bounds hd hm
  refine ⟨_, execStblk_tile (tileError_none (by omega) hd hm) hw, ?_⟩
  rw [blockOutRuns, if_pos hb]
  obtain ⟨hit, rest⟩ := lookup_writeRuns_places (ι := Fin 8 × Fin 8)
    (at' := fun k => lumaOut s m.toNat b.toNat k.1 k.2)
    (v := fun k => pix s.cfg.pixRound (elem s.rb[rs].vals k.1 k.2)) s.mem
    (fun k => lumaRuns_cover s _ _ _ k.1 k.2)
    (fun r hr a hc => by simpa only [Prod.exists] using covers_lumaRuns hr hc)
    (fun _ _ h => Prod.ext_iff.mpr (lumaOut_injective (htile.trans hplane) h))
  exact ⟨fun i j => hit (i, j), fun a ha => rest a fun k => ha k.1 k.2⟩

/-- Settles O42: the runs of a chroma block cover the 2×2 squares of its samples, each place once. -/
theorem stblkChroma : Obligations.StblkChroma := by
  intro s rs b m hb4 hb5 hd hm hw
  obtain ⟨htile, -, hplane, -⟩ := tile_bounds hd hm
  refine ⟨_, execStblk_tile (tileError_none (by omega) hd hm) hw, ?_⟩
  rw [blockOutRuns, if_neg (by omega)]
  obtain ⟨hit, rest⟩ := lookup_writeRuns_places (ι := Fin 8 × Fin 8 × Fin 2 × Fin 2)
    (at' := fun k => chromaOut s m.toNat (b.toNat - 3) k.1 k.2.1 k.2.2.1 k.2.2.2)
    (v := fun k => pix s.cfg.pixRound (elem s.rb[rs].vals k.1 k.2.1)) s.mem
    (fun k => chromaRuns_cover s _ _ _ k.1 k.2.1 k.2.2.1 k.2.2.2)
    (fun r hr a hc => by simpa only [Prod.exists] using covers_chromaRuns hr hc)
    (fun k k' h => by simpa only [Prod.ext_iff] using chromaOut_injective (htile.trans hplane) h)
  exact ⟨fun i j e a => hit (i, j, e, a), fun x hx => rest x fun k => hx k.1 k.2.1 k.2.2.1 k.2.2.2⟩

/-! ## LDQ and STQ -/

/-- A word as the number of its four bytes (20_memory R103). -/
theorem toNat_wordAt (s : State) (a : Nat) :
    (s.wordAt a).toNat = (s.byteAt a).toNat + 256 * (s.byteAt (a + 1)).toNat + 65536 * (s.byteAt (a + 2)).toNat +
      16777216 * (s.byteAt (a + 3)).toNat := by
  have hlt := leNat_lt [s.byteAt a, s.byteAt (a + 1), s.byteAt (a + 2), s.byteAt (a + 3)]
  rw [State.wordAt, BitVec.toNat_ofNat]
  simp only [leNat, List.length_cons, List.length_nil] at hlt ⊢
  omega

/-- Settles O43: the block loaded is `coef`, and its elements are the words of the slot. -/
theorem ldqCopies : Obligations.LdqCopies := by
  intro s rd b m hb hm
  refine ⟨_, execLdq_slot (slotError_none hb hm), fun i j => ?_⟩
  rw [State.coef, elem_mkBlock]
  exact toNat_wordAt s _

/-- Settles O44: the 256 bytes of `blockBytes` are written as one run at the block's address. -/
theorem stqCopies : Obligations.StqCopies := by
  intro s rs b m hb hm hw
  refine ⟨_, execStq_slot (slotError_none hb hm) hw, fun i j n => ?_, fun a ha => ?_⟩
  · rw [lookup_write, length_blockBytes, ← coefAddr, if_pos (by omega), Nat.add_assoc, Nat.add_sub_cancel_left]
    exact getElem?_blockBytes _ i j n.isLt
  · exact lookup_write_ne (by rwa [length_blockBytes])

/-! ## Tiles -/

/-- The one tile that holds a sample, whose column of tiles is in the picture, is found by division (00_scope R28). -/
theorem mem_tile_iff {tpr k x y : Nat} (hx : x / 16 < tpr) :
    (tileX tpr k ≤ x ∧ x < tileX tpr k + 16 ∧ tileY tpr k ≤ y ∧ y < tileY tpr k + 16) ↔ k = x / 16 + tpr * (y / 16) := by
  have hk := Nat.div_mod_unique (a := k) (c := x / 16) (d := y / 16) (Nat.zero_lt_of_lt hx)
  unfold tileX tileY
  omega

/-- Settles O45: tiles and quadrants are found by division, and the tiles of the picture lie inside it. -/
theorem tilesPartition : Obligations.TilesPartition := by
  intro c w h x y hd hx hy
  obtain ⟨hw16, -, -, hh16, -, -⟩ := dimsValid_iff.mp hd
  refine ⟨⟨x / 16 + w / 16 * (y / 16), ⟨?_, ?_⟩, fun k hk => ?_⟩, fun k hk => ?_, fun hx16 hy16 => ?_⟩
  · calc x / 16 + w / 16 * (y / 16) < w / 16 * (y / 16 + 1) := by rw [Nat.mul_succ]; omega
      _ ≤ w / 16 * (h / 16) := Nat.mul_le_mul_left _ (by omega)
  · exact (mem_tile_iff (by omega)).mpr rfl
  · exact (mem_tile_iff (by omega)).mp hk.2
  · have := tile_inside hk
    omega
  · refine ⟨x / 8 + 2 * (y / 8), ?_, fun k hk => ?_⟩
    · unfold lumaX lumaY
      omega
    · unfold lumaX lumaY at hk
      omega

end Sys2Proof
end

section
/-! The obligations of 43_macroblock: CODE_MB and RECON_MB work on the window and not on the block registers (R255), what they
write (R250–R253), and their equality with a sequence of block commands (R256): the commands of one block do to memory what
the macroblock command does for that block, and what the earlier blocks wrote is nothing a later one reads. -/

namespace Sys2Proof

open Machine

variable {s t u : State} {k b : Nat} {m : BitVec 16}

/-! ## Block registers -/

/-- The state with other block registers. -/
def withBlocks (rb : RegFile B64) (qb : RegFile Word) (s : State) : State := { s with rb := rb, qb := qb }

/-- The outcome `o` is a next state that keeps the block registers of `s`, and `o'` is that state with `rb` and `qb` in
their place. -/
def SameBesideBlocks (s : State) (rb : RegFile B64) (qb : RegFile Word) (o o' : Host.Outcome State Fault Refusal) : Prop :=
  ∃ t, o = .next t ∧ t.rb = s.rb ∧ t.qb = s.qb ∧ o' = .next (withBlocks rb qb t)

section
variable {rb : RegFile B64} {qb : RegFile Word}

theorem sameBesideBlocks_next (hrb : t.rb = s.rb) (hqb : t.qb = s.qb) :
    SameBesideBlocks s rb qb (.next t) (.next (withBlocks rb qb t)) :=
  ⟨t, rfl, hrb, hqb, rfl⟩

theorem SameBesideBlocks.ite {c : Prop} [Decidable c] {o o' p p' : Host.Outcome State Fault Refusal}
    (ho : SameBesideBlocks s rb qb o o') (hp : SameBesideBlocks s rb qb p p') :
    SameBesideBlocks s rb qb (if c then o else p) (if c then o' else p') := by
  by_cases h : c
  · rwa [if_pos h, if_pos h]
  · rwa [if_neg h, if_neg h]

end

theorem memoryError_withBlocks (rb : RegFile B64) (qb : RegFile Word) (s : State) (i : Instr) :
    memoryError (withBlocks rb qb s) i = memoryError s i := by
  cases i <;> rfl

/-- Settles O17: the checks, the blocks computed and the bytes written are functions of the other fields of the state. -/
theorem coarseCommandsIgnoreBlockRegisters : Obligations.CoarseCommandsIgnoreBlockRegisters := by
  intro i hi s rb qb
  change SameBesideBlocks s rb qb (exec i s) (exec i (withBlocks rb qb s))
  cases he : memoryError s i with
  | some e =>
    rw [exec_memoryError he, exec_memoryError ((memoryError_withBlocks rb qb s i).trans he)]
    exact sameBesideBlocks_next rfl rfl
  | none =>
    rcases hi with ⟨m, rfl⟩ | ⟨m, rfl⟩ | rfl | rfl
    · rw [exec, exec, execCodeMb_checked he, execCodeMb_checked (s := withBlocks rb qb s) he]
      exact .ite (sameBesideBlocks_next rfl rfl) (sameBesideBlocks_next rfl rfl)
    · rw [exec, exec, execReconMb_checked he, execReconMb_checked (s := withBlocks rb qb s) he]
      exact sameBesideBlocks_next rfl rfl
    · rw [exec, exec, execCodePic_checked he, execCodePic_checked (s := withBlocks rb qb s) he]
      exact .ite (sameBesideBlocks_next rfl rfl) (sameBesideBlocks_next rfl rfl)
    · rw [exec, exec, execReconPic_checked he, execReconPic_checked (s := withBlocks rb qb s) he]
      exact sameBesideBlocks_next rfl rfl

/-! ## CODE_MB -/

theorem codeMacroblock_getElem? (s : State) (k : Nat) (hb : b < 6) :
    (s.codeMacroblock k)[b]? = some (s.codeBlock k b) := by
  rw [State.codeMacroblock, List.getElem?_map, List.getElem?_range hb, Option.map_some]

theorem codeMacroblock_all_blockFits_iff :
    (s.codeMacroblock k).all blockFits = true ↔ ∀ b < 6, blockFits (s.codeBlock k b) = true := by
  simp [State.codeMacroblock]

/-- CODE_MB whose blocks fit writes the slot and completes (43_macroblock R251). -/
theorem exec_codeMb (hd : s.dimsOk = true) (hp : 0 < s.p.toInt) (hm : m.toNat < s.tiles)
    (hfit : ∀ b < 6, blockFits (s.codeBlock m.toNat b) = true) :
    exec (.codeMb m) s =
      .next (succeed { s with mem := s.mem.write (slotAddr m.toNat) (codedBytes (s.codeMacroblock m.toNat)) }) := by
  rw [exec, execCodeMb_checked (macroblockError_none hd hp hm), if_pos (codeMacroblock_all_blockFits_iff.mpr hfit)]

/-- Settles O46: the slot is the one run of bytes that CODE_MB writes, its blocks in order. -/
theorem codeMbFillsSlot : Obligations.CodeMbFillsSlot := by
  intro s m _ hd hp hm q fits
  refine ⟨fun hacc b _ => blockFits_iff.mp (codeBlock_fits hacc m.toNat b), fun hfit => ?_⟩
  refine ⟨_, exec_codeMb hd hp hm fun b hb => blockFits_iff.mpr (hfit b hb), rfl, fun b hb => ?_, fun a ha => ?_⟩
  · exact coef_write rfl (codeMacroblock_getElem? s m.toNat hb) rfl
  · refine lookup_write_ne ?_
    rw [length_codedBytes, codeMacroblock_length]
    exact ha

/-! ## RECON_MB -/

/-- RECON_MB writes the runs of the six blocks of its one tile and completes (43_macroblock R253). -/
theorem exec_reconMb (hd : s.dimsOk = true) (hp : 0 < s.p.toInt) (hm : m.toNat < s.tiles) :
    exec (.reconMb m) s = .next (succeed { s with mem := s.mem.writeRuns (s.reconMacroblockRuns m.toNat) }) := by
  rw [exec, execReconMb_checked (macroblockError_none hd hp hm)]

theorem reconMacroblockRuns_eq_tileRuns (s : State) (k : Nat) : s.reconMacroblockRuns k = tileRuns s s.reconBlock [k] :=
  (List.flatMap_singleton _ _).symm

theorem inTile_add (s : State) (k : Nat) (x y : Fin 16) : inTile s k (tileX s.tpr k + x.val) (tileY s.tpr k + y.val) := by
  unfold inTile
  omega

theorem inTile_iff {x y : Nat} :
    inTile s k x y ↔ ∃ x' y' : Fin 16, x = tileX s.tpr k + x'.val ∧ y = tileY s.tpr k + y'.val := by
  constructor
  · rintro ⟨hx, hx', hy, hy'⟩
    exact ⟨⟨x - tileX s.tpr k, by omega⟩, ⟨y - tileY s.tpr k, by omega⟩, by simp only; omega, by simp only; omega⟩
  · rintro ⟨x', y', rfl, rfl⟩
    exact inTile_add s k x' y'

/-- The luma pixel at (x, y) of a tile comes from the quadrant of (x, y) (42_region R221). -/
theorem pixelOf_luma (X : Nat → Nat → Block B64) (x y : Fin 16) :
    pixelOf s X 0 (tileX s.tpr k + x.val) (tileY s.tpr k + y.val) = pix s.cfg.pixRound
      (elem (X k (2 * (y.val / 8) + x.val / 8)) ⟨y.val % 8, Nat.mod_lt _ (Nat.zero_lt_succ 7)⟩
        ⟨x.val % 8, Nat.mod_lt _ (Nat.zero_lt_succ 7)⟩) := by
  rw [pixelOf, if_pos rfl, tile_of_sample (inTile_add s k x y)]
  have quadrant : 2 * ((tileY s.tpr k + y.val) / 8 % 2) + (tileX s.tpr k + x.val) / 8 % 2 = 2 * (y.val / 8) + x.val / 8 := by
    unfold tileX tileY
    omega
  have row : (tileY s.tpr k + y.val) % 8 = y.val % 8 := by unfold tileY; omega
  have column : (tileX s.tpr k + x.val) % 8 = x.val % 8 := by unfold tileX; omega
  simp only [quadrant, row, column]

/-- The chroma pixel at (x, y) of a tile comes from element (y/2, x/2) of its plane's block (42_region R223). -/
theorem pixelOf_chroma (X : Nat → Nat → Block B64) {c : Nat} (hc : 1 ≤ c) (x y : Fin 16) :
    pixelOf s X c (tileX s.tpr k + x.val) (tileY s.tpr k + y.val) = pix s.cfg.pixRound
      (elem (X k (3 + c)) ⟨y.val / 2 % 8, Nat.mod_lt _ (Nat.zero_lt_succ 7)⟩
        ⟨x.val / 2 % 8, Nat.mod_lt _ (Nat.zero_lt_succ 7)⟩) := by
  rw [pixelOf, if_neg (by omega), tile_of_sample (inTile_add s k x y)]
  have row : (tileY s.tpr k + y.val) / 2 % 8 = y.val / 2 % 8 := by unfold tileY; omega
  have column : (tileX s.tpr k + x.val) / 2 % 8 = x.val / 2 % 8 := by unfold tileX; omega
  simp only [row, column]

/-- Settles O47: the runs of the six blocks write every sample of the tile its pixel and touch no other byte. -/
theorem reconMbRebuildsTile : Obligations.ReconMbRebuildsTile := by
  intro s m hv hd hp hm
  refine ⟨_, exec_reconMb hd hp hm, rfl, ?_⟩
  rw [reconMacroblockRuns_eq_tileRuns]
  have hit : ∀ c ≤ 2, ∀ x y : Fin 16, (s.mem.writeRuns (tileRuns s s.reconBlock [m.toNat])).lookup
      (outAddr s.cfg c (tileX s.tpr m.toNat + x.val) (tileY s.tpr m.toNat + y.val)) =
        some (pixelOf s s.reconBlock c (tileX s.tpr m.toNat + x.val) (tileY s.tpr m.toNat + y.val)) :=
    fun c hc x y => lookup_tileRuns hv hd s.reconBlock (by simpa using hm) s.mem (List.mem_singleton_self _) hc
      (inTile_add s m.toNat x y)
  refine ⟨fun x y => ?_, fun c hc1 hc2 x y => ?_, fun a ha => ?_⟩
  · exact (hit 0 (by omega) x y).trans (congrArg some (pixelOf_luma s.reconBlock x y))
  · exact (hit c hc2 x y).trans (congrArg some (pixelOf_chroma s.reconBlock hc1 x y))
  · refine lookup_tileRuns_other s.reconBlock s.mem fun k hk c hc x y hin => ?_
    obtain rfl := List.mem_singleton.mp hk
    obtain ⟨x', y', rfl, rfl⟩ := inTile_iff.mp hin
    exact ha c hc x' y'

/-! ## Sequences of commands -/

theorem runAll_cons {i : Instr} {is : List Instr} (h : exec i s = .next t) : runAll (i :: is) s = runAll is t := by
  rw [runAll, h]

theorem runAll_append (is js : List Instr) (s : State) : runAll (is ++ js) s = (runAll is s).bind (runAll js) := by
  induction is generalizing s with
  | nil => rfl
  | cons i is ih =>
    obtain ⟨t, ht⟩ := exec_completes i s
    rw [List.cons_append, runAll_cons ht, runAll_cons ht, ih]

/-- A property of the number of blocks done and the state reached, which the commands of each block advance, holds after
the commands of any number of blocks. -/
theorem exists_runAll_range {P : Nat → State → Prop} {f : Nat → List Instr} {n : Nat}
    (step : ∀ b < n, ∀ u, P b u → ∃ v, runAll (f b) u = some v ∧ P (b + 1) v) (h0 : P 0 s) :
    ∃ u, runAll ((List.range n).flatMap f) s = some u ∧ P n u := by
  induction n with
  | zero => exact ⟨s, rfl, h0⟩
  | succ n ih =>
    obtain ⟨u, hu, hPu⟩ := ih fun b hb => step b (by omega)
    obtain ⟨v, hv, hPv⟩ := step n (Nat.lt_succ_self n) u hPu
    refine ⟨v, ?_, hPv⟩
    rw [List.range_succ, List.flatMap_append, List.flatMap_singleton, runAll_append, hu, Option.bind_some, hv]

/-- `t` has the parameters, the picture size and P of `s`: all that a block command reads beside memory and registers. -/
structure SameSetup (s t : State) : Prop where
  cfg    : t.cfg = s.cfg
  width  : t.width = s.width
  height : t.height = s.height
  p      : t.p = s.p

theorem SameSetup.refl (s : State) : SameSetup s s := ⟨rfl, rfl, rfl, rfl⟩

theorem SameSetup.trans (h : SameSetup s t) (h' : SameSetup t u) : SameSetup s u :=
  ⟨h'.cfg.trans h.cfg, h'.width.trans h.width, h'.height.trans h.height, h'.p.trans h.p⟩

theorem SameSetup.tpr (h : SameSetup s t) : t.tpr = s.tpr := by rw [State.tpr, State.tpr, h.width]

theorem SameSetup.tiles (h : SameSetup s t) : t.tiles = s.tiles := by rw [State.tiles, State.tiles, h.width, h.height]

theorem SameSetup.dimsOk (h : SameSetup s t) : t.dimsOk = s.dimsOk := by
  rw [State.dimsOk, State.dimsOk, h.cfg, h.width, h.height]

/-! ## The commands of one block -/

theorem toNat_bsel (hb : b < 6) : (BitVec.ofNat 3 b).toNat = b := by
  rw [BitVec.toNat_ofNat]
  omega

theorem loadRb_p (rd : Fin 4) (x : Block B64) (s : State) : (loadRb rd x s).p = s.p := rfl

theorem loadQb_cfg (rd : Fin 4) (q : Block Word) (s : State) : (loadQb rd q s).cfg = s.cfg := rfl

theorem loadQb_p (rd : Fin 4) (q : Block Word) (s : State) : (loadQb rd q s).p = s.p := rfl

theorem loadQb_vals (rd : Fin 4) (q : Block Word) (s : State) : (loadQb rd q s).qb[rd].vals = q := by
  simp [loadQb, succeed]

theorem loadQb_qbWritten (rd : Fin 4) (q : Block Word) (s : State) : qbWritten (loadQb rd q s) rd := by
  intro i j
  simp [loadQb, succeed, elem]

theorem accurate_of_ref64 {impl : XformImpl} (hi : impl = .ref64) : accurate impl := hi ▸ trivial

/-- Under REF64 no draw enters the block that CODE_MB codes. -/
theorem codeBlock_ref64 (hi : s.cfg.impl = .ref64) (k b draws site : Nat) :
    quantize s.cfg s.p.toInt.toNat (fwd s.cfg draws site (s.blockIn k b)) = s.codeBlock k b := by
  rw [State.codeBlock, c2qBlock, fwd_ref64 hi, fwd_ref64 hi]
  rfl

/-- Under REF64 no draw enters the block that RECON_MB rebuilds. -/
theorem reconBlock_ref64 (hi : s.cfg.impl = .ref64) (k b draws site : Nat) :
    q2cBlock s.cfg s.p.toInt.toNat draws site (s.coef k b) = s.reconBlock k b := by
  rw [State.reconBlock, q2cBlock, q2cBlock, inv_ref64 hi, inv_ref64 hi]
  rfl

/-- The commands of block `b` in `codeMbSequence` (43_macroblock R256). -/
def codeBlockCommands (r q : Fin 4) (m : BitVec 16) (b : Nat) : List Instr :=
  [.ldblk r (BitVec.ofNat 3 b) m, .c2q q r, .stq q (BitVec.ofNat 3 b) m]

theorem codeMbSequence_eq (r q : Fin 4) (m : BitVec 16) :
    codeMbSequence r q m = (List.range 6).flatMap (codeBlockCommands r q m) := rfl

/-- The commands of block `b` in `reconMbSequence` (43_macroblock R256). -/
def reconBlockCommands (r q : Fin 4) (m : BitVec 16) (b : Nat) : List Instr :=
  [.ldq q (BitVec.ofNat 3 b) m, .q2c r q, .stblk r (BitVec.ofNat 3 b) m]

theorem reconMbSequence_eq (r q : Fin 4) (m : BitVec 16) :
    reconMbSequence r q m = (List.range 6).flatMap (reconBlockCommands r q m) := rfl

section
variable (hi : s.cfg.impl = .ref64) (hd : s.dimsOk = true) (hp : 0 < s.p.toInt) (hm : m.toNat < s.tiles) (hb : b < 6)
include hi hd hp hm hb

/-- LDBLK, C2Q and STQ of one block write to memory the block that CODE_MB computes for it. -/
theorem runAll_codeBlockCommands (r q : Fin 4) :
    ∃ t, runAll (codeBlockCommands r q m b) s = some t ∧ SameSetup s t ∧
      t.mem = s.mem.write (coefAddr m.toNat b) (blockBytes (toWords (s.codeBlock m.toNat b))) := by
  have hb' : (BitVec.ofNat 3 b).toNat < 6 := by rwa [toNat_bsel hb]
  have ldblk : exec (.ldblk r (BitVec.ofNat 3 b) m) s = .next (loadRb r (s.blockIn m.toNat b) s) := by
    rw [exec, execLdblk_tile (tileError_none hb' hd hm), toNat_bsel hb]
  have c2q : exec (.c2q q r) (loadRb r (s.blockIn m.toNat b) s) =
      .next (loadQb q (toWords (s.codeBlock m.toNat b)) (loadRb r (s.blockIn m.toNat b) s)) := by
    rw [exec, execC2q_written (s := loadRb r _ s) hp (loadRb_rbWritten r _ s), loadRb_vals, loadRb_cfg, loadRb_p,
      codeBlock_ref64 hi, commitQuantized_eq, if_pos (codeBlock_fits (accurate_of_ref64 hi) m.toNat b)]
  have stq := execStq_slot (s := loadQb q (toWords (s.codeBlock m.toNat b)) (loadRb r (s.blockIn m.toNat b) s))
    (slotError_none hb' (hm.trans_le (tiles_le_maxMb hd))) (loadQb_qbWritten q _ _)
  rw [loadQb_vals, toNat_bsel hb] at stq
  exact ⟨_, (runAll_cons ldblk).trans ((runAll_cons c2q).trans (runAll_cons stq)), ⟨rfl, rfl, rfl, rfl⟩, rfl⟩

/-- LDQ, Q2C and STBLK of one block write to memory the runs that RECON_MB writes for it. -/
theorem runAll_reconBlockCommands (r q : Fin 4) :
    ∃ t, runAll (reconBlockCommands r q m b) s = some t ∧ SameSetup s t ∧
      t.mem = s.mem.writeRuns (blockOutRuns s m.toNat b (s.reconBlock m.toNat b)) := by
  have hb' : (BitVec.ofNat 3 b).toNat < 6 := by rwa [toNat_bsel hb]
  have ldq : exec (.ldq q (BitVec.ofNat 3 b) m) s = .next (loadQb q (s.coef m.toNat b) s) := by
    rw [exec, execLdq_slot (slotError_none hb' (hm.trans_le (tiles_le_maxMb hd))), toNat_bsel hb]
  have q2c : exec (.q2c r q) (loadQb q (s.coef m.toNat b) s) =
      .next (loadRb r (s.reconBlock m.toNat b) (loadQb q (s.coef m.toNat b) s)) := by
    rw [exec, execQ2c_written (s := loadQb q _ s) hp (loadQb_qbWritten q _ s), loadQb_vals, loadQb_cfg, loadQb_p,
      reconBlock_ref64 hi]
  have stblk := execStblk_tile (s := loadRb r (s.reconBlock m.toNat b) (loadQb q (s.coef m.toNat b) s))
    (tileError_none hb' hd hm) (loadRb_rbWritten r _ _)
  rw [loadRb_vals, toNat_bsel hb] at stblk
  exact ⟨_, (runAll_cons ldq).trans ((runAll_cons q2c).trans (runAll_cons stblk)), ⟨rfl, rfl, rfl, rfl⟩, rfl⟩

end

/-! ## CODE_MB as a sequence -/

/-- Every sample of tile k of IN has been written since reset. -/
def TileWritten (s : State) (k : Nat) : Prop :=
  ∀ c ≤ 2, ∀ x y : Fin 16, s.mem.lookup (inAddr s.cfg c (tileX s.tpr k + x.val) (tileY s.tpr k + y.val)) ≠ none

/-- A block of a tile depends on the samples of the tile alone (42_region R221, R222). -/
theorem blockIn_congr (h : SameSetup s t) (hb : b < 6)
    (hbyte : ∀ c ≤ 2, ∀ x y : Fin 16, t.byteAt (inAddr s.cfg c (tileX s.tpr k + x.val) (tileY s.tpr k + y.val)) =
      s.byteAt (inAddr s.cfg c (tileX s.tpr k + x.val) (tileY s.tpr k + y.val))) :
    t.blockIn k b = s.blockIn k b := by
  have hpix : ∀ c ≤ 2, ∀ x y, inTile s k x y → t.pixIn c x y = s.pixIn c x y := by
    intro c hc x y hin
    obtain ⟨x', y', rfl, rfl⟩ := inTile_iff.mp hin
    rw [State.pixIn, h.cfg]
    exact hbyte c hc x' y'
  refine mkBlock_congr fun i j => congrArg b64OfNat ?_
  by_cases h3 : b ≤ 3
  · have := lumaX_le b
    have := lumaY_le h3
    rw [if_pos h3, if_pos h3, State.lumaSample, State.lumaSample, h.tpr,
      hpix 0 (by omega) _ _ (by unfold inTile; omega)]
  · rw [if_neg h3, if_neg h3, State.chromaSample, State.chromaSample, h.tpr,
      hpix _ (by omega) _ _ (by unfold inTile; omega), hpix _ (by omega) _ _ (by unfold inTile; omega),
      hpix _ (by omega) _ _ (by unfold inTile; omega), hpix _ (by omega) _ _ (by unfold inTile; omega)]

/-- Samples of IN lie below COEF (20_memory R101, 00_scope R11). -/
theorem inAddr_lt_coef {c : Params} (hc : c.Valid) {p x y : Nat} (hp : p ≤ 2) (hx : x < c.maxW) (hy : y < c.maxH) :
    inAddr c p x y < 0x800000 := by
  have := plane_offset hx hy
  have := hc.area
  unfold inAddr
  omega

theorem codedBytes_append (qs rs : List (Block Int)) : codedBytes (qs ++ rs) = codedBytes qs ++ codedBytes rs :=
  List.flatMap_append

/-- Two runs of bytes, one right after the other, are one run. -/
theorem lookup_write_append (mem : Memory) (a : Nat) (bs cs : List Byte) (x : Nat) :
    ((mem.write a bs).write (a + bs.length) cs).lookup x = (mem.write a (bs ++ cs)).lookup x := by
  by_cases hfirst : a ≤ x ∧ x < a + bs.length
  · rw [lookup_write_ne (by omega), lookup_write, if_pos hfirst, lookup_write, List.length_append, if_pos (by omega),
      List.getElem?_append_left (by omega)]
  · rw [lookup_write, lookup_write, if_neg hfirst, lookup_write, List.length_append]
    by_cases hx : a ≤ x
    · rw [List.getElem?_append_right (by omega), Nat.sub_sub]
      exact if_congr (by omega) rfl rfl
    · rw [if_neg (by omega), if_neg (by omega)]

/-- What the sequence for CODE_MB has done after `n` blocks. -/
structure CodedBlocks (s : State) (k n : Nat) (t : State) : Prop where
  setup  : SameSetup s t
  lookup : ∀ a, t.mem.lookup a =
    (s.mem.write (slotAddr k) (codedBytes ((List.range n).map (s.codeBlock k)))).lookup a

theorem CodedBlocks.zero (s : State) (k : Nat) : CodedBlocks s k 0 s where
  setup := .refl s
  lookup _ := (lookup_write_ne (by simp [codedBytes]; omega)).symm

/-- Writing block `n` at its place in the slot advances the blocks coded. -/
theorem CodedBlocks.succ {n : Nat} (h : CodedBlocks s k n t) (hs : SameSetup t u)
    (hmem : u.mem = t.mem.write (coefAddr k n) (blockBytes (toWords (s.codeBlock k n)))) : CodedBlocks s k (n + 1) u where
  setup := h.setup.trans hs
  lookup a := by
    have hlen : coefAddr k n = slotAddr k + (codedBytes ((List.range n).map (s.codeBlock k))).length := by
      rw [length_codedBytes, List.length_map, List.length_range, coefAddr, slotAddr]
    have hone : blockBytes (toWords (s.codeBlock k n)) = codedBytes [s.codeBlock k n] :=
      (List.flatMap_singleton _ _).symm
    rw [hmem, lookup_write, h.lookup, ← lookup_write, hone, hlen, lookup_write_append, ← codedBytes_append,
      List.range_succ, List.map_append, List.map_singleton]

/-- After some blocks are coded, a block of a written tile is coded as at the start: COEF is apart from IN. -/
theorem CodedBlocks.codeBlock_eq {n : Nat} (h : CodedBlocks s k n t) (hv : s.cfg.Valid) (hi : s.cfg.impl = .ref64)
    (hd : s.dimsOk = true) (hm : k < s.tiles) (hw : TileWritten s k) (hb : b < 6) : t.codeBlock k b = s.codeBlock k b := by
  obtain ⟨htx, hty, hwidth, hheight⟩ := tile_bounds hd hm
  have hblock : t.blockIn k b = s.blockIn k b := by
    refine blockIn_congr h.setup hb fun c hc x y => byteAt_congr ?_ (hw c hc x y)
    rw [h.lookup]
    refine lookup_write_ne (.inl ?_)
    exact (inAddr_lt_coef hv hc (by omega) (by omega)).trans_le (Nat.le_add_right _ _)
  rw [State.codeBlock, c2qBlock, State.pInt, hblock, h.setup.cfg, h.setup.p, codeBlock_ref64 hi]

/-- The commands of block `b` advance the blocks coded. -/
theorem CodedBlocks.step (h : CodedBlocks s m.toNat b t) (hv : s.cfg.Valid) (hi : s.cfg.impl = .ref64)
    (hd : s.dimsOk = true) (hp : 0 < s.p.toInt) (hm : m.toNat < s.tiles) (hw : TileWritten s m.toNat) (hb : b < 6)
    (r q : Fin 4) : ∃ u, runAll (codeBlockCommands r q m b) t = some u ∧ CodedBlocks s m.toNat (b + 1) u := by
  obtain ⟨u, hrun, hsetup, hmem⟩ := runAll_codeBlockCommands (s := t) (h.setup.cfg ▸ hi) (h.setup.dimsOk ▸ hd)
    (h.setup.p ▸ hp) (h.setup.tiles ▸ hm) hb r q
  rw [h.codeBlock_eq hv hi hd hm hw hb] at hmem
  exact ⟨u, hrun, h.succ hsetup hmem⟩

/-! ## RECON_MB as a sequence -/

/-- Every byte of slot k of COEF has been written since reset. -/
def SlotWritten (s : State) (k : Nat) : Prop := ∀ i < 1536, s.mem.lookup (slotAddr k + i) ≠ none

theorem SameSetup.blockOutRuns (h : SameSetup s t) (x : Block B64) : blockOutRuns t k b x = blockOutRuns s k b x := by
  simp only [Machine.blockOutRuns, lumaRuns, chromaRuns, h.cfg, h.tpr]

/-- A coefficient block depends on the bytes of its slot alone (10_state R76). -/
theorem coef_congr (hb : b < 6) (hbyte : ∀ i < 1536, t.byteAt (slotAddr k + i) = s.byteAt (slotAddr k + i)) :
    t.coef k b = s.coef k b := by
  have hword : ∀ i, i + 3 < 1536 → t.wordAt (slotAddr k + i) = s.wordAt (slotAddr k + i) := fun i hi => by
    simp (disch := omega) only [State.wordAt, Nat.add_assoc, hbyte]
  refine mkBlock_congr fun i j => ?_
  rw [coefAddr, Nat.add_assoc]
  exact hword _ (by omega)

/-- The runs of a block lie in OUT, below COEF (20_memory R101, 00_scope R11). -/
theorem blockOutRuns_lt_coef (hv : s.cfg.Valid) (hd : s.dimsOk = true) (hm : k < s.tiles) (hb : b < 6) {x : Block B64}
    {r : Nat × List Byte} (hr : r ∈ blockOutRuns s k b x) {a : Nat} (hc : covers r a) : a < 0x800000 := by
  obtain ⟨c, x, y, hc2, hin, rfl, -⟩ := covers_blockOutRuns (X := fun _ _ => x) hb hr hc
  obtain ⟨htx, hty, hwid, hhei⟩ := tile_bounds hd hm
  obtain ⟨hx, hx', hy, hy'⟩ := hin
  have := plane_offset (show x < s.cfg.maxW by omega) (show y < s.cfg.maxH by omega)
  have := hv.area
  unfold outAddr
  omega

/-- What the sequence for RECON_MB has done after `n` blocks. -/
structure RebuiltBlocks (s : State) (k n : Nat) (t : State) : Prop where
  setup : SameSetup s t
  mem   : t.mem = s.mem.writeRuns ((List.range n).flatMap fun b => blockOutRuns s k b (s.reconBlock k b))

theorem RebuiltBlocks.zero (s : State) (k : Nat) : RebuiltBlocks s k 0 s := ⟨.refl s, rfl⟩

/-- Writing the runs of block `n` advances the blocks rebuilt. -/
theorem RebuiltBlocks.succ {n : Nat} (h : RebuiltBlocks s k n t) (hs : SameSetup t u)
    (hmem : u.mem = t.mem.writeRuns (blockOutRuns s k n (s.reconBlock k n))) : RebuiltBlocks s k (n + 1) u where
  setup := h.setup.trans hs
  mem := by
    rw [hmem, h.mem, List.range_succ, List.flatMap_append, List.flatMap_singleton]
    exact List.foldl_append.symm

/-- After some blocks are rebuilt, a block of a written slot is rebuilt as at the start: OUT is apart from COEF. -/
theorem RebuiltBlocks.reconBlock_eq {n : Nat} (h : RebuiltBlocks s k n t) (hv : s.cfg.Valid) (hi : s.cfg.impl = .ref64)
    (hd : s.dimsOk = true) (hm : k < s.tiles) (hw : SlotWritten s k) (hn : n ≤ 6) (hb : b < 6) :
    t.reconBlock k b = s.reconBlock k b := by
  have hcoef : t.coef k b = s.coef k b := by
    refine coef_congr hb fun i hlt => byteAt_congr ?_ (hw i hlt)
    rw [h.mem]
    refine lookup_writeRuns_of_not_covered _ _ _ fun r hr hc => ?_
    obtain ⟨b', hb', hr⟩ := List.mem_flatMap.mp hr
    have := blockOutRuns_lt_coef hv hd hm ((List.mem_range.mp hb').trans_le hn) hr hc
    unfold slotAddr at this
    omega
  rw [State.reconBlock, State.pInt, hcoef, h.setup.cfg, h.setup.p, reconBlock_ref64 hi]

/-- The commands of block `b` advance the blocks rebuilt. -/
theorem RebuiltBlocks.step (h : RebuiltBlocks s m.toNat b t) (hv : s.cfg.Valid) (hi : s.cfg.impl = .ref64)
    (hd : s.dimsOk = true) (hp : 0 < s.p.toInt) (hm : m.toNat < s.tiles) (hw : SlotWritten s m.toNat) (hb : b < 6)
    (r q : Fin 4) : ∃ u, runAll (reconBlockCommands r q m b) t = some u ∧ RebuiltBlocks s m.toNat (b + 1) u := by
  obtain ⟨u, hrun, hsetup, hmem⟩ := runAll_reconBlockCommands (s := t) (h.setup.cfg ▸ hi) (h.setup.dimsOk ▸ hd)
    (h.setup.p ▸ hp) (h.setup.tiles ▸ hm) hb r q
  rw [h.setup.blockOutRuns, h.reconBlock_eq hv hi hd hm hw hb.le hb] at hmem
  exact ⟨u, hrun, h.succ hsetup hmem⟩

/-- Settles O50: block after block, three commands do to memory what the macroblock command does for that block. -/
theorem macroblockIsItsBlockSequence : Obligations.MacroblockIsItsBlockSequence := by
  intro s m r q hv hi hd hp hm
  rw [codeMbSequence_eq, reconMbSequence_eq]
  constructor
  · intro hw
    obtain ⟨u, hrun, hcoded⟩ := exists_runAll_range (P := CodedBlocks s m.toNat)
      (fun b hb u h => h.step hv hi hd hp hm hw hb r q) (.zero s m.toNat)
    exact ⟨_, u, exec_codeMb hd hp hm fun b _ => codeBlock_fits (accurate_of_ref64 hi) m.toNat b, hrun, hcoded.lookup⟩
  · intro hw
    obtain ⟨u, hrun, hrebuilt⟩ := exists_runAll_range (P := RebuiltBlocks s m.toNat)
      (fun b hb u h => h.step hv hi hd hp hm hw hb r q) (.zero s m.toNat)
    exact ⟨_, u, exec_reconMb hd hp hm, hrun, fun a => congrArg (Memory.lookup · a) hrebuilt.mem⟩

end Sys2Proof
end

section
/-! The obligation of 44_picture_coder: the coded blocks of the picture lie one after the other, macroblock by macroblock, so
the one run of bytes that CODE_PIC writes is the slots of the macroblocks in order (R265, R266; 10_state R76). -/

namespace Sys2Proof

open Machine

variable {s : State}

/-- The coded blocks of the first n macroblocks, six for each (44_picture_coder R265). -/
theorem getElem?_flatMap_codeMacroblock (s : State) {n m b : Nat} (hm : m < n) (hb : b < 6) :
    ((List.range n).flatMap s.codeMacroblock)[6 * m + b]? = some (s.codeBlock m b) := by
  induction n with
  | zero => omega
  | succ n ih =>
    have hlen : ((List.range n).flatMap s.codeMacroblock).length = 6 * n := by
      simp [List.length_flatMap, codeMacroblock_length, Nat.mul_comm]
    rw [List.range_succ, List.flatMap_append, List.flatMap_singleton]
    rcases Nat.lt_succ_iff_lt_or_eq.mp hm with hlt | rfl
    · rw [List.getElem?_append_left (by omega), ih hlt]
    · rw [List.getElem?_append_right (by omega), hlen, Nat.add_sub_cancel_left, codeMacroblock_getElem? s m hb]

theorem codePicture_getElem? {m b : Nat} (hm : m < s.tiles) (hb : b < 6) :
    s.codePicture[6 * m + b]? = some (s.codeBlock m b) :=
  getElem?_flatMap_codeMacroblock s hm hb

theorem codePicture_all_blockFits_iff :
    s.codePicture.all blockFits = true ↔ ∀ m < s.tiles, ∀ b < 6, blockFits (s.codeBlock m b) = true := by
  simp only [State.codePicture, List.all_flatMap, List.all_eq_true (l := List.range s.tiles), List.mem_range,
    codeMacroblock_all_blockFits_iff]

/-- CODE_PIC whose blocks fit writes the slots, sets MB_COUNT and completes (44_picture_coder R266). -/
theorem exec_codePic (hd : s.dimsOk = true) (hp : 0 < s.p.toInt)
    (hfit : ∀ m < s.tiles, ∀ b < 6, blockFits (s.codeBlock m b) = true) :
    exec .codePic s = .next (succeed { s with
      mem := s.mem.write (slotAddr 0) (codedBytes s.codePicture), mbCount := BitVec.ofNat 32 s.tiles }) := by
  rw [exec, execCodePic_checked (pictureError_none hd hp), if_pos (codePicture_all_blockFits_iff.mpr hfit)]

/-- MB_COUNT holds TILES, which is at most 4096 (44_picture_coder R269; 00_scope R12). -/
theorem toNat_ofNat_tiles (hv : s.cfg.Valid) (hd : s.dimsOk = true) : (BitVec.ofNat 32 s.tiles).toNat = s.tiles := by
  have hle : s.tiles ≤ 4096 := (tiles_le_maxMb hd).trans (maxMb_le hv)
  rw [BitVec.toNat_ofNat, Nat.mod_eq_of_lt (by omega)]

/-- Settles O48: block b of macroblock m is block 6·m + b of the one run of bytes that CODE_PIC writes from slot 0 on. -/
theorem codePicCodesPicture : Obligations.CodePicCodesPicture := by
  intro s hv hd hp q fits
  refine ⟨fun hacc m _ b _ => blockFits_iff.mp (codeBlock_fits hacc m b), fun hfit => ?_⟩
  refine ⟨_, exec_codePic hd hp fun m hm b hb => blockFits_iff.mpr (hfit m hm b hb), rfl, toNat_ofNat_tiles hv hd,
    fun m hm b hb => ?_, fun a ha => ?_⟩
  · exact coef_write rfl (codePicture_getElem? hm hb) (by rw [slotAddr, coefAddr]; omega)
  · refine lookup_write_ne ?_
    rw [length_codedBytes, codePicture_length, slotAddr]
    omega

end Sys2Proof
end

section
/-! The obligation of 45_picture_reconstructor: the tiles of the macroblocks cover the picture and stay inside it
(42_region R231), so the runs that RECON_PIC writes give every sample of the picture its pixel and touch no other byte (R275,
R278, R281). -/

namespace Sys2Proof

open Machine

variable {s : State}

/-- RECON_PIC writes the runs of every macroblock of the picture and completes (45_picture_reconstructor R277). -/
theorem exec_reconPic (hd : s.dimsOk = true) (hp : 0 < s.p.toInt) (hm : s.mbCount.toNat = s.tiles) :
    exec .reconPic s = .next (succeed { s with mem := s.mem.writeRuns s.reconPictureRuns }) := by
  rw [exec, execReconPic_checked (reconPicError_none hd hp hm)]

theorem reconPictureRuns_eq_tileRuns (s : State) :
    s.reconPictureRuns = tileRuns s s.reconBlock (List.range s.tiles) := rfl

/-- Every sample of the picture lies in a tile of the picture (42_region R231). -/
theorem exists_inTile (hd : s.dimsOk = true) {x y : Nat} (hx : x < s.width.toNat) (hy : y < s.height.toNat) :
    ∃ m < s.tiles, inTile s m x y := by
  obtain ⟨⟨m, ⟨hm, hin⟩, -⟩, -⟩ := tilesPartition s.cfg s.width.toNat s.height.toNat x y hd hx hy
  exact ⟨m, hm, hin⟩

/-- A sample of a tile of the picture lies in the picture (42_region R231). -/
theorem inTile_inside (hd : s.dimsOk = true) {m x y : Nat} (hm : m < s.tiles) (hin : inTile s m x y) :
    x < s.width.toNat ∧ y < s.height.toNat := by
  obtain ⟨-, hx, -, hy⟩ := hin
  obtain ⟨hw, hh, -⟩ := tile_bounds hd hm
  exact ⟨hx.trans_le hw, hy.trans_le hh⟩

/-- Writing the blocks of all tiles writes every sample of the picture its pixel. -/
theorem lookup_tileRuns_range (hv : s.cfg.Valid) (hd : s.dimsOk = true) (X : Nat → Nat → Block B64) (mem : Memory)
    {c x y : Nat} (hc : c ≤ 2) (hx : x < s.width.toNat) (hy : y < s.height.toNat) :
    (mem.writeRuns (tileRuns s X (List.range s.tiles))).lookup (outAddr s.cfg c x y) = some (pixelOf s X c x y) := by
  obtain ⟨m, hm, hin⟩ := exists_inTile hd hx hy
  exact lookup_tileRuns hv hd X (fun _ => List.mem_range.mp) mem (List.mem_range.mpr hm) hc hin

/-- Settles O49: every sample of the picture is in a tile, whose blocks give it its pixel, and no tile has a sample outside
the picture. -/
theorem reconPicRebuildsPicture : Obligations.ReconPicRebuildsPicture := by
  intro s hv hd hp hm
  refine ⟨_, exec_reconPic hd hp hm, rfl, ?_⟩
  rw [reconPictureRuns_eq_tileRuns]
  refine ⟨fun x y hx hy => ⟨?_, fun c hc1 hc2 => ?_⟩, fun a ha => ?_⟩
  · refine (lookup_tileRuns_range hv hd s.reconBlock s.mem (Nat.zero_le 2) hx hy).trans (congrArg some ?_)
    exact if_pos rfl
  · refine (lookup_tileRuns_range hv hd s.reconBlock s.mem hc2 hx hy).trans (congrArg some ?_)
    exact if_neg (Nat.one_le_iff_ne_zero.mp hc1)
  · refine lookup_tileRuns_other s.reconBlock s.mem fun m hmem c hc x y hin => ?_
    obtain ⟨hx, hy⟩ := inTile_inside hd (List.mem_range.mp hmem) hin
    exact ha c x y hc hx hy

end Sys2Proof
end

section
/-! The obligations of 46_control: which command a step runs (R286), that accesses while BUSY = 1 only delay it (R286, and
R360 of 70_reset), what its completion leaves as it was (R289), the commands that do not read P or MB_COUNT (R297), NOP
(R290), and the registers through which the host issues and configures a command (R285). -/

namespace Sys2Proof

open Machine

variable {s t u : State} {i : Instr} {ms : List Move} {w : Word} {a : Nat} {addr : Offset} {v : BitVec 64}

/-! ## The engine's turn -/

/-- While BUSY = 1 the engine's turn runs the command that LC decodes to. -/
theorem engineTurn_decoded (hb : s.phase = .busy) (h : decode s.lc = .ok i) : engineTurn s = exec i s := by
  rw [engineTurn_busy hb, engineStep_ok h]

theorem decode_of_decodeTableWord {nbits n : Nat} (h : decodeTableWord nbits n = some i) :
    decode (tableWord nbits n) = .ok i := by
  unfold decodeTableWord at h
  split at h
  · next j hj => rw [hj, Option.some.inj h]
  · cases h

/-- Settles O5: whichever way the engine gets its turn, LC decodes to the command and BUSY is 1. -/
theorem stepRunsDecodedCommand : Obligations.StepRunsDecodedCommand := by
  intro s i
  refine ⟨fun hd _ hb => ⟨fun ms hms => ?_, fun hms => ?_⟩, fun nbits n hn => ?_⟩
  · rw [step_engine hms]
    exact engineTurn_decoded (s := s.withMoves ms) hb hd
  · rw [step_nil hms, engineTurn_decoded hb hd]
  · rw [step_engine (s := s.withFetchWord nbits n) rfl]
    exact engineTurn_decoded (s := s.issue (tableWord nbits n)) rfl (decode_of_decodeTableWord hn)

/-! ## Accesses while the engine step is owed -/

theorem SameInputs.trans (h : SameInputs s t) (h' : SameInputs t u) : SameInputs s u := by
  unfold SameInputs at *
  rw [h', h]

theorem SameInputs.withMoves (h : SameInputs s t) (ms : List Move) : SameInputs (s.withMoves ms) (t.withMoves ms) := by
  unfold SameInputs at *
  rw [h]
  rfl

theorem SameInputs.phase_eq (h : SameInputs s t) : t.phase = s.phase := by rw [h]

theorem SameInputs.moves_eq (h : SameInputs s t) : t.moves = s.moves := by rw [h]

/-- A step that is a host access while BUSY = 1 keeps the inputs of the running command. -/
theorem step_access {m : Move} (hm : isAccess m = true) (hb : s.phase = .busy) (hms : s.moves = m :: ms) :
    ∃ t, step s = .next t ∧ SameInputs (s.withMoves ms) t := by
  cases m with
  | read addr n => exact ⟨_, step_read hms, sameInputs_hostRead (s.withMoves ms) addr n⟩
  | write addr n v => exact ⟨_, step_write hms, sameInputs_hostWrite (s := s.withMoves ms) hb addr n v⟩
  | engine => cases hm
  | reset => cases hm

/-- Any number of accesses while BUSY = 1 use up their moves and keep the inputs of the running command. -/
theorem run_accesses (hb : s.phase = .busy) (hms : s.moves = ms) (hacc : ∀ m ∈ ms, isAccess m = true) :
    ∃ t, core.run ms.length s = .next t ∧ SameInputs (s.withMoves []) t := by
  induction ms generalizing s with
  | nil =>
    refine ⟨s, rfl, ?_⟩
    rw [← hms]
    rfl
  | cons m ms ih =>
    obtain ⟨hm, hrest⟩ := List.forall_mem_cons.mp hacc
    obtain ⟨u, hu, hsu⟩ := step_access hm hb hms
    obtain ⟨t, ht, hut⟩ := ih (hsu.phase_eq.trans hb) hsu.moves_eq hrest
    exact ⟨t, (core_run_succ hu).trans ht, (hsu.withMoves []).trans hut⟩

/-- Settles O6: the accesses keep the command's inputs, and with no move left the engine step still owed is next. -/
theorem engineStepOwed : Obligations.EngineStepOwed := by
  intro s hb hacc
  obtain ⟨t, ht, h⟩ := run_accesses hb rfl hacc
  have hmoves : t.moves = [] := h.moves_eq
  have hbusy : t.phase = .busy := h.phase_eq.trans hb
  refine ⟨t, ht, hmoves, hbusy, ?_⟩
  rw [step_nil hmoves, engineTurn_busy hbusy, h]
  exact ⟨rfl, rfl, rfl, rfl, rfl, rfl, rfl, rfl, rfl, rfl, rfl⟩

/-! ## Completion -/

/-- Settles O14: a completion is an error recorded in STATUS alone, or it changes block registers, memory and, by CODE_PIC,
MB_COUNT. -/
theorem completionRecord : Obligations.CompletionRecord := by
  intro i s
  obtain ⟨t, ht⟩ := exec_completes i s
  refine ⟨t, ht, ?_⟩
  rcases exec_next ht with ⟨e, et⟩ | ⟨rb, qb, runs, mb, ⟨et, _⟩, hmb⟩
  · generalize t.uninit = n at et
    subst et
    exact ⟨rfl, rfl, rfl, rfl, rfl, rfl, rfl, rfl, rfl, rfl, rfl, rfl, rfl, fun _ => rfl, .inr ⟨e, rfl⟩⟩
  · generalize t.uninit = n at et
    subst et
    exact ⟨rfl, rfl, rfl, rfl, rfl, rfl, rfl, rfl, rfl, rfl, rfl, rfl, rfl, hmb, .inl ⟨rfl, rfl⟩⟩

/-! ## Commands that do not read P or MB_COUNT -/

/-- The state with another P and MB_COUNT. -/
def withParameter (p k : Word) (s : State) : State := { s with p := p, mbCount := k }

/-- The checks of a command that does not read P do not depend on P or MB_COUNT (60_exceptions R309). -/
theorem memoryError_withParameter (hr : ¬ readsP i) (p k : Word) (s : State) :
    memoryError (withParameter p k s) i = memoryError s i := by
  cases i with
  | nop | fdct _ _ | idct _ _ | quant _ _ | deq _ _ | c2q _ _ | q2c _ _ => rfl
  | ldblk _ _ _ | stblk _ _ _ | ldq _ _ _ | stq _ _ _ => rfl
  | codeMb _ | reconMb _ | codePic | reconPic => exact absurd (by simp [readsP, checksOf]) hr

/-- A command that does not read P does the same whatever P and MB_COUNT hold. -/
theorem exec_withParameter (hr : ¬ readsP i) (p k : Word) (s : State) :
    ∃ t, exec i s = .next t ∧ exec i (withParameter p k s) = .next (withParameter p k t) := by
  cases he : memoryError s i with
  | some e => exact ⟨_, exec_memoryError he, exec_memoryError ((memoryError_withParameter hr p k s).trans he)⟩
  | none =>
    cases i with
    | nop | fdct _ _ | idct _ _ => exact ⟨_, rfl, rfl⟩
    | ldblk _ _ _ => exact ⟨_, execLdblk_tile he, execLdblk_tile (s := withParameter p k s) he⟩
    | stblk _ _ _ => exact ⟨_, execStblk_reads he, execStblk_reads (s := withParameter p k s) he⟩
    | ldq _ _ _ => exact ⟨_, execLdq_slot he, execLdq_slot (s := withParameter p k s) he⟩
    | stq _ _ _ => exact ⟨_, execStq_reads he, execStq_reads (s := withParameter p k s) he⟩
    | quant _ _ | deq _ _ | c2q _ _ | q2c _ _ | codeMb _ | reconMb _ | codePic | reconPic =>
      exact absurd (by simp [readsP, checksOf]) hr

/-- Settles O18: the two runs, from any P and MB_COUNT, differ in these two alone. -/
theorem parameterNotRead : Obligations.ParameterNotRead := by
  intro i s t p k hr ht
  obtain ⟨u, hu, hu'⟩ := exec_withParameter hr p k s
  obtain rfl : u = t := Host.Outcome.next.inj (hu.symm.trans ht)
  exact hu'

/-! ## NOP -/

/-- Every command's word carries the opcode of its row (30_encoding R142, R149). -/
theorem opcOf_encode (i : Instr) : opcOf (encode i) = Laws.EncodedOpcode.opcode i := by
  cases i <;> exact (Laws.EncodedOpcode.commandWord_opcode ..).1

theorem opcode_eq_zero_iff : Laws.EncodedOpcode.opcode i = 0x00 ↔ i = .nop := by
  cases i <;> simp [Laws.EncodedOpcode.opcode]

theorem encode_nop : encode .nop = 0 := by decide

/-- OPC is the low byte of a word (30_encoding R142). -/
theorem toNat_opcOf (w : Word) : (opcOf w).toNat = w.toNat % 256 := by
  simp [opcOf]

/-- Of the words with OPC 0x00 only 0 decodes (46_control R290). -/
theorem decode_opcode_zero (ho : w.toNat % 256 = 0) (h : decode w = .ok i) : w = 0 := by
  obtain ⟨rfl, -⟩ := decode_eq_ok_iff.mp h
  have hop : opcOf (encode i) = 0x00 := BitVec.eq_of_toNat_eq ((toNat_opcOf _).trans ho)
  rw [opcOf_encode, opcode_eq_zero_iff] at hop
  rw [hop, encode_nop]

/-- Settles O24: NOP is its completion, and 0 is the one word with its opcode that is a command's encoding. -/
theorem nopOnlyCompletes : Obligations.NopOnlyCompletes := by
  refine ⟨fun _ => rfl, fun w => ?_, fun w ho hne => ?_, fun c => ⟨_, rfl, ?_, rfl⟩⟩
  · rw [decode_eq_ok_iff, encode_nop, eq_comm]
    exact and_iff_left rfl
  · cases hd : decode w with
    | error e => exact ⟨e, rfl⟩
    | ok i => exact absurd (decode_opcode_zero ho hd) hne
  · exact BitVec.eq_of_toNat_eq (status_toNat _)

/-! ## CMD, P, WIDTH, HEIGHT and MB_COUNT -/

/-- While BUSY = 0 a write at one of these registers is performed. -/
theorem hostWrite_configuration (hi : s.phase = .idle) (hlo : 0x010 ≤ addr.toNat) (hhi : addr.toNat ≤ 0x020)
    (h4 : addr.toNat % 4 = 0) : s.hostWrite addr .b4 v = answered .ok (s.writeReg addr.toNat (v.setWidth 32)) := by
  rw [hostWrite_reg (by omega) h4 (by omega) (.inl hi), low32]

/-- Each of these registers holds what was written to it. -/
theorem readReg_writeReg (hlo : 0x010 ≤ a) (hhi : a ≤ 0x020) (h4 : a % 4 = 0) (w : Word) (s : State) :
    (s.writeReg a w).readReg a = w := by
  have ha : a = 0x010 ∨ a = 0x014 ∨ a = 0x018 ∨ a = 0x01C ∨ a = 0x020 := by omega
  rcases ha with rfl | rfl | rfl | rfl | rfl <;> rfl

/-- Settles O55: BUSY alone decides whether a write to one of the five registers is performed. -/
theorem commandAndConfigurationRegisters : Obligations.CommandAndConfigurationRegisters := by
  intro s v
  refine ⟨fun hi => ?_, fun a ha => ?_⟩
  · have write (addr : Offset) := hostWrite_configuration (addr := addr) (v := v) hi
    exact ⟨write 0x000010 (by decide) (by decide) (by decide), write 0x000014 (by decide) (by decide) (by decide),
      write 0x000018 (by decide) (by decide) (by decide), write 0x00001C (by decide) (by decide) (by decide),
      write 0x000020 (by decide) (by decide) (by decide)⟩
  · obtain ⟨hlo, hhi, h4⟩ : 0x010 ≤ a.toNat ∧ a.toNat ≤ 0x020 ∧ a.toNat % 4 = 0 := by
      rcases ha with rfl | rfl | rfl | rfl | rfl <;> decide
    refine ⟨fun hi => ?_, fun hb => hostWrite_none (writeRegion_none_iff.mpr ?_)⟩
    · rw [hostWrite_configuration hi hlo hhi h4, hostRead_reg (by omega) h4]
      exact congrArg (fun x : Word => some (Response.okData .b4 (x.setWidth 64))) (readReg_writeReg hlo hhi h4 _ s)
    · exact .inr (.inr (.inr ⟨hb, by omega, by omega⟩))

end Sys2Proof
end

section
/-! The obligations of 60_exceptions: which words are Illegal (R302), and that the first failing check of a command's row of
R309 is its error. The model's checks are put as the same search through the table (`firstError_eq`), so that one lemma,
`exec_reports`, says how every command completes, and the errors of R304–R307 are read off the table. -/

namespace Sys2Proof

open Machine

variable {s t : State} {i : Instr} {e : CmdError} {l : List CmdError} {w : Word} {r : OpRow} {b : BitVec 3} {m : BitVec 16}

/-! ## Illegal words -/

/-- No two rows of the opcode map have the same opcode. -/
theorem row_eq_of_opcOf_eq {q : OpRow} (hr : r ∈ opcodeMap) (hq : q ∈ opcodeMap)
    (h : opcOf r.pattern = opcOf q.pattern) : r = q := by
  have distinct : (opcodeMap.map (opcOf ·.pattern)).Nodup := by decide
  exact List.inj_on_of_nodup_map distinct hr hq h

theorem exists_error_iff : (∃ e, decode w = .error e) ↔ ∀ i, decode w ≠ .ok i := by
  cases decode w <;> simp

/-- The decoder refuses a word for one of the three reasons of R302, and only then. -/
theorem decode_error_iff :
    (∃ e, decode w = .error e) ↔
      (∀ r ∈ opcodeMap, opcOf r.pattern ≠ opcOf w) ∨
      (∃ r ∈ opcodeMap, opcOf r.pattern = opcOf w ∧ r.matchesWord w = false) ∨
      ∃ r ∈ opcodeMap, r.matchesWord w = true ∧ (r.usesBsel && !blockSelectorOk (fieldsOf w).bsel) = true := by
  rw [exists_error_iff]
  constructor
  · intro h
    by_contra hc
    push Not at hc
    obtain ⟨⟨r, hr, hopc⟩, hmatch, hbsel⟩ := hc
    have hw : r.matchesWord w = true := by simpa using hmatch r hr hopc
    have hwf : (r.build (fieldsOf w)).wellFormed = true := by
      simpa [rejects_eq_not_wellFormed hr] using hbsel r hr hw
    exact h _ (by rw [decode_of_matchesWord hr hw, if_pos hwf])
  · intro h i hi
    obtain ⟨q, hq, hqw⟩ := exists_matchesWord_of_decode hi
    have hopc := opcOf_pattern_of_matchesWord hq hqw
    rcases h with hno | ⟨r, hr, hro, hrw⟩ | ⟨r, hr, hrw, hbsel⟩
    · exact hno q hq hopc
    · obtain rfl := row_eq_of_opcOf_eq hr hq (hro.trans hopc.symm)
      rw [hqw] at hrw
      cases hrw
    · rw [rejects_eq_not_wellFormed hr, Bool.not_eq_true'] at hbsel
      rw [decode_of_matchesWord hr hrw, hbsel] at hi
      cases hi

/-- (a) of R302: the opcodes that no row has (30_encoding R151). -/
theorem reservedOpcode_iff :
    (∀ r ∈ opcodeMap, opcOf r.pattern ≠ opcOf w) ↔
      w.toNat % 256 = 0x07 ∨ (0x0C ≤ w.toNat % 256 ∧ w.toNat % 256 ≤ 0x0F) ∨ 0x14 ≤ w.toNat % 256 := by
  rw [← toNat_opcOf]
  have table : ∀ o : BitVec 8, (∀ r ∈ opcodeMap, opcOf r.pattern ≠ o) ↔
      o.toNat = 0x07 ∨ (0x0C ≤ o.toNat ∧ o.toNat ≤ 0x0F) ∨ 0x14 ≤ o.toNat := by decide
  exact table _

theorem bsel_eq_div (w : Word) : (fieldsOf w).bsel.toNat = w.toNat / 4096 % 8 := by
  simp [fieldsOf, Nat.shiftRight_eq_div_pow]

/-- (c) of R302: the four rows that use BSEL, and the values that name no block (30_encoding R145). -/
theorem blockSelector_iff :
    (∃ r ∈ opcodeMap, r.matchesWord w = true ∧ (r.usesBsel && !blockSelectorOk (fieldsOf w).bsel) = true) ↔
      (w &&& 0x00008CFF = 0x00000008 ∨ w &&& 0x000083FF = 0x00000009 ∨ w &&& 0x00008CFF = 0x0000000A ∨
        w &&& 0x000083FF = 0x0000000B) ∧ 6 ≤ w.toNat / 4096 % 8 := by
  have rows : (∃ r ∈ opcodeMap, r.usesBsel = true ∧ r.matchesWord w = true) ↔
      w &&& 0x00008CFF = 0x00000008 ∨ w &&& 0x000083FF = 0x00000009 ∨ w &&& 0x00008CFF = 0x0000000A ∨
        w &&& 0x000083FF = 0x0000000B := by
    simp [opcodeMap, OpRow.matchesWord]
  have selector : (!blockSelectorOk (fieldsOf w).bsel) = true ↔ 6 ≤ w.toNat / 4096 % 8 := by
    rw [← bsel_eq_div]
    simp [blockSelectorOk]
  rw [← rows, ← selector]
  simp only [Bool.and_eq_true]
  constructor
  · rintro ⟨r, hr, hw, hu, hb⟩
    exact ⟨⟨r, hr, hu, hw⟩, hb⟩
  · rintro ⟨⟨r, hr, hu, hw⟩, hb⟩
    exact ⟨r, hr, hw, hu, hb⟩

/-- Settles O4: the three reasons of the decoder are those of R302, and the engine step answers an Illegal word at once. -/
theorem illegalCommand : Obligations.IllegalCommand := by
  intro s
  constructor
  · rw [decode_error_iff, reservedOpcode_iff, blockSelector_iff]
    simp only [OpRow.matchesWord, beq_eq_false_iff_ne]
  · rintro ⟨e, he⟩
    exact engineStep_error he

/-! ## The table of checks -/

/-- The first of a list of checks that fails, check by check. -/
theorem find?_check {p : CmdError → Bool} : (e :: l).find? p = if p e then some e else l.find? p := by
  cases h : p e <;> simp [h]

theorem failsCheck_param (i : Instr) (s : State) : failsCheck i s .invalidParameter = !s.paramOk := by
  rw [State.paramOk, ← decide_not]
  exact decide_eq_decide.mpr not_lt.symm

theorem failsCheck_coef (i : Instr) (s : State) :
    failsCheck i s .coefOverflow = !(quantizedBlocks s i).all blockFits := by
  have fits : (fun e : Int => decide (-2147483648 ≤ e ∧ e ≤ 2147483647)) = fitsInt32 := by
    funext e
    simp [fitsInt32]
  simp only [failsCheck, fits, List.any_eq_not_all_not, Bool.not_not]
  rfl

theorem passes_illegal (h : i.WellFormed) : failsCheck i s .illegalCommand = false := by
  rw [failsCheck, h]
  rfl

theorem passes_dims (h : dimsValid s.cfg s.width.toNat s.height.toNat = true) :
    failsCheck i s .invalidDimensions = false := by
  rw [failsCheck, h]
  rfl

theorem passes_param (h : 0 < s.p.toInt) : failsCheck i s .invalidParameter = false := by
  rw [failsCheck_param, paramOk_pos h]
  rfl

/-- A well-formed command passes the first check of its row. -/
theorem find?_illegal (h : i.WellFormed) (s : State) :
    (CmdError.illegalCommand :: l).find? (failsCheck i s) = l.find? (failsCheck i s) :=
  List.find?_cons_of_neg (ne_true_of_eq_false (passes_illegal h))

theorem tileError_eq_find? (hb : i.wellFormed = blockSelectorOk b)
    (hm : indexOutOfRange s i = decide (s.tiles ≤ m.toNat)) :
    s.tileError b m = [CmdError.illegalCommand, .invalidDimensions, .indexRange].find? (failsCheck i s) := by
  simp only [find?_check, failsCheck, hb, hm, decide_eq_true_eq]
  rfl

theorem slotError_eq_find? (hb : i.wellFormed = blockSelectorOk b)
    (hm : indexOutOfRange s i = decide (maxMb s.cfg ≤ m.toNat)) :
    s.slotError b m = [CmdError.illegalCommand, .indexRange].find? (failsCheck i s) := by
  simp only [find?_check, failsCheck, hb, hm, decide_eq_true_eq]
  rfl

theorem pictureError_eq_find? (i : Instr) (s : State) :
    s.pictureError = [CmdError.invalidDimensions, .invalidParameter].find? (failsCheck i s) := by
  simp only [find?_check, failsCheck_param]
  rfl

/-- One more check after those of `pictureError`. -/
theorem pictureError_or_check (i : Instr) (s : State) (e : CmdError) :
    s.pictureError.or (if failsCheck i s e then some e else none) =
      [.invalidDimensions, .invalidParameter, e].find? (failsCheck i s) := by
  rw [pictureError_eq_find? i, ← List.find?_nil (p := failsCheck i s), ← find?_check, ← List.find?_append]
  rfl

theorem macroblockError_eq_find? (hm : indexOutOfRange s i = decide (s.tiles ≤ m.toNat)) :
    s.macroblockError m = [CmdError.invalidDimensions, .invalidParameter, .indexRange].find? (failsCheck i s) := by
  rw [← pictureError_or_check, failsCheck, hm, State.macroblockError]
  simp only [decide_eq_true_eq]
  cases s.pictureError <;> rfl

theorem reconPicError_eq_find? (i : Instr) (s : State) :
    s.reconPicError = [CmdError.invalidDimensions, .invalidParameter, .lengthMismatch].find? (failsCheck i s) := by
  rw [← pictureError_or_check, failsCheck, State.reconPicError]
  simp only [decide_eq_true_eq, ite_not]
  cases s.pictureError <;> rfl

/-- The error of the check that p is legal (60_exceptions R305). -/
def paramError (s : State) : Option CmdError := if s.paramOk then none else some .invalidParameter

/-- The error of the checks that a command makes before it computes anything (46_control R287, R288). -/
def earlyError (s : State) : Instr → Option CmdError
  | .quant _ _ | .deq _ _ | .c2q _ _ | .q2c _ _ => paramError s
  | i => memoryError s i

/-- The error of the check of what a command has computed (60_exceptions R308). -/
def overflowError (s : State) (i : Instr) : Option CmdError :=
  if (quantizedBlocks s i).all blockFits then none else some .coefOverflow

theorem paramError_some (h : paramError s = some e) : ¬ s.paramOk = true ∧ e = .invalidParameter := by
  unfold paramError at h
  split_ifs at h with hp
  exact ⟨hp, (Option.some.inj h).symm⟩

theorem param_pos (h : paramError s = none) : 0 < s.p.toInt := by
  by_contra hp
  rw [paramError, paramOk_nonpos (not_lt.mp hp)] at h
  cases h

theorem overflowError_some (h : overflowError s i = some e) : e = .coefOverflow := by
  unfold overflowError at h
  split_ifs at h
  exact (Option.some.inj h).symm

theorem overflowError_singleton {q : Block Int} (h : quantizedBlocks s i = [q]) :
    overflowError s i = if blockFits q then none else some .coefOverflow := by
  rw [overflowError, h, List.all_cons, List.all_nil, Bool.and_true]

theorem paramError_eq_find? (i : Instr) (s : State) :
    paramError s = [CmdError.invalidParameter].find? (failsCheck i s) := by
  rw [find?_check, failsCheck_param, paramError]
  cases s.paramOk <;> rfl

/-- The checks that the model makes before a computation are those of the table of R309 other than COEF_OVERFLOW, in its
order. -/
theorem earlyError_eq_find? (i : Instr) (s : State) :
    earlyError s i = ((checksOf i).erase .coefOverflow).find? (failsCheck i s) := by
  cases i with
  | nop | fdct _ _ | idct _ _ => rfl
  | quant _ _ | deq _ _ | c2q _ _ | q2c _ _ =>
    exact (paramError_eq_find? _ s).trans (find?_illegal rfl s).symm
  | ldblk _ _ _ | stblk _ _ _ => exact tileError_eq_find? rfl rfl
  | ldq _ _ _ | stq _ _ _ => exact slotError_eq_find? rfl rfl
  | codeMb _ | reconMb _ => exact (macroblockError_eq_find? rfl).trans (find?_illegal rfl s).symm
  | codePic => exact (pictureError_eq_find? _ s).trans (find?_illegal rfl s).symm
  | reconPic => exact (reconPicError_eq_find? _ s).trans (find?_illegal rfl s).symm

theorem find?_coef (i : Instr) (s : State) : [CmdError.coefOverflow].find? (failsCheck i s) = overflowError s i := by
  rw [find?_check, failsCheck_coef, overflowError]
  cases (quantizedBlocks s i).all blockFits <;> rfl

/-- The first failing check of a command's row: one made before the computation, or else COEF_OVERFLOW. -/
theorem firstError_eq (i : Instr) (s : State) : firstError i s = (earlyError s i).or (overflowError s i) := by
  rw [earlyError_eq_find?]
  cases i with
  | quant _ _ | c2q _ _ | codeMb _ | codePic => rw [← find?_coef, ← List.find?_append]; rfl
  | nop | fdct _ _ | idct _ _ | deq _ _ | q2c _ _ | ldblk _ _ _ | stblk _ _ _ | ldq _ _ _ | stq _ _ _ | reconMb _
  | reconPic => exact (Option.or_none ..).symm

/-! ## Completion by the table -/

/-- A check that fails before anything is computed is reported, and nothing else is done (46_control R288, R289). -/
theorem exec_earlyError (he : earlyError s i = some e) : exec i s = .next (failWith (errorCode e) s) := by
  cases i with
  | quant _ _ | deq _ _ | c2q _ _ | q2c _ _ =>
    obtain ⟨hp, rfl⟩ := paramError_some he
    exact if_neg hp
  | nop | fdct _ _ | idct _ _ | ldblk _ _ _ | stblk _ _ _ | ldq _ _ _ | stq _ _ _ | codeMb _ | reconMb _ | codePic
  | reconPic => exact exec_memoryError he

/-- A first failing check other than COEF_OVERFLOW is reported, and nothing else is done. -/
theorem exec_firstError (h : firstError i s = some e) (hne : e ≠ .coefOverflow) :
    exec i s = .next (failWith (errorCode e) s) := by
  rw [firstError_eq, Option.or_eq_some_iff] at h
  rcases h with he | ⟨_, ho⟩
  · exact exec_earlyError he
  · exact absurd (overflowError_some ho) hne

/-- `t` reports the outcome `o` of the checks of a command run in `s`: an error, and then nothing else is changed but the
record of what the command has read, or none. -/
structure Reports (s : State) (o : Option CmdError) (t : State) : Prop where
  failure : ∀ e, o = some e → t = failWith (errorCode e) { s with uninit := t.uninit }
  success : o = none → t.phase = .idle ∧ t.done = true ∧ t.err = s.err ∧ t.errCode = s.errCode

theorem reports_failWith (s : State) (e : CmdError) (n : Option String) :
    Reports s (some e) (failWith (errorCode e) { s with uninit := n }) where
  failure _ h := by rw [← Option.some.inj h]; rfl
  success := nofun

theorem reports_succeed (herr : t.err = s.err) (hcode : t.errCode = s.errCode) : Reports s none (succeed t) where
  failure := nofun
  success _ := ⟨rfl, rfl, herr, hcode⟩

/-- The end of a command that quantizes into a register: the write, or COEF_OVERFLOW. -/
theorem reports_commit {α : Type} (n : String) (r : BlockReg α) (rd : Fin 4) (q : Block Int) (s : State) :
    Reports s (if blockFits q then none else some .coefOverflow) ((s.noteRead n r).commitQuantized rd q) := by
  rw [commitQuantized_eq]
  split
  · exact reports_succeed rfl rfl
  · exact reports_failWith s .coefOverflow _

/-- The end of a command that codes macroblocks: the write, or COEF_OVERFLOW. -/
theorem reports_coded {fits : Bool} {o : Host.Outcome State Fault Refusal}
    (ho : o = if fits then .next (succeed t) else .next (failWith 6 s)) (herr : t.err = s.err)
    (hcode : t.errCode = s.errCode) : ∃ u, o = .next u ∧ Reports s (if fits then none else some .coefOverflow) u := by
  cases fits with
  | true => exact ⟨_, ho, reports_succeed herr hcode⟩
  | false => exact ⟨_, ho, reports_failWith s .coefOverflow _⟩

/-- Every command reports its first failing check (46_control R288; 60_exceptions R303). -/
theorem exec_reports (i : Instr) (s : State) : ∃ t, exec i s = .next t ∧ Reports s (firstError i s) t := by
  rw [firstError_eq]
  cases he : earlyError s i with
  | some e => exact ⟨_, exec_earlyError he, reports_failWith s e _⟩
  | none =>
    rw [Option.none_or]
    cases i with
    | nop => exact ⟨_, rfl, reports_succeed rfl rfl⟩
    | fdct _ _ => exact ⟨_, execFdct_reads .., reports_succeed rfl rfl⟩
    | idct _ _ => exact ⟨_, execIdct_reads .., reports_succeed rfl rfl⟩
    | quant rd rs =>
      rw [overflowError_singleton rfl]
      exact ⟨_, execQuant_reads (param_pos he), reports_commit "QUANT" s.rb[rs] rd _ s⟩
    | c2q rd rs =>
      rw [overflowError_singleton rfl]
      exact ⟨_, execC2q_reads (param_pos he), reports_commit "C2Q" s.rb[rs] rd _ s⟩
    | deq _ _ => exact ⟨_, execDeq_reads (param_pos he), reports_succeed rfl rfl⟩
    | q2c _ _ => exact ⟨_, execQ2c_reads (param_pos he), reports_succeed rfl rfl⟩
    | ldblk _ _ _ => exact ⟨_, execLdblk_tile he, reports_succeed rfl rfl⟩
    | stblk _ _ _ => exact ⟨_, execStblk_reads he, reports_succeed rfl rfl⟩
    | ldq _ _ _ => exact ⟨_, execLdq_slot he, reports_succeed rfl rfl⟩
    | stq _ _ _ => exact ⟨_, execStq_reads he, reports_succeed rfl rfl⟩
    | codeMb _ => exact reports_coded (execCodeMb_checked he) rfl rfl
    | reconMb _ => exact ⟨_, execReconMb_checked he, reports_succeed rfl rfl⟩
    | codePic => exact reports_coded (execCodePic_checked he) rfl rfl
    | reconPic => exact ⟨_, execReconPic_checked he, reports_succeed rfl rfl⟩

/-- Settles O13: every command reports its first failing check, and only a command that computes has read a register. -/
theorem checksInOrder : Obligations.ChecksInOrder := by
  intro i s
  obtain ⟨t, ht, hrep⟩ := exec_reports i s
  constructor
  · intro e he
    refine ⟨t, ht, hrep.failure e he, Or.rec (uninit_kept ht) fun hne => ?_⟩
    rw [Host.Outcome.next.inj (ht.symm.trans (exec_firstError he hne))]
    rfl
  · intro hnone
    obtain ⟨hphase, hdone, herr, hcode⟩ := hrep.success hnone
    exact ⟨t, ht, hphase, hdone, herr, hcode, uninit_kept ht⟩

/-! ## The errors of the table -/

/-- A failing check is the error of a command that passes the checks before it in its row (60_exceptions R303). -/
theorem exec_failing (passed : List CmdError) {rest : List CmdError} (hrow : checksOf i = passed ++ e :: rest)
    (hpass : passed.Forall (failsCheck i s · = false)) (hfail : failsCheck i s e = true) (hne : e ≠ .coefOverflow) :
    exec i s = .next (failWith (errorCode e) s) := by
  refine exec_firstError ?_ hne
  rw [firstError, hrow, List.find?_eq_some_iff_append]
  exact ⟨hfail, passed, rest, rfl, fun c hc => by rw [List.forall_iff_forall_mem.mp hpass c hc]; rfl⟩

/-- The dimension check comes right after that of the word. -/
theorem checksOf_of_readsDims (h : readsDims i) :
    ∃ rest, checksOf i = [.illegalCommand] ++ .invalidDimensions :: rest := by
  cases i with
  | nop | fdct _ _ | idct _ _ | quant _ _ | deq _ _ | c2q _ _ | q2c _ _ | ldq _ _ _ | stq _ _ _ =>
    simp [readsDims, checksOf] at h
  | ldblk _ _ _ | stblk _ _ _ | codeMb _ | reconMb _ | codePic | reconPic => exact ⟨_, rfl⟩

/-- Before the parameter check there is that of the dimensions at most, and the commands that make it have no BSEL. -/
theorem checksOf_of_readsP (h : readsP i) : i.WellFormed ∧
    ((∃ rest, checksOf i = [.illegalCommand] ++ .invalidParameter :: rest) ∨
      readsDims i ∧ ∃ rest, checksOf i = [.illegalCommand, .invalidDimensions] ++ .invalidParameter :: rest) := by
  cases i with
  | nop | fdct _ _ | idct _ _ | ldblk _ _ _ | stblk _ _ _ | ldq _ _ _ | stq _ _ _ =>
    simp [readsP, checksOf] at h
  | quant _ _ | deq _ _ | c2q _ _ | q2c _ _ => exact ⟨rfl, .inl ⟨_, rfl⟩⟩
  | codeMb _ | reconMb _ | codePic | reconPic => exact ⟨rfl, .inr ⟨by simp [readsDims, checksOf], _, rfl⟩⟩

/-- Settles O19: the dimension check is the first that a well-formed command can fail. -/
theorem invalidDimensions : Obligations.InvalidDimensions := by
  intro i s hwf hi hd
  obtain ⟨rest, hrow⟩ := checksOf_of_readsDims hi
  rw [← dimsValid_iff, Bool.not_eq_true] at hd
  refine exec_failing [.illegalCommand] hrow (passes_illegal hwf) ?_ nofun
  rw [failsCheck, hd]
  rfl

/-- Settles O20: nothing but the dimension check comes before the parameter check. -/
theorem invalidParameter : Obligations.InvalidParameter := by
  intro i s hi hd hp
  obtain ⟨hwf, ⟨rest, hrow⟩ | ⟨hdims, rest, hrow⟩⟩ := checksOf_of_readsP hi
  · exact exec_failing _ hrow (passes_illegal hwf) (decide_eq_true hp) nofun
  · exact exec_failing _ hrow ⟨passes_illegal hwf, passes_dims (hd hdims)⟩ (decide_eq_true hp) nofun

/-- Settles O21: the length check is the last of RECON_PIC's row. -/
theorem lengthMismatch : Obligations.LengthMismatch := by
  intro s hd hp hm
  exact exec_failing (e := .lengthMismatch) [.illegalCommand, .invalidDimensions, .invalidParameter] rfl
    ⟨passes_illegal rfl, passes_dims hd, passes_param hp⟩ (decide_eq_true hm) nofun

theorem exec_indexOutOfRange (passed : List CmdError) {rest : List CmdError} (hm : indexOutOfRange s i = true)
    (hrow : checksOf i = passed ++ .indexRange :: rest) (hpass : passed.Forall (failsCheck i s · = false)) :
    exec i s = .next (failWith 5 s) :=
  exec_failing passed hrow hpass hm nofun

/-- Settles O22: the index check comes last but for COEF_OVERFLOW in every row that has it. -/
theorem indexRange : Obligations.IndexRange := by
  intro s r b m hb
  have hwf : blockSelectorOk b = true := blockSelectorOk_lt hb
  refine ⟨fun hd hm => ?_, fun hm => ?_⟩
  · replace hm := decide_eq_true hm
    exact ⟨exec_indexOutOfRange [.illegalCommand, .invalidDimensions] hm rfl ⟨passes_illegal hwf, passes_dims hd⟩,
      exec_indexOutOfRange [.illegalCommand, .invalidDimensions] hm rfl ⟨passes_illegal hwf, passes_dims hd⟩,
      fun hp =>
        ⟨exec_indexOutOfRange [.illegalCommand, .invalidDimensions, .invalidParameter] hm rfl
          ⟨passes_illegal rfl, passes_dims hd, passes_param hp⟩,
        exec_indexOutOfRange [.illegalCommand, .invalidDimensions, .invalidParameter] hm rfl
          ⟨passes_illegal rfl, passes_dims hd, passes_param hp⟩⟩⟩
  · replace hm := decide_eq_true hm
    exact ⟨exec_indexOutOfRange [.illegalCommand] hm rfl (passes_illegal hwf),
      exec_indexOutOfRange [.illegalCommand] hm rfl (passes_illegal hwf)⟩

end Sys2Proof
end

section
/-! The obligations of 70_reset_and_hazards: what reset leaves (R341) and that it satisfies the invariant, the reset move
(R340), the engine's turn while idle (R343), and the race of a clear of DONE with a completion (R354). -/

namespace Sys2Proof

open Machine

variable {s t : State} {i : Instr}

/-! ## Reset -/

theorem elem_replicate {α : Type} (x : α) (j k : Fin 8) : elem (Vector.replicate 64 x) j k = x := by
  simp [elem]

/-- Settles O9: each register is read in the state after reset. -/
theorem resetValues : Obligations.ResetValues := by
  intro c
  have ctrl : (State.resetWith c).ctrl = 0 := show 0#31 ++ BitVec.ofBool false = 0#32 by decide
  have status : (State.resetWith c).status = 0 := BitVec.eq_of_toNat_eq (status_toNat _)
  refine ⟨rfl, rfl, ctrl, status, rfl, rfl, rfl, rfl, rfl, maxdim_toNat c, fun k => readReg_qtable k, rfl, rfl,
    fun r j k => ?_, fun r j k => ?_, fun _ => rfl⟩
  · simp [State.resetWith, BlockReg.reset, elem_replicate]
  · simp [State.resetWith, BlockReg.reset, elem_replicate]

/-- Settles O10: the move is `applyReset` while BUSY = 0, and a fault while BUSY = 1. -/
theorem resetMove : Obligations.ResetMove := by
  intro s ms hms
  rw [step_reset hms]
  exact ⟨fun hi => if_neg (ne_true_of_eq_false ((s.withMoves ms).not_busy_iff.mpr hi)),
    fun hb => if_pos ((s.withMoves ms).busy_iff.mpr hb)⟩

/-- The default parameters are legal (00_scope R11, R15). -/
theorem valid_defaultParams : defaultParams.Valid :=
  ⟨by decide, by decide, by decide, by decide, by decide, by decide, by decide, by decide, trivial⟩

/-- Settles O11: the invariant holds after reset with any legal parameters, and the default ones are legal. -/
theorem resetSatisfiesInvariant : Obligations.ResetSatisfiesInvariant :=
  ⟨fun _ => invariant_resetWith, invariant_resetWith valid_defaultParams⟩

/-! ## The engine's turn -/

/-- Settles O8: whether or not a move is left, the engine has no step to take. -/
theorem idleEngineDoesNothing : Obligations.IdleEngineDoesNothing := by
  intro s hi
  refine ⟨fun hms => ?_, fun ms hms => ?_⟩
  · rw [step_nil hms, engineTurn_idle hi]
  · rw [step_engine hms, engineTurn_idle (s := s.withMoves ms) hi]
    rfl

/-- Every completion sets DONE (46_control R289). -/
theorem exec_done (h : exec i s = .next t) : t.done = true := by
  rcases exec_next h with ⟨e, ht⟩ | ⟨_, _, _, _, ⟨ht, _⟩, _⟩ <;> rw [ht] <;> rfl

/-- Settles O60: the clear is performed also while BUSY = 1, and the completion sets DONE whatever it was. -/
theorem doneRace : Obligations.DoneRace := by
  intro s t i hb hd _
  constructor
  · rw [(statusRegister t 2).2]
    rfl
  · have hlc : (s.hostWrite 0x00000C .b4 2).lc = s.lc := by rw [sameInputs_hostWrite hb]
    obtain ⟨u, hu⟩ := exec_completes i (s.hostWrite 0x00000C .b4 2)
    exact ⟨u, (engineStep_ok (hlc ▸ hd)).trans hu, exec_done hu⟩

end Sys2Proof
end
